-- ==== Sys2Proof/Word.lean ====
section
/-! DEFINITION. The machine's bit-vector and number types: command and register words, bytes, letters and Int31 values. -/

namespace Sys2Proof

/-- A 32-bit command word, operand register or response word (R7, R10: bit 0 is the least significant bit). -/
abbrev Word := BitVec 32

/-- A 16-bit value: an immediate (R73), or the stored half of a CSR whose bits 31:16 read 0 (R27, R28). -/
abbrev Half := BitVec 16

/-- An 8-bit pattern, one element of the Hamming buffer (R35). -/
abbrev Byte := BitVec 8

/-- A 5-bit letter, one element of LA and LB (R7, R36); bit j is bit-plane j (R53). -/
abbrev Letter := BitVec 5

/-- An Int31: an element of the field of integers mod 31, held as 0..30 (R120, R121). -/
abbrev F31 := Fin 31

end Sys2Proof
end

