-- ==== Sys2Proof/Config.lean ====
section
/-! DEFINITION. The parameters of one engine instance (00_scope.md R8) and their default values. -/

namespace Sys2Proof

/-- One entry of PERM: the images `pi(0) .. pi(4)` of the five bit positions (R222). -/
abbrev BitPerm := Vector (Fin 5) 5

/-- The order in which a platform may serialise a word as bytes (R8 `CMD_BYTE_ORDER`, R52). No rule of the machine reads it. -/
inductive ByteOrder where
  | little
  | big
deriving DecidableEq, Repr

/-- The parameters NMAX, HCAP and PERM (R8). The upper bound 65535 of NMAX and HCAP is their type's; the other
constraints are `Config.Wf` in WellFormed.lean. -/
structure Config where
  /-- NMAX, the capacity of LA and of LB in letters. -/
  nmax : Half
  /-- HCAP, the capacity of HB in elements. -/
  hcap : Half
  /-- PERM, the table of 26 bit-position permutations that whitening selects from. -/
  perm : Vector BitPerm 26
deriving DecidableEq, Repr

/-- The default PERM: the 26 involutions of five positions in lexicographic order (R222). -/
def Config.defaultPerm : Vector BitPerm 26 :=
  #v[#v[0, 1, 2, 3, 4], #v[0, 1, 2, 4, 3], #v[0, 1, 3, 2, 4], #v[0, 1, 4, 3, 2], #v[0, 2, 1, 3, 4],
     #v[0, 2, 1, 4, 3], #v[0, 3, 2, 1, 4], #v[0, 3, 4, 1, 2], #v[0, 4, 2, 3, 1], #v[0, 4, 3, 2, 1],
     #v[1, 0, 2, 3, 4], #v[1, 0, 2, 4, 3], #v[1, 0, 3, 2, 4], #v[1, 0, 4, 3, 2], #v[2, 1, 0, 3, 4],
     #v[2, 1, 0, 4, 3], #v[2, 3, 0, 1, 4], #v[2, 4, 0, 3, 1], #v[3, 1, 2, 0, 4], #v[3, 1, 4, 0, 2],
     #v[3, 2, 1, 0, 4], #v[3, 4, 2, 0, 1], #v[4, 1, 2, 3, 0], #v[4, 1, 3, 2, 0], #v[4, 2, 1, 3, 0],
     #v[4, 3, 2, 1, 0]]

/-- The default parameters: NMAX = 65535, HCAP = NMAX, the default PERM (R8). -/
def Config.default : Config where
  nmax := 65535
  hcap := 65535
  perm := Config.defaultPerm

end Sys2Proof
end

