-- ==== Sys2Proof/Syntax.lean ====
section
/-! DEFINITION. The 43 commands of the engine, one constructor per row of R75, operands in the order of its second column. -/

namespace Sys2Proof

/-- The number of an operand register, 0..15 (R22, R72). -/
abbrev XReg := BitVec 4

/-- The number of a polynomial register, 0..3 (R32). Its 4-bit field must have its upper two bits 0 (R72), so two bits are the
whole operand: no ill-formed operand can be written. -/
abbrev PReg := BitVec 2

/-- A CSR number (R26, R73). Every 12-bit number is a legal operand; an unimplemented one faults when it runs (R77). -/
abbrev CsrNum := BitVec 12

/-- One command of the engine (R75). -/
inductive Instr where
  -- GF(32) unit, 40_gf32.md
  | gfmul (rd rs1 rs2 : XReg)
  | gfinv (rd rs1 : XReg)
  | gfexp (rd rs1 : XReg)
  | gflog (rd rs1 : XReg)
  -- F31 scalar commands, 41_f31.md
  | f31add (rd rs1 rs2 : XReg)
  | f31sub (rd rs1 rs2 : XReg)
  | f31mul (rd rs1 rs2 : XReg)
  | f31div (rd rs1 rs2 : XReg)
  -- Poly31 commands, 41_f31.md
  | pzero (pd : PReg)
  | psetc (pd : PReg) (rs1 rs2 : XReg)
  | pgetc (rd : XReg) (ps1 : PReg) (rs2 : XReg)
  | peval (rd : XReg) (ps1 : PReg) (rs2 : XReg)
  | pshift (pd ps1 : PReg)
  | padd (pd ps1 ps2 : PReg)
  | pmul (pd ps1 ps2 : PReg)
  | pscale (pd ps1 : PReg) (rs2 : XReg)
  | picpt (pd : PReg) (rs1 : XReg)
  | pimp (pd : PReg) (rs1 rs2 : XReg)
  -- Hamming commands, 42_hamming.md
  | hclr
  | hpush (rs1 : XReg)
  | happ (rs1 : XReg)
  | hget (rd rs1 : XReg)
  | hprop
  | hdbits (rd rs1 : XReg)
  | hst (rs1 : XReg)
  -- Letter memories and criss-cross, 43_crisscross.md
  | lda (rd rs1 : XReg)
  | sta (rs1 rs2 : XReg)
  | ldb (rd rs1 : XReg)
  | stb (rs1 rs2 : XReg)
  | xcross
  | xuncross
  | ccaddr (rd rs1 rs2 : XReg)
  -- Whitening and odd-number arithmetic, 44_whitening.md
  | whiten (rd rs1 rs2 : XReg)
  | unwhiten (rd rs1 rs2 : XReg)
  | whitenb
  | unwhitenb
  | oddmul (rd rs1 rs2 : XReg)
  | odddiv (rd rs1 rs2 : XReg)
  -- System commands, 45_system.md
  | li (rd : XReg) (imm16 : Half)
  | lih (rd : XReg) (imm16 : Half)
  | rd (rs1 : XReg)
  | csrr (rd : XReg) (csr : CsrNum)
  | csrw (csr : CsrNum) (rs1 : XReg)
deriving DecidableEq, Repr

/-- The mnemonic of a command, as R75 spells it. -/
def Instr.mnemonic : Instr → String
  | .gfmul _ _ _ => "GFMUL"
  | .gfinv _ _ => "GFINV"
  | .gfexp _ _ => "GFEXP"
  | .gflog _ _ => "GFLOG"
  | .f31add _ _ _ => "F31ADD"
  | .f31sub _ _ _ => "F31SUB"
  | .f31mul _ _ _ => "F31MUL"
  | .f31div _ _ _ => "F31DIV"
  | .pzero _ => "PZERO"
  | .psetc _ _ _ => "PSETC"
  | .pgetc _ _ _ => "PGETC"
  | .peval _ _ _ => "PEVAL"
  | .pshift _ _ => "PSHIFT"
  | .padd _ _ _ => "PADD"
  | .pmul _ _ _ => "PMUL"
  | .pscale _ _ _ => "PSCALE"
  | .picpt _ _ => "PICPT"
  | .pimp _ _ _ => "PIMP"
  | .hclr => "HCLR"
  | .hpush _ => "HPUSH"
  | .happ _ => "HAPP"
  | .hget _ _ => "HGET"
  | .hprop => "HPROP"
  | .hdbits _ _ => "HDBITS"
  | .hst _ => "HST"
  | .lda _ _ => "LDA"
  | .sta _ _ => "STA"
  | .ldb _ _ => "LDB"
  | .stb _ _ => "STB"
  | .xcross => "XCROSS"
  | .xuncross => "XUNCROSS"
  | .ccaddr _ _ _ => "CCADDR"
  | .whiten _ _ _ => "WHITEN"
  | .unwhiten _ _ _ => "UNWHITEN"
  | .whitenb => "WHITENB"
  | .unwhitenb => "UNWHITENB"
  | .oddmul _ _ _ => "ODDMUL"
  | .odddiv _ _ _ => "ODDDIV"
  | .li _ _ => "LI"
  | .lih _ _ => "LIH"
  | .rd _ => "RD"
  | .csrr _ _ => "CSRR"
  | .csrw _ _ => "CSRW"

end Sys2Proof
end

