-- ==== Sys2Proof/WellFormed.lean ====
section
/-! DEFINITION. Well-formedness. A term of `Instr` is well-formed by its type: each operand's type holds exactly the
values its encoding field admits (Syntax.lean). What remains to be checked is the parameter record of R8. -/

namespace Sys2Proof

/-- NMAX is at least 13 (R8); it is at most 65535 by its type. -/
abbrev Config.NmaxOk (c : Config) : Prop := 13 ≤ c.nmax.toNat

/-- HCAP is at least 3 (R8); it is at most 65535 by its type. -/
abbrev Config.HcapOk (c : Config) : Prop := 3 ≤ c.hcap.toNat

/-- Every entry of PERM is its own inverse, and so a permutation of the five bit positions (R8, R222). -/
abbrev Config.PermOk (c : Config) : Prop :=
  ∀ t : Fin 26, ∀ b : Fin 5, (c.perm.get t).get ((c.perm.get t).get b) = b

/-- The parameters meet every constraint of R8. -/
abbrev Config.Wf (c : Config) : Prop := c.NmaxOk ∧ c.HcapOk ∧ c.PermOk

end Sys2Proof
end

