-- ==== Sys2Proof/Decode.lean ====
section
/-! DEFINITION. The command decoder and encoder (30_encoding.md R70 to R78), the table of R75 with its match and mask columns, and
the two byte orders of a platform's byte-wide channel (R52). -/

namespace Sys2Proof

/-! ## The fields of a word (R71) -/

/-- Bits 7:0, the opcode. -/
def fieldOp (w : Word) : BitVec 8 := w.extractLsb' 0 8

/-- Bits 11:8, field `a`. -/
def fieldA (w : Word) : BitVec 4 := w.extractLsb' 8 4

/-- Bits 15:12, field `b`; the `zero` field of format I. -/
def fieldB (w : Word) : BitVec 4 := w.extractLsb' 12 4

/-- Bits 19:16, field `c` of format R. -/
def fieldC (w : Word) : BitVec 4 := w.extractLsb' 16 4

/-- Bits 31:20, the `zero` field of format R. -/
def fieldZeroR (w : Word) : BitVec 12 := w.extractLsb' 20 12

/-- Bits 31:16, the immediate of format I. -/
def fieldImm (w : Word) : Half := w.extractLsb' 16 16

/-- Bits 27:16, the CSR number of format C. -/
def fieldCsr (w : Word) : CsrNum := w.extractLsb' 16 12

/-- Bits 31:28, the `zero` field of format C. -/
def fieldZeroC (w : Word) : BitVec 4 := w.extractLsb' 28 4

/-! ## Decoding -/

/-- Why a word is no command (R77). Each of them is the same illegal command, with FINFO = 0, to the machine. -/
inductive DecodeError where
  /-- The opcode is not in the table of R75. -/
  | unassignedOpcode
  /-- A `zero` field of the format is not 0 (R71). -/
  | nonzeroZeroField
  /-- A register field the command does not use is not 0 (R72). -/
  | nonzeroUnusedField
  /-- A field that names a polynomial register is above 3 (R72). -/
  | polyFieldAbove3
deriving DecidableEq, Repr

/-- A field of column kind `x` of R75: it names an operand register. -/
def readX (f : BitVec 4) : Except DecodeError XReg := .ok f

/-- A field of column kind `p` of R75: it names a polynomial register, so its upper two bits must be 0 (R72). -/
def readP (f : BitVec 4) : Except DecodeError PReg :=
  if f.extractLsb' 2 2 = 0 then .ok (f.extractLsb' 0 2) else .error .polyFieldAbove3

/-- A field of column kind `-` of R75: the command does not use it, so it must be 0 (R72). -/
def readNone (f : BitVec 4) : Except DecodeError Unit :=
  if f = 0 then .ok () else .error .nonzeroUnusedField

/-- A `zero` field (R71). -/
def readZero {n : Nat} (f : BitVec n) : Except DecodeError Unit :=
  if f = 0 then .ok () else .error .nonzeroZeroField

/-- A format R word (R71): the kinds of its fields `a`, `b`, `c` as R75 gives them, and the command they make. -/
def formatR {α β γ : Type} (w : Word) (a : BitVec 4 → Except DecodeError α) (b : BitVec 4 → Except DecodeError β)
    (c : BitVec 4 → Except DecodeError γ) (make : α → β → γ → Instr) : Except DecodeError Instr := do
  readZero (fieldZeroR w)
  let ra ← a (fieldA w)
  let rb ← b (fieldB w)
  let rc ← c (fieldC w)
  return make ra rb rc

/-- A format I word (R71): destination and immediate. -/
def formatI (w : Word) (make : XReg → Half → Instr) : Except DecodeError Instr := do
  readZero (fieldB w)
  return make (fieldA w) (fieldImm w)

/-- A format C word (R71): the kinds of its fields `a` and `b`, and its CSR number. -/
def formatC {α β : Type} (w : Word) (a : BitVec 4 → Except DecodeError α) (b : BitVec 4 → Except DecodeError β)
    (make : α → β → CsrNum → Instr) : Except DecodeError Instr := do
  readZero (fieldZeroC w)
  let ra ← a (fieldA w)
  let rb ← b (fieldB w)
  return make ra rb (fieldCsr w)

/-- The command a word is (R75), or why it is none (R77). -/
def decode (w : Word) : Except DecodeError Instr :=
  match (fieldOp w).toNat with
  | 0x10 => formatR w readX readX readX .gfmul
  | 0x11 => formatR w readX readX readNone (fun rd rs1 _ => .gfinv rd rs1)
  | 0x12 => formatR w readX readX readNone (fun rd rs1 _ => .gfexp rd rs1)
  | 0x13 => formatR w readX readX readNone (fun rd rs1 _ => .gflog rd rs1)
  | 0x20 => formatR w readX readX readX .f31add
  | 0x21 => formatR w readX readX readX .f31sub
  | 0x22 => formatR w readX readX readX .f31mul
  | 0x23 => formatR w readX readX readX .f31div
  | 0x30 => formatR w readP readNone readNone (fun pd _ _ => .pzero pd)
  | 0x31 => formatR w readP readX readX .psetc
  | 0x32 => formatR w readX readP readX .pgetc
  | 0x33 => formatR w readX readP readX .peval
  | 0x34 => formatR w readP readP readNone (fun pd ps1 _ => .pshift pd ps1)
  | 0x35 => formatR w readP readP readP .padd
  | 0x36 => formatR w readP readP readP .pmul
  | 0x37 => formatR w readP readP readX .pscale
  | 0x38 => formatR w readP readX readNone (fun pd rs1 _ => .picpt pd rs1)
  | 0x39 => formatR w readP readX readX .pimp
  | 0x40 => formatR w readNone readNone readNone (fun _ _ _ => .hclr)
  | 0x41 => formatR w readNone readX readNone (fun _ rs1 _ => .hpush rs1)
  | 0x42 => formatR w readNone readX readNone (fun _ rs1 _ => .happ rs1)
  | 0x43 => formatR w readX readX readNone (fun rd rs1 _ => .hget rd rs1)
  | 0x44 => formatR w readNone readNone readNone (fun _ _ _ => .hprop)
  | 0x45 => formatR w readX readX readNone (fun rd rs1 _ => .hdbits rd rs1)
  | 0x46 => formatR w readNone readX readNone (fun _ rs1 _ => .hst rs1)
  | 0x50 => formatR w readX readX readNone (fun rd rs1 _ => .lda rd rs1)
  | 0x51 => formatR w readNone readX readX (fun _ rs1 rs2 => .sta rs1 rs2)
  | 0x52 => formatR w readX readX readNone (fun rd rs1 _ => .ldb rd rs1)
  | 0x53 => formatR w readNone readX readX (fun _ rs1 rs2 => .stb rs1 rs2)
  | 0x54 => formatR w readNone readNone readNone (fun _ _ _ => .xcross)
  | 0x55 => formatR w readNone readNone readNone (fun _ _ _ => .xuncross)
  | 0x56 => formatR w readX readX readX .ccaddr
  | 0x60 => formatR w readX readX readX .whiten
  | 0x61 => formatR w readX readX readX .unwhiten
  | 0x62 => formatR w readNone readNone readNone (fun _ _ _ => .whitenb)
  | 0x63 => formatR w readNone readNone readNone (fun _ _ _ => .unwhitenb)
  | 0x64 => formatR w readX readX readX .oddmul
  | 0x65 => formatR w readX readX readX .odddiv
  | 0x70 => formatI w .li
  | 0x71 => formatI w .lih
  | 0x72 => formatR w readNone readX readNone (fun _ rs1 _ => .rd rs1)
  | 0x73 => formatC w readX readNone (fun rd _ csr => .csrr rd csr)
  | 0x74 => formatC w readNone readX (fun _ rs1 csr => .csrw csr rs1)
  | _ => .error .unassignedOpcode

/-! ## Encoding -/

/-- The 4-bit field that names a polynomial register: its upper two bits are 0 (R72). -/
def pfield (p : PReg) : BitVec 4 := 0#2 ++ p

/-- A format R word (R71). -/
def wordR (op : BitVec 8) (a b c : BitVec 4) : Word := 0#12 ++ c ++ b ++ a ++ op

/-- A format I word (R71). -/
def wordI (op : BitVec 8) (a : BitVec 4) (imm : Half) : Word := imm ++ 0#4 ++ a ++ op

/-- A format C word (R71). -/
def wordC (op : BitVec 8) (a b : BitVec 4) (csr : CsrNum) : Word := 0#4 ++ csr ++ b ++ a ++ op

/-- The one word of a command: its `match` with its fields put in (R75). -/
def encode : Instr → Word
  | .gfmul rd rs1 rs2 => wordR 0x10 rd rs1 rs2
  | .gfinv rd rs1 => wordR 0x11 rd rs1 0
  | .gfexp rd rs1 => wordR 0x12 rd rs1 0
  | .gflog rd rs1 => wordR 0x13 rd rs1 0
  | .f31add rd rs1 rs2 => wordR 0x20 rd rs1 rs2
  | .f31sub rd rs1 rs2 => wordR 0x21 rd rs1 rs2
  | .f31mul rd rs1 rs2 => wordR 0x22 rd rs1 rs2
  | .f31div rd rs1 rs2 => wordR 0x23 rd rs1 rs2
  | .pzero pd => wordR 0x30 (pfield pd) 0 0
  | .psetc pd rs1 rs2 => wordR 0x31 (pfield pd) rs1 rs2
  | .pgetc rd ps1 rs2 => wordR 0x32 rd (pfield ps1) rs2
  | .peval rd ps1 rs2 => wordR 0x33 rd (pfield ps1) rs2
  | .pshift pd ps1 => wordR 0x34 (pfield pd) (pfield ps1) 0
  | .padd pd ps1 ps2 => wordR 0x35 (pfield pd) (pfield ps1) (pfield ps2)
  | .pmul pd ps1 ps2 => wordR 0x36 (pfield pd) (pfield ps1) (pfield ps2)
  | .pscale pd ps1 rs2 => wordR 0x37 (pfield pd) (pfield ps1) rs2
  | .picpt pd rs1 => wordR 0x38 (pfield pd) rs1 0
  | .pimp pd rs1 rs2 => wordR 0x39 (pfield pd) rs1 rs2
  | .hclr => wordR 0x40 0 0 0
  | .hpush rs1 => wordR 0x41 0 rs1 0
  | .happ rs1 => wordR 0x42 0 rs1 0
  | .hget rd rs1 => wordR 0x43 rd rs1 0
  | .hprop => wordR 0x44 0 0 0
  | .hdbits rd rs1 => wordR 0x45 rd rs1 0
  | .hst rs1 => wordR 0x46 0 rs1 0
  | .lda rd rs1 => wordR 0x50 rd rs1 0
  | .sta rs1 rs2 => wordR 0x51 0 rs1 rs2
  | .ldb rd rs1 => wordR 0x52 rd rs1 0
  | .stb rs1 rs2 => wordR 0x53 0 rs1 rs2
  | .xcross => wordR 0x54 0 0 0
  | .xuncross => wordR 0x55 0 0 0
  | .ccaddr rd rs1 rs2 => wordR 0x56 rd rs1 rs2
  | .whiten rd rs1 rs2 => wordR 0x60 rd rs1 rs2
  | .unwhiten rd rs1 rs2 => wordR 0x61 rd rs1 rs2
  | .whitenb => wordR 0x62 0 0 0
  | .unwhitenb => wordR 0x63 0 0 0
  | .oddmul rd rs1 rs2 => wordR 0x64 rd rs1 rs2
  | .odddiv rd rs1 rs2 => wordR 0x65 rd rs1 rs2
  | .li rd imm16 => wordI 0x70 rd imm16
  | .lih rd imm16 => wordI 0x71 rd imm16
  | .rd rs1 => wordR 0x72 0 rs1 0
  | .csrr rd csr => wordC 0x73 rd 0 csr
  | .csrw csr rs1 => wordC 0x74 0 rs1 csr

/-- The instruction the decoder reads from the table's numbering of its bits: every command is one 32-bit word (R70), so bits
`nbits` and above of that word are 0. -/
def decodeTableWord (nbits w : Nat) : Option Instr := (decode (BitVec.ofNat 32 (w % 2 ^ nbits))).toOption

/-! ## The table of R75 -/

/-- One row of R75: a word `w` is the command exactly when `w &&& mask = mtch`. -/
structure OpcodeRow where
  mnemonic : String
  mtch : Word
  mask : Word
deriving DecidableEq, Repr

/-- The 43 rows of R75. -/
def opcodeRows : List OpcodeRow :=
  [⟨"GFMUL", 0x00000010, 0xFFF000FF⟩,
   ⟨"GFINV", 0x00000011, 0xFFFF00FF⟩,
   ⟨"GFEXP", 0x00000012, 0xFFFF00FF⟩,
   ⟨"GFLOG", 0x00000013, 0xFFFF00FF⟩,
   ⟨"F31ADD", 0x00000020, 0xFFF000FF⟩,
   ⟨"F31SUB", 0x00000021, 0xFFF000FF⟩,
   ⟨"F31MUL", 0x00000022, 0xFFF000FF⟩,
   ⟨"F31DIV", 0x00000023, 0xFFF000FF⟩,
   ⟨"PZERO", 0x00000030, 0xFFFFFCFF⟩,
   ⟨"PSETC", 0x00000031, 0xFFF00CFF⟩,
   ⟨"PGETC", 0x00000032, 0xFFF0C0FF⟩,
   ⟨"PEVAL", 0x00000033, 0xFFF0C0FF⟩,
   ⟨"PSHIFT", 0x00000034, 0xFFFFCCFF⟩,
   ⟨"PADD", 0x00000035, 0xFFFCCCFF⟩,
   ⟨"PMUL", 0x00000036, 0xFFFCCCFF⟩,
   ⟨"PSCALE", 0x00000037, 0xFFF0CCFF⟩,
   ⟨"PICPT", 0x00000038, 0xFFFF0CFF⟩,
   ⟨"PIMP", 0x00000039, 0xFFF00CFF⟩,
   ⟨"HCLR", 0x00000040, 0xFFFFFFFF⟩,
   ⟨"HPUSH", 0x00000041, 0xFFFF0FFF⟩,
   ⟨"HAPP", 0x00000042, 0xFFFF0FFF⟩,
   ⟨"HGET", 0x00000043, 0xFFFF00FF⟩,
   ⟨"HPROP", 0x00000044, 0xFFFFFFFF⟩,
   ⟨"HDBITS", 0x00000045, 0xFFFF00FF⟩,
   ⟨"HST", 0x00000046, 0xFFFF0FFF⟩,
   ⟨"LDA", 0x00000050, 0xFFFF00FF⟩,
   ⟨"STA", 0x00000051, 0xFFF00FFF⟩,
   ⟨"LDB", 0x00000052, 0xFFFF00FF⟩,
   ⟨"STB", 0x00000053, 0xFFF00FFF⟩,
   ⟨"XCROSS", 0x00000054, 0xFFFFFFFF⟩,
   ⟨"XUNCROSS", 0x00000055, 0xFFFFFFFF⟩,
   ⟨"CCADDR", 0x00000056, 0xFFF000FF⟩,
   ⟨"WHITEN", 0x00000060, 0xFFF000FF⟩,
   ⟨"UNWHITEN", 0x00000061, 0xFFF000FF⟩,
   ⟨"WHITENB", 0x00000062, 0xFFFFFFFF⟩,
   ⟨"UNWHITENB", 0x00000063, 0xFFFFFFFF⟩,
   ⟨"ODDMUL", 0x00000064, 0xFFF000FF⟩,
   ⟨"ODDDIV", 0x00000065, 0xFFF000FF⟩,
   ⟨"LI", 0x00000070, 0x0000F0FF⟩,
   ⟨"LIH", 0x00000071, 0x0000F0FF⟩,
   ⟨"RD", 0x00000072, 0xFFFF0FFF⟩,
   ⟨"CSRR", 0x00000073, 0xF000F0FF⟩,
   ⟨"CSRW", 0x00000074, 0xF0000FFF⟩]

/-- The word is the command of the row (R75). -/
abbrev OpcodeRow.Matches (r : OpcodeRow) (w : Word) : Prop := w &&& r.mask = r.mtch

/-! ## Byte order of a byte-wide channel (R52) -/

/-- The four bytes of a word on a channel of the given order, first byte first. -/
def bytesOfWord (o : ByteOrder) (w : Word) : List Byte :=
  let bs := [w.extractLsb' 0 8, w.extractLsb' 8 8, w.extractLsb' 16 8, w.extractLsb' 24 8]
  match o with
  | .little => bs
  | .big => bs.reverse

/-- The word that four bytes make on a channel of the given order, first byte first. -/
def wordOfBytes (o : ByteOrder) (b0 b1 b2 b3 : Byte) : Word :=
  match o with
  | .little => b3 ++ b2 ++ b1 ++ b0
  | .big => b0 ++ b1 ++ b2 ++ b3

end Sys2Proof
end

