-- ==== Sys2Proof/Machine/State.lean ====
section
/-! DEFINITION. The state of the engine (10_state.md R20), the causes of its faults (60_exceptions.md R301), and the state after
reset (10_state.md R39). -/

namespace Sys2Proof.Machine

/-- An element-addressed data space (R34): its listed elements as (index, value) pairs. The canonical form is `Memory.wf`
(Ops.lean); an unlisted index reads as `Memory.unlisted`. `Memory 8` is a list of `Host.Cell`. -/
abbrev Memory (w : Nat) := List (Nat × BitVec w)

/-- The contents of a polynomial register: coefficient k of X^k, k in 0..29 (R32, R130). Each coefficient is an Int31 by its
type, which is the invariant of R131. -/
abbrev Poly31 := Vector F31 30

/-- What the host can do to the engine (R250): present a command word, or assert and release reset. -/
inductive HostInput where
  | command (w : Word)
  | reset
deriving DecidableEq, Repr

/-- The causes of a fault (R301). -/
inductive Cause where
  | illegalCommand
  | badOperand
  | divisionByZero
  | polyOverflow
  | indexRange
  | hammingOverflow
  | badBlockLength
  | notSized
deriving DecidableEq, Repr

/-- A fault being raised: its cause and its exact information word (R305). -/
structure Raised where
  cause : Cause
  info : Nat
deriving DecidableEq, Repr

/-- The whole state of the engine (R20), the parameters of the instance (R8) and the input the host has presented. -/
structure State where
  /-- The parameters of the instance; configuration that no step changes (R8, R20). -/
  cfg : Config
  /-- Operand registers x[0..15] (R22). -/
  x : Vector Word 16
  /-- Polynomial registers P[0..3] (R32). -/
  p : Vector Poly31 4
  /-- The Hamming buffer HB (R35). -/
  hb : Memory 8
  /-- HLEN, the length of HB (R29). -/
  hlen : Half
  /-- The letter memory LA (R36). -/
  la : Memory 5
  /-- The letter memory LB (R36). -/
  lb : Memory 5
  /-- Bits 15:0 of NLET (R27). -/
  nlet : Half
  /-- Bits 15:0 of CCMULT (R28). -/
  ccmult : Half
  /-- Bits 15:0 of CCBASE (R28). -/
  ccbase : Half
  /-- FSTAT.F, the fault bit (R31). -/
  fstat : Bool
  /-- FCAUSE, the cause code of the recorded fault (R31). -/
  fcause : Word
  /-- FCMD, the command word that faulted (R31). -/
  fcmd : Word
  /-- FINFO, the information word of the recorded fault (R31). -/
  finfo : Word
  /-- The response stream OUT, every word since reset, oldest first (R37). -/
  out : List Word
  /-- The model's own field: what the host has presented and the engine has not yet taken, oldest first (log 2). -/
  input : List HostInput
deriving DecidableEq, Repr

/-- Reasons the machine stops. It has none, so no one raises one and nothing about it is unsafe: every command completes or
takes the fault entry of R305, which is a next state, and the engine "is deterministic and total, and has no hang" (R324). -/
inductive Fault : Type
deriving DecidableEq, Repr

/-- Reasons the model gives a command no meaning. -/
inductive Refusal where
  /-- Raised only by an arm of `exec` whose command has no meaning yet (safe: nothing is claimed of it). No arm uses it. -/
  | notModelled (mnemonic : String)
deriving DecidableEq, Repr

/-- The outcome of one step or one command. -/
abbrev Result := Host.Outcome State Fault Refusal

/-- The state after reset of an instance with parameters `c`, with no input waiting (R39, R340). -/
def State.resetOf (c : Config) : State where
  cfg := c
  x := Vector.replicate 16 0
  p := Vector.replicate 4 (Vector.replicate 30 0)
  hb := []
  hlen := 0
  la := []
  lb := []
  nlet := 0
  ccmult := 0
  ccbase := 0
  fstat := false
  fcause := 0
  fcmd := 0
  finfo := 0
  out := []
  input := []

/-- The state after reset of the instance with the default parameters (R8, R39). -/
def State.reset : State := State.resetOf Config.default

end Sys2Proof.Machine
end

