-- ==== Sys2Proof/Machine/Flags.lean ====
section
/-! DEFINITION. The one status bit of the engine, FSTAT.F. There are no condition codes, carry, overflow or zero flags, and no
command writes a flag as a side effect (10_state.md R25). -/

namespace Sys2Proof.Machine

/-- The value FSTAT reads: bit 0 is F, bits 31:1 read 0 (R26, R31). -/
def State.fstatWord (s : State) : Word := if s.fstat then 1 else 0

/-- The level output `fault`, equal to FSTAT.F at all times (R310). -/
def State.faultOutput (s : State) : Bool := s.fstat

/-- The code of a cause, as FCAUSE records it (R301). Code 0 is "no fault". -/
def Cause.code : Cause → Nat
  | .illegalCommand => 1
  | .badOperand => 2
  | .divisionByZero => 3
  | .polyOverflow => 4
  | .indexRange => 5
  | .hammingOverflow => 6
  | .badBlockLength => 7
  | .notSized => 8

end Sys2Proof.Machine
end

