-- ==== Sys2Proof/Machine/Ops.lean ====
section
/-! DEFINITION. The shared operations: element memory, register access, taking a fault, how a command completes, the host's
input. -/

namespace Sys2Proof.Machine

/-! ## Element memory (R50, R51) -/

/-- What an unlisted element reads as: the reset value of LA and LB (R39), and the value the model takes for HB (R343, log 4). -/
abbrev Memory.unlisted {w : Nat} : BitVec w := 0#w

/-- The canonical form: indices strictly rising, and no element listed that equals what an unlisted one reads as. -/
abbrev Memory.wf {w : Nat} (m : Memory w) : Prop :=
  m.Pairwise (fun c d => c.1 < d.1) ∧ ∀ c ∈ m, c.2 ≠ Memory.unlisted

/-- `MemRead(S[k], 1)`: the element at index `k` (R50). -/
def Memory.read {w : Nat} : Memory w → Nat → BitVec w
  | [], _ => Memory.unlisted
  | (b, u) :: m, k => if k < b then Memory.unlisted else if k = b then u else Memory.read m k

/-- `MemWrite(S[k], 1, v)`: the memory with the element at index `k` replaced by `v` (R51). The canonical form is kept;
`dropWhile` drops nothing from a memory that has it. -/
def Memory.write {w : Nat} : Memory w → Nat → BitVec w → Memory w
  | [], k, v => if v = Memory.unlisted then [] else [(k, v)]
  | (b, u) :: m, k, v =>
    if k < b then (if v = Memory.unlisted then (b, u) :: m else (k, v) :: (b, u) :: m)
    else if k = b then (if v = Memory.unlisted then m.dropWhile (fun c => decide (c.1 ≤ k)) else (k, v) :: m)
    else (b, u) :: Memory.write m k v

/-- `for k in 0..n-1: MemWrite(S[off + k], 1, f k)`, the loop of every command that writes a run of elements (R55). -/
def Memory.fill {w : Nat} (m : Memory w) (off n : Nat) (f : Nat → BitVec w) : Memory w :=
  (List.range n).foldl (fun m k => m.write (off + k) (f k)) m

/-! ## Registers (R11) -/

/-- Read `x[r]` (R11, R22). -/
def State.getX (s : State) (r : XReg) : Word := s.x[r.toNat]'r.isLt

/-- `x[r] <- v` (R11, R22); no register is hard-wired. -/
def State.setX (s : State) (r : XReg) (v : Word) : State := { s with x := s.x.set r.toNat v r.isLt }

/-- Read polynomial register `P[r]` (R11, R32). -/
def State.getP (s : State) (r : PReg) : Poly31 := s.p[r.toNat]'r.isLt

/-- `P[r] <- q`, all 30 coefficients (R11, R32). -/
def State.setP (s : State) (r : PReg) (q : Poly31) : State := { s with p := s.p.set r.toNat q r.isLt }

/-- `x[r] <- n` for a result the command's rule keeps below 2^32 (R11). -/
def State.setXNat (s : State) (r : XReg) (n : Nat) : State := s.setX r (BitVec.ofNat 32 n)

/-- `N`, the number of letters of the data region (R27). -/
def State.letters (s : State) : Nat := s.nlet.toNat

/-- HLEN as a number (R29). -/
def State.hammingLen (s : State) : Nat := s.hlen.toNat

/-- `emit(v)`: append a word to OUT (R11, R37). -/
def State.emit (s : State) (v : Word) : State := { s with out := s.out ++ [v] }

/-! ## Taking a fault (R305, R307) -/

/-- Fault entry for the command word `w`: F, FCAUSE, FCMD and FINFO are written and nothing else; FINFO takes the information
word modulo 2^32 (R305). While F is 1 a fault writes nothing at all: the first one wins (R307). There is no return (R309). -/
def takeFault (w : Word) (e : Raised) (s : State) : State :=
  if s.fstat then s
  else { s with fstat := true, fcause := BitVec.ofNat 32 e.cause.code, fcmd := w, finfo := BitVec.ofNat 32 e.info }

/-- The state after a command: the one it made, or, if a check of it failed, the fault taken from the state before it
(R12, R305: a command that raises writes nothing but the fault CSRs). -/
def settle (w : Word) (s : State) : Except Raised State → State
  | .ok t => t
  | .error e => takeFault w e s

/-- `if c: raise cause(info)`, one check of a command (R12). -/
def raiseIf (c : Prop) [Decidable c] (cause : Cause) (info : Nat) : Except Raised Unit :=
  if c then .error ⟨cause, info⟩ else .ok ()

/-- A command other than RD and CSRR: discarded with no effect while F is 1, otherwise it completes or faults (R306).
FCMD receives the command's word, which is `encode i` (log 5). -/
def command (i : Instr) (s : State) (body : Except Raised State) : Result :=
  .next (if s.fstat then s else settle (encode i) s body)

/-- RD or CSRR: executed in the faulted state too (R306). -/
def commandAlways (i : Instr) (s : State) (body : Except Raised State) : Result :=
  .next (settle (encode i) s body)

/-- A word that is no command: IllegalCommand with FINFO = 0 (R77), or, while F is 1, discarded (R306). -/
def illegalWord (w : Word) (s : State) : State := takeFault w ⟨.illegalCommand, 0⟩ s

/-! ## The host's input (R250) -/

/-- The reset event: the state after reset of the same instance, whatever the state was (R340, R342). What the host presented
after it stays waiting (log 3). -/
def resetEvent (rest : List HostInput) (s : State) : State := { State.resetOf s.cfg with input := rest }

/-- What the engine does next with what the host has presented. -/
inductive NextEvent where
  /-- Nothing waits: the engine is idle and keeps all state (R314). -/
  | idle
  /-- Reset: the state it leaves (R340). -/
  | reset (t : State)
  /-- A command word, and the state in which the engine has taken it (R250). -/
  | word (w : Word) (t : State)
deriving DecidableEq, Repr

/-- The oldest input the host has presented, taken from the input (R250, R323). -/
def nextEvent (s : State) : NextEvent :=
  match s.input with
  | [] => .idle
  | .reset :: rest => .reset (resetEvent rest s)
  | .command w :: rest => .word w { s with input := rest }

/-- `s` with one more command word presented, ahead of everything that waits. -/
def presentFirst (w : Word) (s : State) : State := { s with input := .command w :: s.input }

end Sys2Proof.Machine
end

