-- ==== Sys2Proof/Machine/Operands.lean ====
section
/-! DEFINITION. The operand forms: each reads a whole 32-bit register and raises BadOperand when the value lies outside the
domain the command needs; none truncates (10_state.md R23). And the number functions `bitlen` and `is_pow2` of 00_scope.md R10. -/

namespace Sys2Proof.Machine

/-- A letter operand, 0..31 (R23, R106). -/
def letterOperand (v : Word) : Except Raised Letter :=
  if 31 < v.toNat then .error ⟨.badOperand, v.toNat⟩ else .ok (v.setWidth 5)

/-- An Int31 operand, 0..30; 31 and above are refused, not reduced (R121). -/
def int31Operand (v : Word) : Except Raised F31 :=
  if h : v.toNat < 31 then .ok ⟨v.toNat, h⟩ else .error ⟨.badOperand, v.toNat⟩

/-- A byte operand, 0..255 (R164, R166). -/
def byteOperand (v : Word) : Except Raised Byte :=
  if 255 < v.toNat then .error ⟨.badOperand, v.toNat⟩ else .ok (v.setWidth 8)

/-- An operand that must not exceed `top`: an exponent, a coefficient index, a length, a plane (R108, R133, R168, R199). -/
def boundedOperand (top : Nat) (v : Word) : Except Raised Nat :=
  if top < v.toNat then .error ⟨.badOperand, v.toNat⟩ else .ok v.toNat

/-- `N` of a sized engine: NotSized while NLET is 0 (R192). -/
def sizedOperand (s : State) : Except Raised Nat :=
  if s.letters = 0 then .error ⟨.notSized, 0⟩ else .ok s.letters

/-- An element index that must lie in the live range 0..n-1 (R50, R192). -/
def indexOperand (n : Nat) (v : Word) : Except Raised Nat :=
  if n ≤ v.toNat then .error ⟨.indexRange, v.toNat⟩ else .ok v.toNat

/-- The number of bits needed to write `n` (R10). -/
def bitlen (n : Nat) : Nat := if n = 0 then 0 else n.log2 + 1

/-- `n` is one of 1, 2, 4, 8, ... (R10). -/
def isPow2 (n : Nat) : Bool := n != 0 && 2 ^ n.log2 == n

end Sys2Proof.Machine
end

