-- ==== Sys2Proof/Machine/Crisscross.lean ====
section
/-! DEFINITION. The letter memories and the bit-plane criss-cross interleaver: LDA, STA, LDB, STB, XCROSS, XUNCROSS, CCADDR
(43_crisscross.md R190 to R199). -/

namespace Sys2Proof.Machine

/-- The five plane primes, indexed by plane (R9, R190). -/
def planePrime (j : Nat) : Nat := [2, 3, 5, 7, 11].getD j 0

/-- `ccf5[j] = (CCBASE * CCMULT^j) mod N`, computed afresh from the CSRs at each use (R190, R191). -/
def ccf5 (s : State) (j : Nat) : Nat := s.ccbase.toNat * s.ccmult.toNat ^ j % s.letters

/-- `addr(i,j) = (i * ccf5[j] + prime[j]) mod N` (R190). -/
def crossAddr (s : State) (i j : Nat) : Nat := (i * ccf5 s j + planePrime j) % s.letters

/-- Bit `j` of a letter, in place: `l & (1 << j)` (R197, R198). -/
def planeBit (l : Letter) (j : Nat) : Letter := l &&& (1#5 <<< j)

/-- LB after the interleave of R197: elements 0..N-1 cleared, then plane j of each `LA[i]` OR-ed onto `LB[addr(i,j)]`. -/
def interleaved (s : State) : Memory 5 :=
  (List.range s.letters).foldl
    (fun m i => (List.range 5).foldl
      (fun m j => m.write (crossAddr s i j) (m.read (crossAddr s i j) ||| planeBit (s.la.read i) j)) m)
    (s.lb.fill 0 s.letters (fun _ => 0))

/-- The letter R198 gathers for source index `i`: plane j from `LB[addr(i,j)]`. -/
def gathered (s : State) (i : Nat) : Letter :=
  (List.range 5).foldl (fun w j => w ||| planeBit (s.lb.read (crossAddr s i j)) j) 0

/-- LDA: read one letter of LA (R193). -/
def execLda (rd rs1 : XReg) (s : State) : Result :=
  command (.lda rd rs1) s do
    let n ← sizedOperand s
    let k ← indexOperand n (s.getX rs1)
    return s.setX rd ((s.la.read k).setWidth 32)

/-- STA: write one letter of LA (R194). -/
def execSta (rs1 rs2 : XReg) (s : State) : Result :=
  command (.sta rs1 rs2) s do
    let n ← sizedOperand s
    let k ← indexOperand n (s.getX rs1)
    let v ← letterOperand (s.getX rs2)
    return { s with la := s.la.write k v }

/-- LDB: read one letter of LB (R195). -/
def execLdb (rd rs1 : XReg) (s : State) : Result :=
  command (.ldb rd rs1) s do
    let n ← sizedOperand s
    let k ← indexOperand n (s.getX rs1)
    return s.setX rd ((s.lb.read k).setWidth 32)

/-- STB: write one letter of LB (R196). -/
def execStb (rs1 rs2 : XReg) (s : State) : Result :=
  command (.stb rs1 rs2) s do
    let n ← sizedOperand s
    let k ← indexOperand n (s.getX rs1)
    let v ← letterOperand (s.getX rs2)
    return { s with lb := s.lb.write k v }

/-- XCROSS: interleave all of LA into LB; LA is unchanged (R197). -/
def execXcross (s : State) : Result :=
  command .xcross s do
    let _ ← sizedOperand s
    return { s with lb := interleaved s }

/-- XUNCROSS: de-interleave all of LB into LA; LB is unchanged (R198). -/
def execXuncross (s : State) : Result :=
  command .xuncross s do
    let n ← sizedOperand s
    return { s with la := s.la.fill 0 n (gathered s) }

/-- CCADDR: one interleave address; the index is checked before the plane (R199). -/
def execCcaddr (rd rs1 rs2 : XReg) (s : State) : Result :=
  command (.ccaddr rd rs1 rs2) s do
    let n ← sizedOperand s
    let i ← indexOperand n (s.getX rs1)
    let j ← boundedOperand 4 (s.getX rs2)
    return s.setXNat rd (crossAddr s i j)

end Sys2Proof.Machine
end

