-- ==== Sys2Proof/Machine/Gf32.lean ====
section
/-! DEFINITION. The GF(32) unit: its constant tables and GFMUL, GFINV, GFEXP, GFLOG (40_gf32.md R100 to R109). -/

namespace Sys2Proof.Machine

/-- GF_EXP, entries 0..30 (R102). -/
def gfExpTable : List Letter :=
  [1, 2, 4, 8, 16, 5, 10, 20, 13, 26, 17, 7, 14, 28, 29, 31, 27, 19, 3, 6, 12, 24, 21, 15, 30, 25, 23, 11, 22, 9, 18]

/-- GF_LOG, entries 1..31 (R103). The table has no entry for 0, and no command reads one; the 0 here only holds its place. -/
def gfLogTable : List Nat :=
  [0, 0, 1, 18, 2, 5, 19, 11, 3, 29, 6, 27, 20, 8, 12, 23, 4, 10, 30, 17, 7, 22, 28, 26, 21, 25, 9, 16, 13, 14, 24, 15]

/-- `GF_EXP[i]`, for i in 0..30 (R102). -/
def gfExp (i : Nat) : Letter := gfExpTable.getD i 0

/-- `GF_LOG[a]`, for a in 1..31 (R103). -/
def gfLog (a : Letter) : Nat := gfLogTable.getD a.toNat 0

/-- `GF_MUL[a][b]` (R104). -/
def gfMul (a b : Letter) : Letter :=
  if a = 0 ∨ b = 0 then 0 else gfExp ((gfLog a + gfLog b) % 31)

/-- `GF_INV[a]`; the inverse of 0 is 0 by convention (R105). -/
def gfInv (a : Letter) : Letter :=
  if a = 0 then 0 else gfExp ((31 - gfLog a) % 31)

/-- GFMUL: multiply in GF(32) (R106). -/
def execGfmul (rd rs1 rs2 : XReg) (s : State) : Result :=
  command (.gfmul rd rs1 rs2) s do
    let a ← letterOperand (s.getX rs1)
    let b ← letterOperand (s.getX rs2)
    return s.setXNat rd (gfMul a b).toNat

/-- GFINV: inverse by table; 0 gives 0 and does not fault (R107). -/
def execGfinv (rd rs1 : XReg) (s : State) : Result :=
  command (.gfinv rd rs1) s do
    let a ← letterOperand (s.getX rs1)
    return s.setXNat rd (gfInv a).toNat

/-- GFEXP: antilog of an exponent 0..30 (R108). -/
def execGfexp (rd rs1 : XReg) (s : State) : Result :=
  command (.gfexp rd rs1) s do
    let i ← boundedOperand 30 (s.getX rs1)
    return s.setXNat rd (gfExp i).toNat

/-- GFLOG: logarithm of a nonzero letter to the base 2 (R109). -/
def execGflog (rd rs1 : XReg) (s : State) : Result :=
  command (.gflog rd rs1) s do
    raiseIf (s.getX rs1 = 0) .badOperand 0
    let a ← letterOperand (s.getX rs1)
    return s.setXNat rd (gfLog a)

end Sys2Proof.Machine
end

