-- ==== Sys2Proof/Machine/Hamming.lean ====
section
/-! DEFINITION. The Hamming encoder and the block commands HCLR, HPUSH, HAPP, HGET, HDBITS, HST (42_hamming.md R160 to R169).
HPROP is in Propagate.lean. -/

namespace Sys2Proof.Machine

/-- How many zero parity placeholders a push onto a block of `n` symbols inserts: one for every power-of-two position that the
next positions are (R164: 2 when n = 0, 1 when n + 1 is a power of two and n > 0, else 0). -/
def padCount (n : Nat) : Nat :=
  if isPow2 (n + 1) then (if isPow2 (n + 2) then 2 else 1) else 0

/-- The 1-based position a push onto a block of `n` symbols gives the new data symbol, which is the new length (R164). -/
def pushPosition (n : Nat) : Nat := n + padCount n + 1

/-- XOR `d` into the parity symbol of every check `2^k` that the position `p` takes part in (R164). -/
def updateParity (m : Memory 8) (p : Nat) (d : Byte) : Memory 8 :=
  (List.range (bitlen p)).foldl
    (fun m k => if p.testBit k && 2 ^ k != p then m.write (2 ^ k - 1) (m.read (2 ^ k - 1) ^^^ d) else m) m

/-- HB after pushing `d` onto a block of `n` symbols: placeholders, the data symbol, the parity updates (R164). -/
def pushSymbol (hb : Memory 8) (n : Nat) (d : Byte) : Memory 8 :=
  updateParity ((hb.fill n (padCount n) (fun _ => 0)).write (pushPosition n - 1) d) (pushPosition n) d

/-- `databits(n) = n - bitlen(n)` (R160). -/
def databits (n : Nat) : Nat := n - bitlen n

/-- HCLR: empty the buffer (R162). -/
def execHclr (s : State) : Result :=
  command .hclr s (.ok { s with hlen := 0 })

/-- HPUSH: append a data symbol with its placeholders and update the parity symbols (R164). -/
def execHpush (rs1 : XReg) (s : State) : Result :=
  command (.hpush rs1) s do
    let d ← byteOperand (s.getX rs1)
    raiseIf (s.cfg.hcap.toNat < pushPosition s.hammingLen) .hammingOverflow (pushPosition s.hammingLen)
    return { s with hb := pushSymbol s.hb s.hammingLen d, hlen := BitVec.ofNat 16 (pushPosition s.hammingLen) }

/-- HAPP: append one raw element (R166). -/
def execHapp (rs1 : XReg) (s : State) : Result :=
  command (.happ rs1) s do
    let d ← byteOperand (s.getX rs1)
    raiseIf (s.cfg.hcap.toNat < s.hammingLen + 1) .hammingOverflow (s.hammingLen + 1)
    return { s with hb := s.hb.write s.hammingLen d, hlen := BitVec.ofNat 16 (s.hammingLen + 1) }

/-- HGET: read one element as the unsigned pattern (R167). -/
def execHget (rd rs1 : XReg) (s : State) : Result :=
  command (.hget rd rs1) s do
    let k ← indexOperand s.hammingLen (s.getX rs1)
    return s.setX rd ((s.hb.read k).setWidth 32)

/-- HDBITS: the number of data symbols of a block of the given length, for any length up to 65535 (R168). -/
def execHdbits (rd rs1 : XReg) (s : State) : Result :=
  command (.hdbits rd rs1) s do
    let n ← boundedOperand 65535 (s.getX rs1)
    return s.setXNat rd (databits n)

/-- The lowest index of an element of HB that is not a letter (R169, R308). -/
def firstNonLetter (s : State) : Option Nat :=
  (List.range s.hammingLen).find? (fun k => decide (31 < (s.hb.read k).toNat))

/-- HST: store the block into LA at an offset (R169). The range check is on the exact sum. -/
def execHst (rs1 : XReg) (s : State) : Result :=
  command (.hst rs1) s do
    let n ← sizedOperand s
    let off := (s.getX rs1).toNat
    raiseIf (n < off + s.hammingLen) .indexRange (off + s.hammingLen)
    match firstNonLetter s with
    | some k => .error ⟨.badOperand, k⟩
    | none => return { s with la := s.la.fill off s.hammingLen (fun k => (s.hb.read k).setWidth 5) }

end Sys2Proof.Machine
end

