-- ==== Sys2Proof/Machine/F31.lean ====
section
/-! DEFINITION. The F31 scalar commands F31ADD, F31SUB, F31MUL, F31DIV (41_f31.md R120 to R125). Addition, subtraction and
multiplication of `F31` are those of the integers mod 31. -/

namespace Sys2Proof.Machine

/-- `inv(b) = b^29 mod 31`, the multiplicative inverse of a nonzero `b` (R120). -/
def f31Inv (b : F31) : F31 := ⟨b.val ^ 29 % 31, Nat.mod_lt _ (by decide)⟩

/-- F31ADD: sum mod 31 (R122). -/
def execF31add (rd rs1 rs2 : XReg) (s : State) : Result :=
  command (.f31add rd rs1 rs2) s do
    let a ← int31Operand (s.getX rs1)
    let b ← int31Operand (s.getX rs2)
    return s.setXNat rd (a + b).val

/-- F31SUB: difference mod 31 (R123). -/
def execF31sub (rd rs1 rs2 : XReg) (s : State) : Result :=
  command (.f31sub rd rs1 rs2) s do
    let a ← int31Operand (s.getX rs1)
    let b ← int31Operand (s.getX rs2)
    return s.setXNat rd (a - b).val

/-- F31MUL: product mod 31 (R124). -/
def execF31mul (rd rs1 rs2 : XReg) (s : State) : Result :=
  command (.f31mul rd rs1 rs2) s do
    let a ← int31Operand (s.getX rs1)
    let b ← int31Operand (s.getX rs2)
    return s.setXNat rd (a * b).val

/-- F31DIV: quotient mod 31; the zero divisor is checked after both ranges, and FINFO is the dividend (R125, R308). -/
def execF31div (rd rs1 rs2 : XReg) (s : State) : Result :=
  command (.f31div rd rs1 rs2) s do
    let a ← int31Operand (s.getX rs1)
    let b ← int31Operand (s.getX rs2)
    raiseIf (b = 0) .divisionByZero a.val
    return s.setXNat rd (a * f31Inv b).val

end Sys2Proof.Machine
end

