-- ==== Sys2Proof/Machine/Poly.lean ====
section
/-! DEFINITION. The Poly31 registers: polynomial arithmetic over F31 and PZERO, PSETC, PGETC, PEVAL, PSHIFT, PADD, PMUL, PSCALE,
PICPT, PIMP (41_f31.md R130 to R141). -/

namespace Sys2Proof.Machine

/-! ## Polynomials of degree at most 29 (R130) -/

/-- The polynomial whose coefficient of X^k is `f k`, k in 0..29 (R13). -/
def polyOf (f : Nat → F31) : Poly31 := Vector.ofFn (fun k => f k.val)

/-- The coefficient of X^k; 0 above X^29 (R13). -/
def coeff (q : Poly31) (k : Nat) : F31 := if h : k < 30 then q[k] else 0

/-- The value at the point `t` by Horner's scheme, from X^29 down to X^0 (R135). -/
def polyEval (q : Poly31) (t : F31) : F31 :=
  (List.range 30).reverse.foldl (fun acc k => acc * t + coeff q k) 0

/-- `r[k]`, the coefficient of X^k of the exact product, k in 0..58 (R138). -/
def productCoeff (q r : Poly31) (k : Nat) : F31 :=
  ((List.range (k + 1)).map (fun i => coeff q i * coeff r (k - i))).sum

/-- The largest k above 29 at which the exact product has a nonzero coefficient, if there is one (R138). -/
def productOverflow (q r : Poly31) : Option Nat :=
  (List.range' 30 29).reverse.find? (fun k => decide (productCoeff q r k ≠ 0))

/-- Every coefficient times `c` (R139). -/
def polyScale (q : Poly31) (c : F31) : Poly31 := polyOf (fun k => coeff q k * c)

/-- `q * (X - i)`, for a product of degree at most 29 (R140, R141). -/
def timesInterceptor (q : Poly31) (i : F31) : Poly31 :=
  polyOf (fun k => (if k = 0 then 0 else coeff q (k - 1)) - i * coeff q k)

/-- The set S of R141: the points of the mask other than `t`, ascending. -/
def impulsePoints (mask : Word) (t : F31) : List F31 :=
  (List.finRange 31).filter (fun i => mask.getLsbD i.val && decide (i ≠ t))

/-- `q` of R141: the product of `X - i` over the points; the constant 1 for no point. -/
def interceptorProduct (points : List F31) : Poly31 :=
  points.foldl timesInterceptor (polyOf (fun k => if k = 0 then 1 else 0))

/-- `v` of R141: the value of that product at `t`. -/
def interceptorValue (points : List F31) (t : F31) : F31 :=
  points.foldl (fun v i => v * (t - i)) 1

/-- The impulse polynomial of R141. -/
def impulse (points : List F31) (t : F31) : Poly31 :=
  polyScale (interceptorProduct points) (f31Inv (interceptorValue points t))

/-! ## Commands -/

/-- PZERO: the zero polynomial (R132). -/
def execPzero (pd : PReg) (s : State) : Result :=
  command (.pzero pd) s (.ok (s.setP pd (polyOf (fun _ => 0))))

/-- PSETC: set one coefficient; the other 29 keep their value (R133). -/
def execPsetc (pd : PReg) (rs1 rs2 : XReg) (s : State) : Result :=
  command (.psetc pd rs1 rs2) s do
    let k ← boundedOperand 29 (s.getX rs1)
    let v ← int31Operand (s.getX rs2)
    return s.setP pd (polyOf (fun j => if j = k then v else coeff (s.getP pd) j))

/-- PGETC: read one coefficient (R134). -/
def execPgetc (rd : XReg) (ps1 : PReg) (rs2 : XReg) (s : State) : Result :=
  command (.pgetc rd ps1 rs2) s do
    let k ← boundedOperand 29 (s.getX rs2)
    return s.setXNat rd (coeff (s.getP ps1) k).val

/-- PEVAL: evaluate at a point (R135). -/
def execPeval (rd : XReg) (ps1 : PReg) (rs2 : XReg) (s : State) : Result :=
  command (.peval rd ps1 rs2) s do
    let t ← int31Operand (s.getX rs2)
    return s.setXNat rd (polyEval (s.getP ps1) t).val

/-- PSHIFT: multiply by X; a nonzero top coefficient overflows (R136). -/
def execPshift (pd ps1 : PReg) (s : State) : Result :=
  command (.pshift pd ps1) s do
    raiseIf (coeff (s.getP ps1) 29 ≠ 0) .polyOverflow 30
    return s.setP pd (polyOf (fun k => if k = 0 then 0 else coeff (s.getP ps1) (k - 1)))

/-- PADD: coefficient-wise sum (R137). -/
def execPadd (pd ps1 ps2 : PReg) (s : State) : Result :=
  command (.padd pd ps1 ps2) s (.ok (s.setP pd (polyOf (fun k => coeff (s.getP ps1) k + coeff (s.getP ps2) k))))

/-- PMUL: exact product; a nonzero coefficient above X^29 overflows, with the degree of the product in FINFO (R138). -/
def execPmul (pd ps1 ps2 : PReg) (s : State) : Result :=
  command (.pmul pd ps1 ps2) s
    (match productOverflow (s.getP ps1) (s.getP ps2) with
     | some k => .error ⟨.polyOverflow, k⟩
     | none => .ok (s.setP pd (polyOf (productCoeff (s.getP ps1) (s.getP ps2)))))

/-- PSCALE: every coefficient times a scalar (R139). -/
def execPscale (pd ps1 : PReg) (rs2 : XReg) (s : State) : Result :=
  command (.pscale pd ps1 rs2) s do
    let c ← int31Operand (s.getX rs2)
    return s.setP pd (polyScale (s.getP ps1) c)

/-- PICPT: the interceptor X - i (R140). -/
def execPicpt (pd : PReg) (rs1 : XReg) (s : State) : Result :=
  command (.picpt pd rs1) s do
    let i ← int31Operand (s.getX rs1)
    return s.setP pd (polyOf (fun k => if k = 0 then -i else if k = 1 then 1 else 0))

/-- PIMP: the impulse polynomial of the mask at the point t; the mask's bit 31, then the point, then the number of points is
checked (R141, R308). -/
def execPimp (pd : PReg) (rs1 rs2 : XReg) (s : State) : Result :=
  command (.pimp pd rs1 rs2) s do
    let mask := s.getX rs1
    raiseIf (mask.getLsbD 31 = true) .badOperand mask.toNat
    let t ← int31Operand (s.getX rs2)
    raiseIf (29 < (impulsePoints mask t).length) .polyOverflow (impulsePoints mask t).length
    return s.setP pd (impulse (impulsePoints mask t) t)

end Sys2Proof.Machine
end

