-- ==== Sys2Proof/Machine/Propagate.lean ====
section
/-! DEFINITION. The soft-decision decoder: HPROP, one round of flooding belief propagation in exact rational arithmetic, and its
quantiser (42_hamming.md R170 to R172). -/

namespace Sys2Proof.Machine

/-- The 1-based positions of a block of length `len` (R160). -/
def positions (len : Nat) : List Nat := List.range' 1 len

/-- The largest magnitude in a list; 0 for the empty list (R170, `M` and `B`). -/
def maxMagnitude (l : List Rat) : Rat := l.foldl (fun m r => max m |r|) 0

/-- `r / m` if `m > 0`, else 0 (R170). -/
def normalise (m r : Rat) : Rat := if 0 < m then r / m else 0

/-- `p[j] = s8(HB[j-1]) / 127`, the prior of position j (R10, R170). -/
def prior (hb : Memory 8) (j : Nat) : Rat := ((hb.read (j - 1)).toInt : Rat) / 127

/-- `S[k]`, the product of the priors of the positions that take part in check `2^k` (R170). -/
def syndrome (p : Nat → Rat) (len k : Nat) : Rat :=
  (((positions len).filter (fun j => j.testBit k)).map p).prod

/-- All syndromes `S[0] .. S[K-1]`, K = bitlen(L) (R170). -/
def syndromes (p : Nat → Rat) (len : Nat) : List Rat := (List.range (bitlen len)).map (syndrome p len)

/-- The syndromes divided by the largest magnitude among them: `s[0] .. s[K-1]` (R170). -/
def normalisedSyndromes (p : Nat → Rat) (len : Nat) : List Rat :=
  (syndromes p len).map (normalise (maxMagnitude (syndromes p len)))

/-- `sigma(j,k)`: -1 when position j takes part in check `2^k`, else +1 (R170, R172). -/
def checkSign (j k : Nat) : Rat := if j.testBit k then -1 else 1

/-- `E[j]`, the product over the checks of `(1 + sigma(j,k) * s[k]) / 2` (R170). -/
def errorBelief (s : List Rat) (j : Nat) : Rat :=
  ((List.range s.length).map (fun k => (1 + checkSign j k * s.getD k 0) / 2)).prod

/-- `b[j] = (1 - 2 * E[j]) * p[j]` (R170). -/
def belief (p : Nat → Rat) (s : List Rat) (j : Nat) : Rat := (1 - 2 * errorBelief s j) * p j

/-- All beliefs `b[1] .. b[L]` (R170). -/
def beliefs (p : Nat → Rat) (len : Nat) : List Rat :=
  (positions len).map (belief p (normalisedSyndromes p len))

/-- The beliefs divided by the largest magnitude among them: `r[1] .. r[L]` (R170). -/
def normalisedBeliefs (p : Nat → Rat) (len : Nat) : List Rat :=
  (beliefs p len).map (normalise (maxMagnitude (beliefs p len)))

/-- The largest q, at most `top`, with `(2q - 1)^3 <= 254^3 * a` (R171); 0 always meets it for `a >= 0`. -/
def quantiseMagnitude (a : Rat) : Nat → Nat
  | 0 => 0
  | q + 1 => if (2 * ((q : Rat) + 1) - 1) ^ 3 ≤ 254 ^ 3 * a then q + 1 else quantiseMagnitude a q

/-- The quantiser Q: the integer nearest to `127 * cbrt(r)`, ties away from zero, in its exact form (R171, log 6). -/
def quantise (r : Rat) : Int :=
  if r = 0 then 0
  else if 0 < r then (quantiseMagnitude |r| 127 : Int)
  else -(quantiseMagnitude |r| 127 : Int)

/-- The lowest index of an element of HB that is the pattern 0x80 (R170, R308). -/
def firstNonSoftBit (s : State) : Option Nat :=
  (List.range s.hammingLen).find? (fun k => decide (s.hb.read k = 0x80))

/-- HPROP: one round of belief propagation on the block, in place; every value is computed from the values HB held before
(R170). The length is checked before the elements (R308). -/
def execHprop (s : State) : Result :=
  command .hprop s do
    let len := s.hammingLen
    raiseIf (len < 3 ∨ isPow2 len = true) .badBlockLength len
    match firstNonSoftBit s with
    | some k => .error ⟨.badOperand, k⟩
    | none =>
      let r := normalisedBeliefs (prior s.hb) len
      return { s with hb := s.hb.fill 0 len (fun k => BitVec.ofInt 8 (quantise (r.getD k 0))) }

end Sys2Proof.Machine
end

