-- ==== Sys2Proof/Machine/System.lean ====
section
/-! DEFINITION. The system commands LI, LIH, RD, CSRR, CSRW and the control and status registers (45_system.md R251 to R255,
10_state.md R26 to R31). -/

namespace Sys2Proof.Machine

/-- The value of a CSR, or nothing for a number that is not implemented (R26). -/
def csrRead (s : State) (csr : CsrNum) : Option Word :=
  match csr.toNat with
  | 0x000 => some (s.nlet.setWidth 32)
  | 0x001 => some (s.ccmult.setWidth 32)
  | 0x002 => some (s.ccbase.setWidth 32)
  | 0x010 => some (s.hlen.setWidth 32)
  | 0x020 => some s.fstatWord
  | 0x021 => some s.fcause
  | 0x022 => some s.fcmd
  | 0x023 => some s.finfo
  | 0xF00 => some 0x50434501
  | 0xF01 => some (s.cfg.nmax.setWidth 32)
  | 0xF02 => some (s.cfg.hcap.setWidth 32)
  | _ => none

/-- The writable CSRs: the largest legal value of each, and the state after writing it. Nothing for a number that is
unimplemented or read-only (R26, R27, R28, R255). -/
def csrWritable (s : State) (csr : CsrNum) : Option (Nat × (Half → State)) :=
  match csr.toNat with
  | 0x000 => some (s.cfg.nmax.toNat, fun v => { s with nlet := v })
  | 0x001 => some (65535, fun v => { s with ccmult := v })
  | 0x002 => some (65535, fun v => { s with ccbase := v })
  | _ => none

/-- LI: load a zero-extended immediate (R251). -/
def execLi (rd : XReg) (imm16 : Half) (s : State) : Result :=
  command (.li rd imm16) s (.ok (s.setX rd (imm16.setWidth 32)))

/-- LIH: replace bits 31:16 by the immediate, keep bits 15:0 (R252). -/
def execLih (rd : XReg) (imm16 : Half) (s : State) : Result :=
  command (.lih rd imm16) s (.ok (s.setX rd (imm16 ++ (s.getX rd).extractLsb' 0 16)))

/-- RD: append a register to OUT; it runs in the faulted state too (R253, R306). -/
def execRd (rs1 : XReg) (s : State) : Result :=
  commandAlways (.rd rs1) s (.ok (s.emit (s.getX rs1)))

/-- CSRR: read a CSR; an unimplemented number is an illegal command. It runs in the faulted state too (R254, R306). -/
def execCsrr (rd : XReg) (csr : CsrNum) (s : State) : Result :=
  commandAlways (.csrr rd csr) s
    (match csrRead s csr with
     | some v => .ok (s.setX rd v)
     | none => .error ⟨.illegalCommand, csr.toNat⟩)

/-- CSRW: write a CSR; the number is checked before the value (R255, R308). A write changes the CSR and nothing else. -/
def execCsrw (csr : CsrNum) (rs1 : XReg) (s : State) : Result :=
  command (.csrw csr rs1) s
    (match csrWritable s csr with
     | none => .error ⟨.illegalCommand, csr.toNat⟩
     | some (top, write) => do
       let v ← boundedOperand top (s.getX rs1)
       return write (BitVec.ofNat 16 v))

end Sys2Proof.Machine
end

