-- ==== Sys2Proof/Machine/Whitening.lean ====
section
/-! DEFINITION. Keyed permutation whitening and odd-number arithmetic: WHITEN, UNWHITEN, WHITENB, UNWHITENB, ODDMUL, ODDDIV
(44_whitening.md R220 to R231). -/

namespace Sys2Proof.Machine

/-- `BP` for one permutation: the letter whose bit `pi(b)` is bit `b` of `l` (R223). -/
def permuteBits (pi : BitPerm) (l : Letter) : Letter :=
  (List.finRange 5).foldl (fun r b => if l.getLsbD b.val then r ||| (1#5 <<< (pi.get b).val) else r) 0

/-- The permutation an index selects: entry `idx mod 26` of PERM (R220). -/
def selectedPerm (c : Config) (idx : Nat) : BitPerm := c.perm.get ⟨idx % 26, Nat.mod_lt _ (by decide)⟩

/-- The XOR key of an index: `(idx mod 31) + 1`, in 1..31 (R220). -/
def whitenKey (idx : Nat) : Letter := BitVec.ofNat 5 (idx % 31 + 1)

/-- `whiten(l, idx)`: permute, then XOR (R220). -/
def whiten (c : Config) (l : Letter) (idx : Nat) : Letter := permuteBits (selectedPerm c idx) l ^^^ whitenKey idx

/-- `unwhiten(w, idx)`: XOR, then permute (R220). -/
def unwhiten (c : Config) (l : Letter) (idx : Nat) : Letter := permuteBits (selectedPerm c idx) (l ^^^ whitenKey idx)

/-- `oddmul(a, b) = (2ab + a + b) mod 32` (R228). -/
def oddmul (a b : Letter) : Letter := BitVec.ofNat 5 (2 * a.toNat * b.toNat + a.toNat + b.toNat)

/-- ODDINV, 32 letters (R229). -/
def oddInvTable : List Letter :=
  [0, 21, 6, 27, 28, 17, 2, 23, 24, 13, 30, 19, 20, 9, 26, 15, 16, 5, 22, 11, 12, 1, 18, 7, 8, 29, 14, 3, 4, 25, 10, 31]

/-- `odddiv(c, b) = oddmul(c, ODDINV[b])` (R229). -/
def odddiv (c b : Letter) : Letter := oddmul c (oddInvTable.getD b.toNat 0)

/-- WHITEN: whiten one letter by any 32-bit index (R224). -/
def execWhiten (rd rs1 rs2 : XReg) (s : State) : Result :=
  command (.whiten rd rs1 rs2) s do
    let l ← letterOperand (s.getX rs1)
    return s.setXNat rd (whiten s.cfg l (s.getX rs2).toNat).toNat

/-- UNWHITEN: undo WHITEN for the same index (R225). -/
def execUnwhiten (rd rs1 rs2 : XReg) (s : State) : Result :=
  command (.unwhiten rd rs1 rs2) s do
    let w ← letterOperand (s.getX rs1)
    return s.setXNat rd (unwhiten s.cfg w (s.getX rs2).toNat).toNat

/-- WHITENB: whiten every letter of LB by its own index (R226). -/
def execWhitenb (s : State) : Result :=
  command .whitenb s do
    let n ← sizedOperand s
    return { s with lb := s.lb.fill 0 n (fun i => whiten s.cfg (s.lb.read i) i) }

/-- UNWHITENB: unwhiten every letter of LB by its own index (R227). -/
def execUnwhitenb (s : State) : Result :=
  command .unwhitenb s do
    let n ← sizedOperand s
    return { s with lb := s.lb.fill 0 n (fun i => unwhiten s.cfg (s.lb.read i) i) }

/-- ODDMUL (R230). -/
def execOddmul (rd rs1 rs2 : XReg) (s : State) : Result :=
  command (.oddmul rd rs1 rs2) s do
    let a ← letterOperand (s.getX rs1)
    let b ← letterOperand (s.getX rs2)
    return s.setXNat rd (oddmul a b).toNat

/-- ODDDIV: no divisor is refused (R231). -/
def execOdddiv (rd rs1 rs2 : XReg) (s : State) : Result :=
  command (.odddiv rd rs1 rs2) s do
    let c ← letterOperand (s.getX rs1)
    let b ← letterOperand (s.getX rs2)
    return s.setXNat rd (odddiv c b).toNat

end Sys2Proof.Machine
end

