-- ==== Sys2Proof/Machine/Dispatch.lean ====
section
/-! DEFINITION. One command: each constructor's meaning. -/

namespace Sys2Proof.Machine

def exec (i : Instr) (s : State) : Host.Outcome State Fault Refusal :=
  match i with
  | .gfmul rd rs1 rs2 => Sys2Proof.Machine.execGfmul rd rs1 rs2 s
  | .gfinv rd rs1 => Sys2Proof.Machine.execGfinv rd rs1 s
  | .gfexp rd rs1 => Sys2Proof.Machine.execGfexp rd rs1 s
  | .gflog rd rs1 => Sys2Proof.Machine.execGflog rd rs1 s
  | .f31add rd rs1 rs2 => Sys2Proof.Machine.execF31add rd rs1 rs2 s
  | .f31sub rd rs1 rs2 => Sys2Proof.Machine.execF31sub rd rs1 rs2 s
  | .f31mul rd rs1 rs2 => Sys2Proof.Machine.execF31mul rd rs1 rs2 s
  | .f31div rd rs1 rs2 => Sys2Proof.Machine.execF31div rd rs1 rs2 s
  | .pzero pd => Sys2Proof.Machine.execPzero pd s
  | .psetc pd rs1 rs2 => Sys2Proof.Machine.execPsetc pd rs1 rs2 s
  | .pgetc rd ps1 rs2 => Sys2Proof.Machine.execPgetc rd ps1 rs2 s
  | .peval rd ps1 rs2 => Sys2Proof.Machine.execPeval rd ps1 rs2 s
  | .pshift pd ps1 => Sys2Proof.Machine.execPshift pd ps1 s
  | .padd pd ps1 ps2 => Sys2Proof.Machine.execPadd pd ps1 ps2 s
  | .pmul pd ps1 ps2 => Sys2Proof.Machine.execPmul pd ps1 ps2 s
  | .pscale pd ps1 rs2 => Sys2Proof.Machine.execPscale pd ps1 rs2 s
  | .picpt pd rs1 => Sys2Proof.Machine.execPicpt pd rs1 s
  | .pimp pd rs1 rs2 => Sys2Proof.Machine.execPimp pd rs1 rs2 s
  | .hclr => Sys2Proof.Machine.execHclr s
  | .hpush rs1 => Sys2Proof.Machine.execHpush rs1 s
  | .happ rs1 => Sys2Proof.Machine.execHapp rs1 s
  | .hget rd rs1 => Sys2Proof.Machine.execHget rd rs1 s
  | .hprop => Sys2Proof.Machine.execHprop s
  | .hdbits rd rs1 => Sys2Proof.Machine.execHdbits rd rs1 s
  | .hst rs1 => Sys2Proof.Machine.execHst rs1 s
  | .lda rd rs1 => Sys2Proof.Machine.execLda rd rs1 s
  | .sta rs1 rs2 => Sys2Proof.Machine.execSta rs1 rs2 s
  | .ldb rd rs1 => Sys2Proof.Machine.execLdb rd rs1 s
  | .stb rs1 rs2 => Sys2Proof.Machine.execStb rs1 rs2 s
  | .xcross => Sys2Proof.Machine.execXcross s
  | .xuncross => Sys2Proof.Machine.execXuncross s
  | .ccaddr rd rs1 rs2 => Sys2Proof.Machine.execCcaddr rd rs1 rs2 s
  | .whiten rd rs1 rs2 => Sys2Proof.Machine.execWhiten rd rs1 rs2 s
  | .unwhiten rd rs1 rs2 => Sys2Proof.Machine.execUnwhiten rd rs1 rs2 s
  | .whitenb => Sys2Proof.Machine.execWhitenb s
  | .unwhitenb => Sys2Proof.Machine.execUnwhitenb s
  | .oddmul rd rs1 rs2 => Sys2Proof.Machine.execOddmul rd rs1 rs2 s
  | .odddiv rd rs1 rs2 => Sys2Proof.Machine.execOdddiv rd rs1 rs2 s
  | .li rd imm16 => Sys2Proof.Machine.execLi rd imm16 s
  | .lih rd imm16 => Sys2Proof.Machine.execLih rd imm16 s
  | .rd rs1 => Sys2Proof.Machine.execRd rs1 s
  | .csrr rd csr => Sys2Proof.Machine.execCsrr rd csr s
  | .csrw csr rs1 => Sys2Proof.Machine.execCsrw csr rs1 s

end Sys2Proof.Machine
end

