-- ==== Sys2Proof/Machine/Step.lean ====
section
/-! DEFINITION. One step of the engine: the oldest input the host has presented is taken and acted on (10_state.md R21, R24). -/

namespace Sys2Proof.Machine

/-- One step: idle, a reset event, a command, or a word that is no command. -/
def step (s : State) : Host.Outcome State Fault Refusal :=
  match nextEvent s with
  | .idle => .next s
  | .reset t => .next t
  | .word w t =>
    match decode w with
    | .ok i => exec i t
    | .error _ => .next (illegalWord w t)

/-- `s` with the instruction of the given table bits presented as the next command word (log 2). -/
def State.withFetchWord (s : State) (nbits w : Nat) : State :=
  presentFirst (BitVec.ofNat 32 (w % 2 ^ nbits)) s

end Sys2Proof.Machine
end

