-- ==== Sys2Proof/Machine/HostReference.lean ====
section
/-! DEFINITION. What the host computes and supplies, as far as the spec fixes it (47_host_reference.md, 30_encoding.md R79 and R80).
None of it is engine hardware (R5, R270): no meaning uses it, and the engine never checks that its inputs came from it. -/

namespace Sys2Proof.Machine

/-! ## Symbol size and block plan -/

/-- `ndataLetters(size)`, the value the host writes to NLET; given for sizes from 2 on (R271). -/
def ndataLetters (size : Nat) : Option Nat :=
  if size < 2 then none
  else
    let nTotal := 3 * size * (size + 1) + 1
    some (nTotal - if 2883 < nTotal then 7 else 6)

/-- The length of a complete Hamming block: at least 3, never a power of two (R160, R273). -/
abbrev LegalBlockLength (len : Nat) : Prop := 3 ≤ len ∧ isPow2 len = false

/-- The capacity of a block plan in data letters (R273, `nDataCheck`). -/
def planCapacity (plan : List Nat) : Nat := (plan.map databits).sum

/-- A block plan the host may use for `n` letters and `nData` data letters (R273). -/
abbrev LegalPlan (n nData : Nat) (plan : List Nat) : Prop :=
  (∀ len ∈ plan, LegalBlockLength len) ∧ plan.sum = n ∧ plan.length ≤ 31 ^ 3 ∧ nData ≤ planCapacity plan

/-! ## The criss-cross factor, in the reading of R277 -/

/-- The powers of a multiplier: how many steps `k <- k*i mod n` takes from `k` until k is 1 or n-1, if at most `fuel` (R277). -/
def stepsToUnit (n i : Nat) : Nat → Nat → Option Nat
  | 0, _ => none
  | fuel + 1, k =>
    let k := k * i % n
    if k = 1 ∨ k + 1 = n then some 1 else (stepsToUnit n i fuel k).map (· + 1)

/-- The least r with `r^5 >= n` (R276, R277). -/
def fifthRootUp (n : Nat) : Nat := ((List.range (n + 1)).find? (fun r => decide (n ≤ r ^ 5))).getD 0

/-- The multiplier of R277: of the candidates in ascending order, the first of the least count of steps that is at least 5. -/
def factorMult (n : Nat) : Option Nat :=
  let start := max 2 (fifthRootUp n)
  ((List.range' start (n - start)).foldl
    (fun best i =>
      if i.gcd n ≠ 1 ∨ best.1 = 5 then best
      else match stepsToUnit n i best.1 1 with
        | some c => if 5 ≤ c ∧ c < best.1 then (c, some i) else best
        | none => best)
    (n + 1, none)).2

/-- `d(b)` of R277: the least circular distance of the five terms from 0. -/
def factorDistance (n mult b : Nat) : Nat :=
  (List.range 5).foldl (fun d j => min d (min (b * mult ^ j % n) (n - b * mult ^ j % n))) n

/-- The base of R277: the first residue coprime to n whose distance is greater than that of all before it. -/
def factorBase (n mult : Nat) : Option Nat :=
  ((List.range' 1 (n - 1)).foldl
    (fun best b =>
      if b.gcd n ≠ 1 then best
      else if best.1 < factorDistance n mult b then (factorDistance n mult b, some b) else best)
    (0, none)).2

/-- `crissCrossFactor(n)` in the reading of R277, which is not shown to be the original software's. -/
def crissCrossFactor (n : Nat) : Option (Nat × Nat) := do
  let mult ← factorMult n
  let base ← factorBase n mult
  return (mult, base)

/-! ## Letters and soft bits -/

/-- The character a letter prints as (R280). -/
def letterChar (l : Letter) : Char := Char.ofNat (64 + l.toNat)

/-- The hard decision on a soft bit: above 0 the bit 0, below 0 the bit 1, exactly 0 unknown (R174). -/
def hardDecision (v : Int) : Option Bool := if v = 0 then none else some (decide (v < 0))

/-! ## Pseudo-commands and command sequences -/

/-- `LI32 rd, imm32` (R80). -/
def pseudoLi32 (rd : XReg) (imm32 : Word) : List Instr :=
  [.li rd (imm32.extractLsb' 0 16), .lih rd (imm32.extractLsb' 16 16)]

/-- `HSETCODE v0, v1, ..., vk` via register `rt` (R80). -/
def pseudoHsetcode (rt : XReg) (vs : List Byte) : List Instr :=
  .hclr :: vs.flatMap (fun v => [.li rt (v.setWidth 16), .happ rt])

/-- The CSR writes that begin R284 and R285. -/
def setupSequence (n mult base : Half) : List Instr :=
  [.li 1 n, .csrw 0x000 1, .li 1 mult, .csrw 0x001 1, .li 1 base, .csrw 0x002 1]

/-- One block of R284 step 2: HCLR, HPUSH of its letters, HST at its offset. -/
def blockSequence (off : Nat) (letters : List Letter) : List Instr :=
  .hclr :: letters.flatMap (fun l => [.li 1 (l.setWidth 16), .hpush 1]) ++ [.li 1 (BitVec.ofNat 16 off), .hst 1]

/-- The blocks of R284 step 2 from offset `off` on; each takes its `databits(len)` letters in order. -/
def planSequence : Nat → List Nat → List Letter → List Instr
  | _, [], _ => []
  | off, len :: plan, letters =>
    blockSequence off (letters.take (databits len)) ++ planSequence (off + len) plan (letters.drop (databits len))

/-- `setDataCheck` as commands: R284 steps 1 to 5. -/
def encodeSequence (n mult base : Half) (plan : List Nat) (letters : List Letter) : List Instr :=
  setupSequence n mult base ++ planSequence 0 plan letters ++ [.xcross, .whitenb] ++
    (List.range n.toNat).flatMap (fun i => [.li 1 (BitVec.ofNat 16 i), .ldb 2 1, .rd 2])

/-- Hard-decision decode as commands (R285); `letters` are the received letters, index 0 first. -/
def decodeSequence (n mult base : Half) (letters : List Letter) : List Instr :=
  setupSequence n mult base ++
    ((List.range letters.length).zip letters).flatMap
      (fun il => [.li 1 (BitVec.ofNat 16 il.1), .li 2 (il.2.setWidth 16), .stb 1 2]) ++
    [.unwhitenb, .xuncross] ++
    (List.range n.toNat).flatMap (fun i => [.li 1 (BitVec.ofNat 16 i), .lda 2 1, .rd 2])

/-- Lagrange interpolation in `p0` from the primitives: one PIMP, one PSCALE and one PADD per point, starting from PZERO; `points`
are pairs of a point of the mask and its value (R142). -/
def interpolateSequence (mask : Word) (points : List (F31 × F31)) : List Instr :=
  .pzero 0 :: pseudoLi32 1 mask ++ points.flatMap (fun iy =>
    [.li 2 (BitVec.ofNat 16 iy.1.val), .li 3 (BitVec.ofNat 16 iy.2.val), .pimp 1 1 2, .pscale 1 1 3, .padd 0 0 1])

/-! ## Assembler syntax (R79) -/

/-- The name of an operand register. -/
def xText (r : XReg) : String := "x" ++ toString r.toNat

/-- The name of a polynomial register. -/
def pText (r : PReg) : String := "p" ++ toString r.toNat

/-- A CSR operand: its name from R26, or its number. -/
def csrText (c : CsrNum) : String :=
  match c.toNat with
  | 0x000 => "NLET"
  | 0x001 => "CCMULT"
  | 0x002 => "CCBASE"
  | 0x010 => "HLEN"
  | 0x020 => "FSTAT"
  | 0x021 => "FCAUSE"
  | 0x022 => "FCMD"
  | 0x023 => "FINFO"
  | 0xF00 => "ENGID"
  | 0xF01 => "CAPN"
  | 0xF02 => "CAPH"
  | n => toString n

/-- The operands of a command as text, in the order of R75's second column. -/
def operandTexts : Instr → List String
  | .gfmul rd rs1 rs2 | .f31add rd rs1 rs2 | .f31sub rd rs1 rs2 | .f31mul rd rs1 rs2 | .f31div rd rs1 rs2
  | .ccaddr rd rs1 rs2 | .whiten rd rs1 rs2 | .unwhiten rd rs1 rs2 | .oddmul rd rs1 rs2 | .odddiv rd rs1 rs2 =>
    [xText rd, xText rs1, xText rs2]
  | .gfinv rd rs1 | .gfexp rd rs1 | .gflog rd rs1 | .hget rd rs1 | .hdbits rd rs1 | .lda rd rs1 | .ldb rd rs1 =>
    [xText rd, xText rs1]
  | .sta rs1 rs2 | .stb rs1 rs2 => [xText rs1, xText rs2]
  | .hpush rs1 | .happ rs1 | .hst rs1 | .rd rs1 => [xText rs1]
  | .hclr | .hprop | .xcross | .xuncross | .whitenb | .unwhitenb => []
  | .pzero pd => [pText pd]
  | .psetc pd rs1 rs2 | .pimp pd rs1 rs2 => [pText pd, xText rs1, xText rs2]
  | .pgetc rd ps1 rs2 | .peval rd ps1 rs2 => [xText rd, pText ps1, xText rs2]
  | .pshift pd ps1 => [pText pd, pText ps1]
  | .padd pd ps1 ps2 | .pmul pd ps1 ps2 => [pText pd, pText ps1, pText ps2]
  | .pscale pd ps1 rs2 => [pText pd, pText ps1, xText rs2]
  | .picpt pd rs1 => [pText pd, xText rs1]
  | .li rd imm | .lih rd imm => [xText rd, toString imm.toNat]
  | .csrr rd csr => [xText rd, csrText csr]
  | .csrw csr rs1 => [csrText csr, xText rs1]

/-- A command as assembler text: `MNEMONIC operand, operand, operand`. -/
def asmText (i : Instr) : String :=
  match operandTexts i with
  | [] => i.mnemonic
  | ops => i.mnemonic ++ " " ++ ", ".intercalate ops

end Sys2Proof.Machine
end

