-- ==== Sys2Proof/Safety.lean ====
section
/-! DEFINITION. The terms statements use: a good run, the invariant of the engine, what a command answers, what a fault leaves,
what a command leaves alone, and the spec's own formulas where they differ in form from the meanings. -/

namespace Sys2Proof.Machine

/-! ## Runs and the invariant -/

/-- A state of a run in which no command has faulted (R306, R324). -/
def State.Good (s : State) : Prop := s.fstat = false

/-- The state after `n` steps (R324). -/
def State.after (s : State) : Nat → State
  | 0 => s
  | n + 1 =>
    match step (s.after n) with
    | .next t => t
    | .fault _ => s.after n
    | .refused _ => s.after n

/-- What holds of the engine at all times: the parameters are legal (R8); the memories are canonical and hold nothing at or above
their capacity (R34); HLEN is at most HCAP (R29); NLET is at most NMAX (R27); the fault record is clear while F is 0 and holds
a code of R301 while F is 1 (R31). That a coefficient is in 0..30 (R131) is its type. -/
structure State.Inv (s : State) : Prop where
  cfg_wf : s.cfg.Wf
  hb_wf : s.hb.wf
  la_wf : s.la.wf
  lb_wf : s.lb.wf
  hb_bounded : ∀ c ∈ s.hb, c.1 < s.cfg.hcap.toNat
  la_bounded : ∀ c ∈ s.la, c.1 < s.cfg.nmax.toNat
  lb_bounded : ∀ c ∈ s.lb, c.1 < s.cfg.nmax.toNat
  hlen_le : s.hlen.toNat ≤ s.cfg.hcap.toNat
  nlet_le : s.nlet.toNat ≤ s.cfg.nmax.toNat
  record_clear : s.fstat = false → s.fcause = 0 ∧ s.fcmd = 0 ∧ s.finfo = 0
  record_code : s.fstat = true → 1 ≤ s.fcause.toNat ∧ s.fcause.toNat ≤ 8

/-! ## What a command answers -/

/-- The command answers a next state, and that state meets `post`. -/
def Answers (i : Instr) (s : State) (post : State → Prop) : Prop := ∃ t, exec i s = .next t ∧ post t

/-- The command takes the fault with the given code and information word, and nothing else changes (R305). -/
def TakesFault (i : Instr) (s : State) (code info : Nat) : Prop :=
  exec i s = .next { s with fstat := true, fcause := BitVec.ofNat 32 code, fcmd := encode i, finfo := BitVec.ofNat 32 info }

/-- `x[rd]` now holds `v`; every other register and all other state is as it was. -/
def SetsX (rd : XReg) (v : Word) (s t : State) : Prop :=
  t.getX rd = v ∧ (∀ r, r ≠ rd → t.getX r = s.getX r) ∧ t = { s with x := t.x }

/-- `x[rd]` now holds a value that meets `post`; every other register and all other state is as it was. -/
def SetsXTo (rd : XReg) (post : Word → Prop) (s t : State) : Prop :=
  post (t.getX rd) ∧ (∀ r, r ≠ rd → t.getX r = s.getX r) ∧ t = { s with x := t.x }

/-- `P[pd]` now has the coefficients `c 0 .. c 29`; every other polynomial register and all other state is as it was. -/
def SetsP (pd : PReg) (c : Nat → F31) (s t : State) : Prop :=
  (∀ k, k < 30 → coeff (t.getP pd) k = c k) ∧ (∀ r, r ≠ pd → t.getP r = s.getP r) ∧ t = { s with p := t.p }

/-- HB reads as `e` at every index and HLEN is `n`; all other state is as it was. -/
def SetsHb (n : Nat) (e : Nat → Byte) (s t : State) : Prop :=
  t.hammingLen = n ∧ (∀ k, t.hb.read k = e k) ∧ t = { s with hb := t.hb, hlen := t.hlen }

/-- LA reads as `e` at every index; all other state is as it was. -/
def SetsLa (e : Nat → Letter) (s t : State) : Prop := (∀ k, t.la.read k = e k) ∧ t = { s with la := t.la }

/-- LB reads as `e` at every index; all other state is as it was. -/
def SetsLb (e : Nat → Letter) (s t : State) : Prop := (∀ k, t.lb.read k = e k) ∧ t = { s with lb := t.lb }

/-- The value of an operand register as a number. -/
abbrev State.xv (s : State) (r : XReg) : Nat := (s.getX r).toNat

/-- The registers, polynomials, memories, CSRs, fault record and OUT hold the reset values of R39; `fault` is 0. -/
def State.AtReset (s : State) : Prop :=
  (∀ r, s.getX r = 0) ∧ (∀ r k, coeff (s.getP r) k = 0) ∧ s.hlen = 0 ∧ (∀ k, s.la.read k = 0) ∧ (∀ k, s.lb.read k = 0) ∧
    s.nlet = 0 ∧ s.ccmult = 0 ∧ s.ccbase = 0 ∧ s.fstat = false ∧ s.faultOutput = false ∧ s.fcause = 0 ∧ s.fcmd = 0 ∧
    s.finfo = 0 ∧ s.out = []

/-- The two operand checks of a command on two letters, rs1 first (R106, R230, R231, R308). -/
def ChecksLetters (i : Instr) (s : State) (a b : Nat) : Prop :=
  (31 < a → TakesFault i s 2 a) ∧ (a ≤ 31 → 31 < b → TakesFault i s 2 b)

/-- The two operand checks of a command on two Int31 values, rs1 first (R122, R308). -/
def ChecksInt31s (i : Instr) (s : State) (a b : Nat) : Prop :=
  (30 < a → TakesFault i s 2 a) ∧ (a ≤ 30 → 30 < b → TakesFault i s 2 b)

/-! ## Assembling a command (R75) -/

/-- `op | a << 8 | b << 12 | c << 16`, the assembly of R75. -/
def assembled (op a b c : Nat) : Word := BitVec.ofNat 32 (op ||| a <<< 8 ||| b <<< 12 ||| c <<< 16)

/-- The command's word is the one R75 assembles from its opcode and its three fields. -/
def HasWord (i : Instr) (op a b c : Nat) : Prop := encode i = assembled op a b c

/-! ## The spec's own formulas -/

/-- The faults a command may raise, by code: the last column of R301. A word matching no row is not a command. -/
def faultCodesOf : Instr → List Nat
  | .gfmul .. | .gfinv .. | .gfexp .. | .gflog .. => [2]
  | .f31add .. | .f31sub .. | .f31mul .. => [2]
  | .f31div .. => [2, 3]
  | .pzero .. | .padd .. => []
  | .psetc .. | .pgetc .. | .peval .. | .pscale .. | .picpt .. => [2]
  | .pshift .. | .pmul .. => [4]
  | .pimp .. => [2, 4]
  | .hclr => []
  | .hpush .. | .happ .. => [2, 6]
  | .hget .. => [5]
  | .hprop => [2, 7]
  | .hdbits .. => [2]
  | .hst .. => [2, 5, 8]
  | .lda .. | .ldb .. => [5, 8]
  | .sta .. | .stb .. | .ccaddr .. => [2, 5, 8]
  | .xcross | .xuncross | .whitenb | .unwhitenb => [8]
  | .whiten .. | .unwhiten .. | .oddmul .. | .odddiv .. => [2]
  | .li .. | .lih .. | .rd .. => []
  | .csrr .. => [1]
  | .csrw .. => [1, 2]

/-- The product of two letters as polynomials over GF(2), before reduction: bit i of `a` contributes `b << i` (R100, R104). -/
def shiftXorProduct (a b : Nat) : Nat :=
  (List.range 5).foldl (fun r i => if a.testBit i then r ^^^ (b <<< i) else r) 0

/-- Reduction mod x^5 + x^2 + 1: for bit i = 8 down to 5, if it is set, XOR with `37 << (i - 5)` (R104). -/
def reduceGf32 (v : Nat) : Nat :=
  [8, 7, 6, 5].foldl (fun r i => if r.testBit i then r ^^^ (37 <<< (i - 5)) else r) v

/-- The product of two letters in GF(32), computed from the field's definition (R100). -/
def fieldProduct (a b : Nat) : Nat := reduceGf32 (shiftXorProduct a b)

/-- `x^i` in GF(32), by repeated multiplication by the element x, the letter 2 (R100, R102). -/
def fieldPower : Nat → Nat
  | 0 => 1
  | i + 1 => fieldProduct 2 (fieldPower i)

/-- The value of a polynomial at `t`: the sum of `c_k * t^k`, mod 31 (R13, R120). -/
def specEval (q : Poly31) (t : Nat) : Nat := (∑ k ∈ Finset.range 30, (coeff q k).val * t ^ k) % 31

/-- The coefficient of X^k of the exact product, mod 31 (R138, `r[k]`). -/
def specProduct (q r : Poly31) (k : Nat) : Nat :=
  (∑ i ∈ Finset.range 30, ∑ j ∈ Finset.range 30, if i + j = k then (coeff q i).val * (coeff r j).val else 0) % 31

/-- `d` is the degree of the polynomial: its coefficient of X^d is not 0 and every higher one is (R13). -/
def HasDegree (q : Poly31) (d : Nat) : Prop := coeff q d ≠ 0 ∧ ∀ k, d < k → coeff q k = 0

/-- How many points other than `t` the mask sets (R141, `|S|`). -/
def otherPoints (mask : Word) (t : Nat) : Nat :=
  ((Finset.range 31).filter (fun i => mask.getLsbD i = true ∧ i ≠ t)).card

/-- The five plane primes (R190). -/
def fivePrimes : Fin 5 → Nat := ![2, 3, 5, 7, 11]

/-- `addr(i,j) = (i * ((CCBASE * CCMULT^j) mod N) + prime[j]) mod N` (R190). -/
def State.specAddr (s : State) (i : Nat) (j : Fin 5) : Nat :=
  (i * (s.ccbase.toNat * s.ccmult.toNat ^ (j : Nat) % s.letters) + fivePrimes j) % s.letters

/-- `n` is one of 1, 2, 4, 8, ... (R10). -/
def IsPow2 (n : Nat) : Prop := ∃ m, n = 2 ^ m

/-- Every parity check of the block in HB is satisfied: for every k with `2^k <= HLEN`, every bit of the XOR of the elements at
1-based positions `j <= HLEN` with bit k of j set is 0 (R165). -/
def ParityChecksHold (s : State) : Prop :=
  ∀ k, 2 ^ k ≤ s.hammingLen →
    ((List.range' 1 s.hammingLen).filter (fun j => j.testBit k)).foldl (fun acc j => acc ^^^ s.hb.read (j - 1)) 0#8 = 0#8

/-- The soft bit at 1-based position `j` as an integer (R170, `v[j]`). -/
def State.softBit (s : State) (j : Nat) : Int := (s.hb.read (j - 1)).toInt

/-- HLEN is a length HPROP accepts: at least 3 and not a power of two (R170). -/
def State.LegalBlock (s : State) : Prop := 3 ≤ s.hammingLen ∧ ¬ IsPow2 s.hammingLen

/-- Every element of the block is a certain soft bit: +127 or -127 (R173). -/
def State.CertainBits (s : State) : Prop :=
  ∀ j, 1 ≤ j → j ≤ s.hammingLen → s.softBit j = 127 ∨ s.softBit j = -127

/-- Every parity check of a block of certain bits is satisfied: an even number of the positions of each check hold -127 (R173). -/
def State.CertainChecksHold (s : State) : Prop :=
  ∀ k, 2 ^ k ≤ s.hammingLen →
    ((List.range' 1 s.hammingLen).filter (fun j => j.testBit k && decide (s.softBit j = -127))).length % 2 = 0

/-- The syndrome of check `2^k` in exact rationals (R170, `S[k]`). -/
def State.specSyndrome (s : State) (k : Nat) : Rat :=
  ∏ j ∈ (Finset.Icc 1 s.hammingLen).filter (fun j => j.testBit k = true), (s.softBit j : Rat) / 127

/-- The belief that position `j` alone is in error, for syndromes divided by `m` (R170, `E[j]`). -/
def State.specError (s : State) (m : Rat) (j : Nat) : Rat :=
  ∏ k ∈ Finset.range (Nat.size s.hammingLen),
    (1 + (if j.testBit k then -1 else 1) * (if 0 < m then s.specSyndrome k / m else 0)) / 2

/-- The updated belief of position `j`, for syndromes divided by `m` (R170, `b[j]`). -/
def State.specBelief (s : State) (m : Rat) (j : Nat) : Rat :=
  (1 - 2 * s.specError m j) * ((s.softBit j : Rat) / 127)

/-- `q` is the integer the quantiser maps `r` to: of r's sign, and `127 * cbrt |r|` rounded to nearest, ties away from zero,
in exact form (R171). -/
def QuantisedTo (r : Rat) (q : Int) : Prop :=
  (0 ≤ r → 0 ≤ q) ∧ (r ≤ 0 → q ≤ 0) ∧
    (2 * ((q.natAbs : Nat) : Rat) - 1) ^ 3 ≤ 254 ^ 3 * |r| ∧ 254 ^ 3 * |r| < (2 * ((q.natAbs : Nat) : Rat) + 1) ^ 3

/-- The image of bit position `b` under the permutation an index selects: `pi_t(b)`, t = idx mod 26 (R220, R222). -/
def permutedBit (c : Config) (idx : Nat) (b : Fin 5) : Fin 5 :=
  (c.perm.get ⟨idx % 26, Nat.mod_lt _ (by decide)⟩).get b

/-- `w` is `whiten(l, idx)`, bit by bit: bit b of the permuted letter is bit `pi_t(b)` of `l`, then XOR with the key (R220, R223). -/
def IsWhitened (c : Config) (idx : Nat) (l w : Letter) : Prop :=
  ∀ b : Fin 5, w.getLsbD b = xor (l.getLsbD (permutedBit c idx b)) ((idx % 31 + 1).testBit b)

/-- `l` is `unwhiten(w, idx)`, bit by bit: XOR with the key, then permute (R220, R223). -/
def IsUnwhitened (c : Config) (idx : Nat) (w l : Letter) : Prop :=
  ∀ b : Fin 5, l.getLsbD b =
    xor (w.getLsbD (permutedBit c idx b)) ((idx % 31 + 1).testBit (permutedBit c idx b))

end Sys2Proof.Machine
end

