-- ==== Sys2Proof/Certificates/Slice0/Obligations.lean ====
section
/-! DEFINITION. The statements for the provers. `s.xv r` is the number in operand register `r`; `TakesFault i s code info` is the
fault entry of R305 and nothing else; `Answers i s post` says that the command completes in a next state that meets `post`. -/

open Sys2Proof Sys2Proof.Machine

/-! ## Encoding -/

/-- Decoding the word of any command gives the command back, with every operand (30_encoding.md R71, R75). -/
def Obligations.DecodeInvertsEncode : Prop := ∀ i : Instr, decode (encode i) = .ok i

/-- A word that decodes to a command is the word of that command, so the word FCMD records is the word presented (R75, log 5). -/
def Obligations.EncodeInvertsDecode : Prop := ∀ (w : Word) (i : Instr), decode w = .ok i → encode i = w

/-- A word is the command of a row of R75 exactly when `w & mask = match`. -/
def Obligations.WordIsCommandExactlyWhenItMatches : Prop :=
  ∀ w : Word, ∀ r ∈ opcodeRows, r.Matches w ↔ ∃ i, decode w = .ok i ∧ i.mnemonic = r.mnemonic

/-- The worked encodings of R81, one per format: the assembly, the word, and what the word decodes to. -/
def Obligations.WorkedEncodings : Prop :=
  (encode (.gfmul 3 1 2) = 0x10 ||| 3 <<< 8 ||| 1 <<< 12 ||| 2 <<< 16 ∧ encode (.gfmul 3 1 2) = 0x00021310 ∧
    decode 0x00021310 = .ok (.gfmul 3 1 2)) ∧
  (encode (.li 1 19) = 0x70 ||| 1 <<< 8 ||| 19 <<< 16 ∧ encode (.li 1 19) = 0x00130170 ∧
    decode 0x00130170 = .ok (.li 1 19)) ∧
  (encode (.csrw 0x000 5) = 0x74 ||| 5 <<< 12 ||| 0x000 <<< 16 ∧ encode (.csrw 0x000 5) = 0x00005074 ∧
    decode 0x00005074 = .ok (.csrw 0x000 5)) ∧
  (encode (.csrr 2 0x020) = 0x73 ||| 2 <<< 8 ||| 0x020 <<< 16 ∧ encode (.csrr 2 0x020) = 0x00200273 ∧
    decode 0x00200273 = .ok (.csrr 2 0x020)) ∧
  (encode (.pmul 2 0 1) = 0x36 ||| 2 <<< 8 ||| 0 <<< 12 ||| 1 <<< 16 ∧ encode (.pmul 2 0 1) = 0x00010236 ∧
    decode 0x00010236 = .ok (.pmul 2 0 1))

/-! ## Steps, reset and the invariant -/

/-- A step with a command word waiting that decodes to a command takes the word and runs that command on the state (R21, R250). -/
def Obligations.StepRunsDecodedCommand : Prop :=
  ∀ (s : State) (w : Word) (rest : List HostInput) (i : Instr), s.input = .command w :: rest → decode w = .ok i →
    step s = exec i { s with input := rest }

/-- A step with a word that matches no row of R75 raises IllegalCommand with FINFO = 0 and FCMD the word (R77, R301, R305). -/
def Obligations.StepFaultsOnIllegalWord : Prop :=
  ∀ (s : State) (w : Word) (rest : List HostInput), s.input = .command w :: rest → s.fstat = false →
    (∀ r ∈ opcodeRows, ¬ r.Matches w) →
      step s = .next { s with input := rest, fstat := true, fcause := 1, fcmd := w, finfo := 0 }

/-- The state after reset is that of R39 and R340, for every instance; ENGID, CAPN and CAPH read their constants. The first clause,
that State.reset is the instance with the default parameters of R8, is the model's choice (log 1, DESIGN CHOICE). -/
def Obligations.ResetStateIsTheSpecs : Prop :=
  State.reset = State.resetOf Config.default ∧
    ∀ c : Config, (State.resetOf c).AtReset ∧ csrRead (State.resetOf c) 0xF00 = some 0x50434501 ∧
      csrRead (State.resetOf c) 0xF01 = some (c.nmax.setWidth 32) ∧ csrRead (State.resetOf c) 0xF02 = some (c.hcap.setWidth 32)

/-- Reset brings every state to the state of R39; with no command and no reset nothing changes; nothing but reset clears F
(R340). What waits behind the reset event stays waiting, and the parameters stay. -/
def Obligations.ResetAloneRestoresTheEngine : Prop :=
  (∀ (s : State) (rest : List HostInput), s.input = .reset :: rest →
    ∃ t, step s = .next t ∧ t.AtReset ∧ t.cfg = s.cfg ∧ t.input = rest) ∧
  (∀ s : State, s.input = [] → step s = .next s) ∧
  (∀ s t : State, step s = .next t → s.fstat = true → t.fstat = false → ∃ rest, s.input = .reset :: rest)

/-- The invariant of the engine holds after reset. -/
def Obligations.ResetMeetsTheInvariantOfTheEngine : Prop := State.reset.Inv

/-- Every step from every state that meets the invariant leads to a state that meets it. -/
def Obligations.StepKeepsTheInvariantOfTheEngine : Prop := ∀ s t : State, s.Inv → step s = .next t → t.Inv

/-- The engine has no hang and never stops: every step, and every command in every state, answers a next state (R324). -/
def Obligations.EngineNeverStops : Prop :=
  (∀ s : State, ∃ t, step s = .next t) ∧ ∀ (i : Instr) (s : State), ∃ t, exec i s = .next t

/-- Which commands write what: each piece of state is changed by no other command than those the spec names (R29, R32, R34, R37,
R255); no command changes the parameters (R20) or the waiting input. -/
def Obligations.EachStateHasItsWriters : Prop :=
  ∀ (i : Instr) (s t : State), exec i s = .next t →
    t.cfg = s.cfg ∧ t.input = s.input ∧
    (t.x ≠ s.x → i.mnemonic ∈ ["GFMUL", "GFINV", "GFEXP", "GFLOG", "F31ADD", "F31SUB", "F31MUL", "F31DIV", "PGETC", "PEVAL",
      "HGET", "HDBITS", "LDA", "LDB", "CCADDR", "WHITEN", "UNWHITEN", "ODDMUL", "ODDDIV", "LI", "LIH", "CSRR"]) ∧
    (t.p ≠ s.p → i.mnemonic ∈ ["PZERO", "PSETC", "PSHIFT", "PADD", "PMUL", "PSCALE", "PICPT", "PIMP"]) ∧
    (t.hlen ≠ s.hlen → i.mnemonic ∈ ["HCLR", "HPUSH", "HAPP"]) ∧
    (t.hb ≠ s.hb → i.mnemonic ∈ ["HPUSH", "HAPP", "HPROP"]) ∧
    (t.la ≠ s.la → i.mnemonic ∈ ["STA", "HST", "XUNCROSS"]) ∧
    (t.lb ≠ s.lb → i.mnemonic ∈ ["STB", "XCROSS", "WHITENB", "UNWHITENB"]) ∧
    (t.nlet ≠ s.nlet ∨ t.ccmult ≠ s.ccmult ∨ t.ccbase ≠ s.ccbase → i.mnemonic = "CSRW") ∧
    (t.out ≠ s.out → i.mnemonic = "RD")

/-! ## Faults -/

/-- Faults are precise: a command that ends with F set, from a state where it was clear, has written the fault record, with its own
word in FCMD, and nothing else (R305). -/
def Obligations.FaultsArePrecise : Prop :=
  ∀ (i : Instr) (s t : State), s.fstat = false → exec i s = .next t → t.fstat = true →
    ∃ code info : Nat, 1 ≤ code ∧ code ≤ 8 ∧
      t = { s with fstat := true, fcause := BitVec.ofNat 32 code, fcmd := encode i, finfo := BitVec.ofNat 32 info }

/-- A command raises only the causes that the last column of R301 gives it; the commands of R302 raise none. -/
def Obligations.FaultCodesAreThoseOfTheTable : Prop :=
  ∀ (i : Instr) (s t : State), s.fstat = false → exec i s = .next t → t.fstat = true → t.fcause.toNat ∈ faultCodesOf i

/-- While F is 1 a legal RD runs, a legal CSRR of an implemented CSR runs, and every other word is consumed with no effect (R306). -/
def Obligations.FaultedEngineDiscardsCommands : Prop :=
  ∀ (s : State) (w : Word) (rest : List HostInput), s.fstat = true → s.input = .command w :: rest →
    (∀ rs1, decode w = .ok (.rd rs1) → step s = .next { s with input := rest, out := s.out ++ [s.getX rs1] }) ∧
    (∀ rd csr v, decode w = .ok (.csrr rd csr) → csrRead s csr = some v →
      ∃ t, step s = .next t ∧ SetsX rd v { s with input := rest } t) ∧
    ((∀ rs1, decode w ≠ .ok (.rd rs1)) → (∀ rd csr v, decode w = .ok (.csrr rd csr) → csrRead s csr ≠ some v) →
      step s = .next { s with input := rest })

/-- The first fault wins: a CSRR of an unimplemented CSR while F is 1 writes nothing, and until reset no step changes F or the
record of the first fault (R307, R31). -/
def Obligations.FirstFaultWins : Prop :=
  (∀ (rd : XReg) (csr : CsrNum) (s : State), s.fstat = true → csrRead s csr = none → exec (.csrr rd csr) s = .next s) ∧
  (∀ s t : State, s.fstat = true → (∀ rest, s.input ≠ .reset :: rest) → step s = .next t →
    t.fstat = true ∧ t.fcause = s.fcause ∧ t.fcmd = s.fcmd ∧ t.finfo = s.finfo)

/-- F is sticky: if F is 0 at the end of a run without a reset, F was 0 after every step of it, so no command of the run faulted
(R306, R324). -/
def Obligations.GoodEndMeansNoFault : Prop :=
  ∀ (s : State) (n : Nat), (∀ m, m < n → ∀ rest, (s.after m).input ≠ .reset :: rest) → (s.after n).Good →
    ∀ m, m ≤ n → (s.after m).Good

/-! ## GF(32) -/

/-- GFMUL is the product in GF(32), computed here by shift, XOR and reduction (R106). -/
def Obligations.GfmulIsTheFieldProduct : Prop :=
  ∀ (rd rs1 rs2 : XReg) (s : State), s.fstat = false →
    HasWord (.gfmul rd rs1 rs2) 0x10 rd.toNat rs1.toNat rs2.toNat ∧
    ChecksLetters (.gfmul rd rs1 rs2) s (s.xv rs1) (s.xv rs2) ∧
    (s.xv rs1 ≤ 31 → s.xv rs2 ≤ 31 →
      Answers (.gfmul rd rs1 rs2) s (SetsX rd (BitVec.ofNat 32 (fieldProduct (s.xv rs1) (s.xv rs2))) s))

/-- GFINV gives 0 for 0 and, for any other letter, the letter whose product with it is 1 (R107). -/
def Obligations.GfinvIsTheFieldInverse : Prop :=
  ∀ (rd rs1 : XReg) (s : State), s.fstat = false →
    HasWord (.gfinv rd rs1) 0x11 rd.toNat rs1.toNat 0 ∧
    (31 < s.xv rs1 → TakesFault (.gfinv rd rs1) s 2 (s.xv rs1)) ∧
    (s.xv rs1 ≤ 31 → Answers (.gfinv rd rs1) s (SetsXTo rd (fun v => v.toNat ≤ 31 ∧ (s.xv rs1 = 0 → v = 0) ∧
      (s.xv rs1 ≠ 0 → fieldProduct (s.xv rs1) v.toNat = 1)) s))

/-- GFEXP gives the power of the element x, for an exponent up to 30 (R108). -/
def Obligations.GfexpIsThePowerOfX : Prop :=
  ∀ (rd rs1 : XReg) (s : State), s.fstat = false →
    HasWord (.gfexp rd rs1) 0x12 rd.toNat rs1.toNat 0 ∧
    (30 < s.xv rs1 → TakesFault (.gfexp rd rs1) s 2 (s.xv rs1)) ∧
    (s.xv rs1 ≤ 30 → Answers (.gfexp rd rs1) s (SetsX rd (BitVec.ofNat 32 (fieldPower (s.xv rs1))) s))

/-- GFLOG gives the exponent in 0..30 whose power of x is the letter; 0 has no logarithm (R109). -/
def Obligations.GflogIsTheLogarithm : Prop :=
  ∀ (rd rs1 : XReg) (s : State), s.fstat = false →
    HasWord (.gflog rd rs1) 0x13 rd.toNat rs1.toNat 0 ∧
    (s.xv rs1 = 0 ∨ 31 < s.xv rs1 → TakesFault (.gflog rd rs1) s 2 (s.xv rs1)) ∧
    (s.xv rs1 ≠ 0 → s.xv rs1 ≤ 31 → Answers (.gflog rd rs1) s
      (SetsXTo rd (fun v => v.toNat ≤ 30 ∧ fieldPower v.toNat = s.xv rs1) s))

/-- The laws of the GF(32) tables (R110). -/
def Obligations.GfTablesFormAField : Prop :=
  (∀ a b : Letter, gfMul a b = gfMul b a) ∧
  (∀ a b c : Letter, gfMul a (gfMul b c) = gfMul (gfMul a b) c) ∧
  (∀ a b c : Letter, gfMul a (b ^^^ c) = gfMul a b ^^^ gfMul a c) ∧
  (∀ a : Letter, gfMul a 1 = a) ∧
  (∀ a b : Letter, gfMul a b = 0 ↔ a = 0 ∨ b = 0) ∧
  (∀ a : Letter, a ≠ 0 → gfMul a (gfInv a) = 1) ∧
  (∀ a : Letter, a ≠ 0 → gfExp (gfLog a) = a) ∧
  (∀ i : Nat, i ≤ 30 → gfLog (gfExp i) = i) ∧
  (∀ b : Letter, b ≠ 0 → Function.Bijective (fun a => gfMul a b))

/-! ## F31 -/

/-- F31ADD, F31SUB and F31MUL are sum, difference and product mod 31 (R122, R123, R124). -/
def Obligations.F31ArithmeticIsModulo31 : Prop :=
  ∀ (rd rs1 rs2 : XReg) (s : State), s.fstat = false →
    (HasWord (.f31add rd rs1 rs2) 0x20 rd.toNat rs1.toNat rs2.toNat ∧
      ChecksInt31s (.f31add rd rs1 rs2) s (s.xv rs1) (s.xv rs2) ∧
      (s.xv rs1 ≤ 30 → s.xv rs2 ≤ 30 →
        Answers (.f31add rd rs1 rs2) s (SetsX rd (BitVec.ofNat 32 ((s.xv rs1 + s.xv rs2) % 31)) s))) ∧
    (HasWord (.f31sub rd rs1 rs2) 0x21 rd.toNat rs1.toNat rs2.toNat ∧
      ChecksInt31s (.f31sub rd rs1 rs2) s (s.xv rs1) (s.xv rs2) ∧
      (s.xv rs1 ≤ 30 → s.xv rs2 ≤ 30 →
        Answers (.f31sub rd rs1 rs2) s (SetsX rd (BitVec.ofNat 32 ((s.xv rs1 + 31 - s.xv rs2) % 31)) s))) ∧
    (HasWord (.f31mul rd rs1 rs2) 0x22 rd.toNat rs1.toNat rs2.toNat ∧
      ChecksInt31s (.f31mul rd rs1 rs2) s (s.xv rs1) (s.xv rs2) ∧
      (s.xv rs1 ≤ 30 → s.xv rs2 ≤ 30 →
        Answers (.f31mul rd rs1 rs2) s (SetsX rd (BitVec.ofNat 32 (s.xv rs1 * s.xv rs2 % 31)) s)))

/-- F31DIV gives the q in 0..30 with q * b = a mod 31; both ranges are checked before the zero divisor (R125). -/
def Obligations.F31divIsTheQuotient : Prop :=
  ∀ (rd rs1 rs2 : XReg) (s : State), s.fstat = false →
    HasWord (.f31div rd rs1 rs2) 0x23 rd.toNat rs1.toNat rs2.toNat ∧
    ChecksInt31s (.f31div rd rs1 rs2) s (s.xv rs1) (s.xv rs2) ∧
    (s.xv rs1 ≤ 30 → s.xv rs2 = 0 → TakesFault (.f31div rd rs1 rs2) s 3 (s.xv rs1)) ∧
    (s.xv rs1 ≤ 30 → s.xv rs2 ≤ 30 → s.xv rs2 ≠ 0 → Answers (.f31div rd rs1 rs2) s
      (SetsXTo rd (fun q => q.toNat ≤ 30 ∧ q.toNat * s.xv rs2 % 31 = s.xv rs1) s))

/-! ## Poly31 -/

/-- PZERO clears a polynomial, PSETC sets one coefficient and keeps the other 29, PGETC reads one (R132, R133, R134). -/
def Obligations.PolyCoefficientAccess : Prop :=
  ∀ (rd rs1 rs2 : XReg) (pd ps1 : PReg) (s : State), s.fstat = false →
    (HasWord (.pzero pd) 0x30 pd.toNat 0 0 ∧ Answers (.pzero pd) s (SetsP pd (fun _ => 0) s)) ∧
    (HasWord (.psetc pd rs1 rs2) 0x31 pd.toNat rs1.toNat rs2.toNat ∧
      (29 < s.xv rs1 → TakesFault (.psetc pd rs1 rs2) s 2 (s.xv rs1)) ∧
      (s.xv rs1 ≤ 29 → 30 < s.xv rs2 → TakesFault (.psetc pd rs1 rs2) s 2 (s.xv rs2)) ∧
      (s.xv rs1 ≤ 29 → s.xv rs2 ≤ 30 → Answers (.psetc pd rs1 rs2) s
        (SetsP pd (fun k => if k = s.xv rs1 then Fin.ofNat 31 (s.xv rs2) else coeff (s.getP pd) k) s))) ∧
    (HasWord (.pgetc rd ps1 rs2) 0x32 rd.toNat ps1.toNat rs2.toNat ∧
      (29 < s.xv rs2 → TakesFault (.pgetc rd ps1 rs2) s 2 (s.xv rs2)) ∧
      (s.xv rs2 ≤ 29 → Answers (.pgetc rd ps1 rs2) s
        (SetsX rd (BitVec.ofNat 32 (coeff (s.getP ps1) (s.xv rs2)).val) s)))

/-- PEVAL gives the sum of `c_k * t^k` mod 31 (R135). -/
def Obligations.PevalIsTheValueAtThePoint : Prop :=
  ∀ (rd rs2 : XReg) (ps1 : PReg) (s : State), s.fstat = false →
    HasWord (.peval rd ps1 rs2) 0x33 rd.toNat ps1.toNat rs2.toNat ∧
    (30 < s.xv rs2 → TakesFault (.peval rd ps1 rs2) s 2 (s.xv rs2)) ∧
    (s.xv rs2 ≤ 30 → Answers (.peval rd ps1 rs2) s (SetsX rd (BitVec.ofNat 32 (specEval (s.getP ps1) (s.xv rs2))) s))

/-- PSHIFT multiplies by X or overflows, PADD adds, PSCALE scales, PICPT makes X - i (R136, R137, R139, R140). -/
def Obligations.PolyLinearCommands : Prop :=
  ∀ (rs1 rs2 : XReg) (pd ps1 ps2 : PReg) (s : State), s.fstat = false →
    (HasWord (.pshift pd ps1) 0x34 pd.toNat ps1.toNat 0 ∧
      (coeff (s.getP ps1) 29 ≠ 0 → TakesFault (.pshift pd ps1) s 4 30) ∧
      (coeff (s.getP ps1) 29 = 0 → Answers (.pshift pd ps1) s
        (SetsP pd (fun k => if k = 0 then 0 else coeff (s.getP ps1) (k - 1)) s))) ∧
    (HasWord (.padd pd ps1 ps2) 0x35 pd.toNat ps1.toNat ps2.toNat ∧
      Answers (.padd pd ps1 ps2) s
        (SetsP pd (fun k => Fin.ofNat 31 ((coeff (s.getP ps1) k).val + (coeff (s.getP ps2) k).val)) s)) ∧
    (HasWord (.pscale pd ps1 rs2) 0x37 pd.toNat ps1.toNat rs2.toNat ∧
      (30 < s.xv rs2 → TakesFault (.pscale pd ps1 rs2) s 2 (s.xv rs2)) ∧
      (s.xv rs2 ≤ 30 → Answers (.pscale pd ps1 rs2) s
        (SetsP pd (fun k => Fin.ofNat 31 ((coeff (s.getP ps1) k).val * s.xv rs2)) s))) ∧
    (HasWord (.picpt pd rs1) 0x38 pd.toNat rs1.toNat 0 ∧
      (30 < s.xv rs1 → TakesFault (.picpt pd rs1) s 2 (s.xv rs1)) ∧
      (s.xv rs1 ≤ 30 → Answers (.picpt pd rs1) s
        (SetsP pd (fun k => if k = 0 then Fin.ofNat 31 (31 - s.xv rs1) else if k = 1 then 1 else 0) s)))

/-- PMUL gives the exact product mod 31, or overflows with the largest k above 29 at which it is not 0 (R138). -/
def Obligations.PmulIsTheExactProduct : Prop :=
  ∀ (pd ps1 ps2 : PReg) (s : State), s.fstat = false →
    HasWord (.pmul pd ps1 ps2) 0x36 pd.toNat ps1.toNat ps2.toNat ∧
    (∀ d, 30 ≤ d → d ≤ 58 → specProduct (s.getP ps1) (s.getP ps2) d ≠ 0 →
      (∀ k, d < k → k ≤ 58 → specProduct (s.getP ps1) (s.getP ps2) k = 0) → TakesFault (.pmul pd ps1 ps2) s 4 d) ∧
    ((∀ k, 30 ≤ k → k ≤ 58 → specProduct (s.getP ps1) (s.getP ps2) k = 0) → Answers (.pmul pd ps1 ps2) s
      (SetsP pd (fun k => Fin.ofNat 31 (specProduct (s.getP ps1) (s.getP ps2) k)) s))

/-- F31 being a field, PMUL of two nonzero polynomials overflows exactly when their degrees add up to more than 29, with that sum in
FINFO; otherwise the product has that degree. A zero factor gives zero (R138). -/
def Obligations.PmulOverflowsByDegree : Prop :=
  ∀ (pd ps1 ps2 : PReg) (s : State), s.fstat = false →
    (∀ d e, HasDegree (s.getP ps1) d → HasDegree (s.getP ps2) e → 29 < d + e → TakesFault (.pmul pd ps1 ps2) s 4 (d + e)) ∧
    (∀ d e, HasDegree (s.getP ps1) d → HasDegree (s.getP ps2) e → d + e ≤ 29 →
      Answers (.pmul pd ps1 ps2) s (fun t => HasDegree (t.getP pd) (d + e))) ∧
    ((∀ k, coeff (s.getP ps1) k = 0) ∨ (∀ k, coeff (s.getP ps2) k = 0) →
      Answers (.pmul pd ps1 ps2) s (SetsP pd (fun _ => 0) s))

/-- A completed PMUL leaves a polynomial whose value at every point is the product of the factors' values (R138, R135). -/
def Obligations.PmulMultipliesValues : Prop :=
  ∀ (pd ps1 ps2 : PReg) (s t : State), s.fstat = false → exec (.pmul pd ps1 ps2) s = .next t → t.fstat = false →
    ∀ a, a ≤ 30 → specEval (t.getP pd) a = specEval (s.getP ps1) a * specEval (s.getP ps2) a % 31

/-- PIMP makes the polynomial that is 1 at t and 0 at every other point of the mask, of degree the number of those points;
the mask's bit 31, then the point, then the number of points is checked (R141, R143). -/
def Obligations.PimpIsTheImpulse : Prop :=
  ∀ (pd : PReg) (rs1 rs2 : XReg) (s : State), s.fstat = false →
    HasWord (.pimp pd rs1 rs2) 0x39 pd.toNat rs1.toNat rs2.toNat ∧
    ((s.getX rs1).getLsbD 31 = true → TakesFault (.pimp pd rs1 rs2) s 2 (s.xv rs1)) ∧
    ((s.getX rs1).getLsbD 31 = false → 30 < s.xv rs2 → TakesFault (.pimp pd rs1 rs2) s 2 (s.xv rs2)) ∧
    ((s.getX rs1).getLsbD 31 = false → s.xv rs2 ≤ 30 → 29 < otherPoints (s.getX rs1) (s.xv rs2) →
      TakesFault (.pimp pd rs1 rs2) s 4 (otherPoints (s.getX rs1) (s.xv rs2))) ∧
    ((s.getX rs1).getLsbD 31 = false → s.xv rs2 ≤ 30 → otherPoints (s.getX rs1) (s.xv rs2) ≤ 29 →
      Answers (.pimp pd rs1 rs2) s (fun t =>
        specEval (t.getP pd) (s.xv rs2) = 1 ∧
        (∀ i, i ≤ 30 → (s.getX rs1).getLsbD i = true → i ≠ s.xv rs2 → specEval (t.getP pd) i = 0) ∧
        HasDegree (t.getP pd) (otherPoints (s.getX rs1) (s.xv rs2)) ∧
        (∀ r, r ≠ pd → t.getP r = s.getP r) ∧ t = { s with p := t.p }))

/-! ## Hamming -/

/-- HCLR empties the buffer, HAPP appends one raw element, HGET reads one (R162, R166, R167). -/
def Obligations.HammingBufferAccess : Prop :=
  ∀ (rd rs1 : XReg) (s : State), s.fstat = false →
    (HasWord .hclr 0x40 0 0 0 ∧ Answers .hclr s (fun t => t = { s with hlen := 0 })) ∧
    (HasWord (.happ rs1) 0x42 0 rs1.toNat 0 ∧
      (255 < s.xv rs1 → TakesFault (.happ rs1) s 2 (s.xv rs1)) ∧
      (s.xv rs1 ≤ 255 → s.cfg.hcap.toNat < s.hammingLen + 1 → TakesFault (.happ rs1) s 6 (s.hammingLen + 1)) ∧
      (s.xv rs1 ≤ 255 → s.hammingLen + 1 ≤ s.cfg.hcap.toNat → Answers (.happ rs1) s
        (SetsHb (s.hammingLen + 1) (fun k => if k = s.hammingLen then BitVec.ofNat 8 (s.xv rs1) else s.hb.read k) s))) ∧
    (HasWord (.hget rd rs1) 0x43 rd.toNat rs1.toNat 0 ∧
      (s.hammingLen ≤ s.xv rs1 → TakesFault (.hget rd rs1) s 5 (s.xv rs1)) ∧
      (s.xv rs1 < s.hammingLen → Answers (.hget rd rs1) s
        (SetsX rd (BitVec.ofNat 32 (s.hb.read (s.xv rs1)).toNat) s)))

/-- HPUSH puts the symbol at the next position p that is no power of two, zero placeholders before it, and XORs it into the parity
symbol of every check p takes part in; it overflows when p exceeds HCAP (R164). -/
def Obligations.HpushBuildsTheCode : Prop :=
  ∀ (rs1 : XReg) (s : State), s.fstat = false →
    HasWord (.hpush rs1) 0x41 0 rs1.toNat 0 ∧
    (255 < s.xv rs1 → TakesFault (.hpush rs1) s 2 (s.xv rs1)) ∧
    (s.xv rs1 ≤ 255 → ∀ p, s.hammingLen < p → ¬ IsPow2 p → (∀ q, s.hammingLen < q → q < p → IsPow2 q) →
      (s.cfg.hcap.toNat < p → TakesFault (.hpush rs1) s 6 p) ∧
      (p ≤ s.cfg.hcap.toNat → Answers (.hpush rs1) s (fun t =>
        t.hammingLen = p ∧ t.hb.read (p - 1) = BitVec.ofNat 8 (s.xv rs1) ∧
        (∀ k, p.testBit k = true → t.hb.read (2 ^ k - 1) =
          (if 2 ^ k - 1 < s.hammingLen then s.hb.read (2 ^ k - 1) else 0) ^^^ BitVec.ofNat 8 (s.xv rs1)) ∧
        (∀ a, a + 1 ≠ p → (∀ k, p.testBit k = true → a + 1 ≠ 2 ^ k) →
          t.hb.read a = if s.hammingLen ≤ a ∧ a < p then 0 else s.hb.read a) ∧
        t = { s with hb := t.hb, hlen := t.hlen })))

/-- HPUSH keeps every parity check satisfied: if all hold on the block before a push, all hold on the block after it (R165). -/
def Obligations.HpushKeepsParityChecks : Prop :=
  ∀ (rs1 : XReg) (s t : State), s.fstat = false → exec (.hpush rs1) s = .next t → t.fstat = false →
    ParityChecksHold s → ParityChecksHold t

/-- HPUSH acts on each bit alone: bit j of every element of the block after it depends only on bit j of the elements before it and
bit j of the pushed symbol (R163). -/
def Obligations.HpushKeepsPlanesApart : Prop :=
  ∀ (rs1 : XReg) (j : Nat) (s u s' u' : State), s.fstat = false → u.fstat = false → s.hlen = u.hlen → s.cfg.hcap = u.cfg.hcap →
    s.xv rs1 ≤ 255 → u.xv rs1 ≤ 255 → (s.getX rs1).getLsbD j = (u.getX rs1).getLsbD j →
    (∀ k, k < s.hammingLen → (s.hb.read k).getLsbD j = (u.hb.read k).getLsbD j) →
    exec (.hpush rs1) s = .next s' → exec (.hpush rs1) u = .next u' →
      s'.hlen = u'.hlen ∧ ∀ k, k < s'.hammingLen → (s'.hb.read k).getLsbD j = (u'.hb.read k).getLsbD j

/-- HDBITS gives the length less the number of powers of two not above it (R168, R160). -/
def Obligations.HdbitsCountsDataSymbols : Prop :=
  ∀ (rd rs1 : XReg) (s : State), s.fstat = false →
    HasWord (.hdbits rd rs1) 0x45 rd.toNat rs1.toNat 0 ∧
    (65535 < s.xv rs1 → TakesFault (.hdbits rd rs1) s 2 (s.xv rs1)) ∧
    (s.xv rs1 ≤ 65535 → Answers (.hdbits rd rs1) s
      (SetsX rd (BitVec.ofNat 32 (s.xv rs1 - ((Finset.range 16).filter (fun m => 2 ^ m ≤ s.xv rs1)).card)) s))

/-- HST stores the block into LA at the offset; the checks are NotSized, then the exact range, then the lowest element that is
no letter (R169). -/
def Obligations.HstStoresTheBlock : Prop :=
  ∀ (rs1 : XReg) (s : State), s.fstat = false →
    HasWord (.hst rs1) 0x46 0 rs1.toNat 0 ∧
    (s.letters = 0 → TakesFault (.hst rs1) s 8 0) ∧
    (s.letters ≠ 0 → s.letters < s.xv rs1 + s.hammingLen → TakesFault (.hst rs1) s 5 (s.xv rs1 + s.hammingLen)) ∧
    (s.letters ≠ 0 → s.xv rs1 + s.hammingLen ≤ s.letters → ∀ k, k < s.hammingLen → 31 < (s.hb.read k).toNat →
      (∀ j, j < k → (s.hb.read j).toNat ≤ 31) → TakesFault (.hst rs1) s 2 k) ∧
    (s.letters ≠ 0 → s.xv rs1 + s.hammingLen ≤ s.letters → (∀ k, k < s.hammingLen → (s.hb.read k).toNat ≤ 31) →
      Answers (.hst rs1) s (SetsLa (fun a => if s.xv rs1 ≤ a ∧ a < s.xv rs1 + s.hammingLen
        then BitVec.ofNat 5 (s.hb.read (a - s.xv rs1)).toNat else s.la.read a) s))

/-- HPROP is one round of belief propagation in exact rationals, quantised by R171; the length is checked first, then the lowest
element that is the pattern 0x80 (R170). M and B are the largest syndrome and belief magnitudes. The exact bytes rest on R171, which
lets a model leave the quantiser abstract: taking its exact form is the model's choice (log 6, DESIGN CHOICE). -/
def Obligations.HpropIsOneExactRound : Prop :=
  ∀ s : State, s.fstat = false →
    HasWord .hprop 0x44 0 0 0 ∧
    (¬ s.LegalBlock → TakesFault .hprop s 7 s.hammingLen) ∧
    (s.LegalBlock → ∀ k, k < s.hammingLen → s.hb.read k = 0x80 → (∀ j, j < k → s.hb.read j ≠ 0x80) → TakesFault .hprop s 2 k) ∧
    (s.LegalBlock → (∀ k, k < s.hammingLen → s.hb.read k ≠ 0x80) → Answers .hprop s (fun t =>
      t = { s with hb := t.hb } ∧ (∀ a, s.hammingLen ≤ a → t.hb.read a = s.hb.read a) ∧
      ∃ M B : Rat, IsGreatest (Set.image (fun k => |s.specSyndrome k|) (Set.Iio (Nat.size s.hammingLen))) M ∧
        IsGreatest (Set.image (fun j => |s.specBelief M j|) (Set.Icc 1 s.hammingLen)) B ∧
        ∀ j, 1 ≤ j → j ≤ s.hammingLen →
          QuantisedTo (if 0 < B then s.specBelief M j / B else 0) (t.softBit j)))

/-- A block of certain bits that satisfies every parity check is unchanged by HPROP (R173 a). -/
def Obligations.HpropKeepsCodewords : Prop :=
  ∀ s : State, s.fstat = false → s.LegalBlock → s.CertainBits → s.CertainChecksHold →
    Answers .hprop s (fun t => t = { s with hb := t.hb } ∧ ∀ a, t.hb.read a = s.hb.read a)

/-- A block of certain bits one flip away from satisfying every check has that one position flipped back by HPROP, and every other
element kept, for every legal length and every position (R173 b). -/
def Obligations.HpropCorrectsOneFlip : Prop :=
  ∀ (s u : State) (pos : Nat), s.LegalBlock → s.CertainBits → s.CertainChecksHold → 1 ≤ pos → pos ≤ s.hammingLen →
    u.fstat = false → u.hlen = s.hlen → u.softBit pos = -s.softBit pos → (∀ a, a + 1 ≠ pos → u.hb.read a = s.hb.read a) →
      Answers .hprop u (fun t => t = { u with hb := t.hb } ∧ ∀ a, t.hb.read a = s.hb.read a)

/-- An unknown element stays unknown, and after HPROP either all elements are 0 or one is +127 or -127; the all-zero block stays
all zero (R173 c, d, e). -/
def Obligations.HpropErasuresAndPeak : Prop :=
  ∀ s : State, s.fstat = false → s.LegalBlock → (∀ k, k < s.hammingLen → s.hb.read k ≠ 0x80) →
    Answers .hprop s (fun t =>
      (∀ j, 1 ≤ j → j ≤ s.hammingLen → s.softBit j = 0 → t.softBit j = 0) ∧
      ((∀ j, 1 ≤ j → j ≤ s.hammingLen → t.softBit j = 0) ∨
        ∃ j, 1 ≤ j ∧ j ≤ s.hammingLen ∧ (t.softBit j = 127 ∨ t.softBit j = -127)))

/-! ## Letter memories and criss-cross -/

/-- LDA and LDB read one letter; the checks are NotSized, then IndexRange (R193, R195). -/
def Obligations.LettersAreRead : Prop :=
  ∀ (rd rs1 : XReg) (s : State), s.fstat = false →
    (HasWord (.lda rd rs1) 0x50 rd.toNat rs1.toNat 0 ∧
      (s.letters = 0 → TakesFault (.lda rd rs1) s 8 0) ∧
      (s.letters ≠ 0 → s.letters ≤ s.xv rs1 → TakesFault (.lda rd rs1) s 5 (s.xv rs1)) ∧
      (s.xv rs1 < s.letters → Answers (.lda rd rs1) s (SetsX rd (BitVec.ofNat 32 (s.la.read (s.xv rs1)).toNat) s))) ∧
    (HasWord (.ldb rd rs1) 0x52 rd.toNat rs1.toNat 0 ∧
      (s.letters = 0 → TakesFault (.ldb rd rs1) s 8 0) ∧
      (s.letters ≠ 0 → s.letters ≤ s.xv rs1 → TakesFault (.ldb rd rs1) s 5 (s.xv rs1)) ∧
      (s.xv rs1 < s.letters → Answers (.ldb rd rs1) s (SetsX rd (BitVec.ofNat 32 (s.lb.read (s.xv rs1)).toNat) s)))

/-- STA and STB write one letter and no other element; the checks are NotSized, IndexRange, BadOperand (R194, R196). -/
def Obligations.LettersAreWritten : Prop :=
  ∀ (rs1 rs2 : XReg) (s : State), s.fstat = false →
    (HasWord (.sta rs1 rs2) 0x51 0 rs1.toNat rs2.toNat ∧
      (s.letters = 0 → TakesFault (.sta rs1 rs2) s 8 0) ∧
      (s.letters ≠ 0 → s.letters ≤ s.xv rs1 → TakesFault (.sta rs1 rs2) s 5 (s.xv rs1)) ∧
      (s.xv rs1 < s.letters → 31 < s.xv rs2 → TakesFault (.sta rs1 rs2) s 2 (s.xv rs2)) ∧
      (s.xv rs1 < s.letters → s.xv rs2 ≤ 31 → Answers (.sta rs1 rs2) s
        (SetsLa (fun a => if a = s.xv rs1 then BitVec.ofNat 5 (s.xv rs2) else s.la.read a) s))) ∧
    (HasWord (.stb rs1 rs2) 0x53 0 rs1.toNat rs2.toNat ∧
      (s.letters = 0 → TakesFault (.stb rs1 rs2) s 8 0) ∧
      (s.letters ≠ 0 → s.letters ≤ s.xv rs1 → TakesFault (.stb rs1 rs2) s 5 (s.xv rs1)) ∧
      (s.xv rs1 < s.letters → 31 < s.xv rs2 → TakesFault (.stb rs1 rs2) s 2 (s.xv rs2)) ∧
      (s.xv rs1 < s.letters → s.xv rs2 ≤ 31 → Answers (.stb rs1 rs2) s
        (SetsLb (fun a => if a = s.xv rs1 then BitVec.ofNat 5 (s.xv rs2) else s.lb.read a) s)))

/-- CCADDR gives one interleave address (R199). -/
def Obligations.CcaddrIsTheAddressLaw : Prop :=
  ∀ (rd rs1 rs2 : XReg) (s : State), s.fstat = false →
    HasWord (.ccaddr rd rs1 rs2) 0x56 rd.toNat rs1.toNat rs2.toNat ∧
    (s.letters = 0 → TakesFault (.ccaddr rd rs1 rs2) s 8 0) ∧
    (s.letters ≠ 0 → s.letters ≤ s.xv rs1 → TakesFault (.ccaddr rd rs1 rs2) s 5 (s.xv rs1)) ∧
    (s.xv rs1 < s.letters → 4 < s.xv rs2 → TakesFault (.ccaddr rd rs1 rs2) s 2 (s.xv rs2)) ∧
    (s.xv rs1 < s.letters → ∀ j : Fin 5, s.xv rs2 = j →
      Answers (.ccaddr rd rs1 rs2) s (SetsX rd (BitVec.ofNat 32 (s.specAddr (s.xv rs1) j)) s))

/-- XCROSS: bit j of LB at a position below N is set exactly when bit j of some letter of LA whose plane-j address is that position
is; positions at N and above keep their letters, and LA is unchanged (R197). -/
def Obligations.XcrossScattersThePlanes : Prop :=
  ∀ s : State, s.fstat = false →
    HasWord .xcross 0x54 0 0 0 ∧ (s.letters = 0 → TakesFault .xcross s 8 0) ∧
    (s.letters ≠ 0 → Answers .xcross s (fun t =>
      (∀ a, a < s.letters → ∀ j : Fin 5, (t.lb.read a).getLsbD j = true ↔
        ∃ i, i < s.letters ∧ s.specAddr i j = a ∧ (s.la.read i).getLsbD j = true) ∧
      (∀ a, s.letters ≤ a → t.lb.read a = s.lb.read a) ∧ t = { s with lb := t.lb }))

/-- XUNCROSS: bit j of LA at i is bit j of LB at the plane-j address of i; LB is unchanged (R198). -/
def Obligations.XuncrossGathersThePlanes : Prop :=
  ∀ s : State, s.fstat = false →
    HasWord .xuncross 0x55 0 0 0 ∧ (s.letters = 0 → TakesFault .xuncross s 8 0) ∧
    (s.letters ≠ 0 → Answers .xuncross s (fun t =>
      (∀ i, i < s.letters → ∀ j : Fin 5, (t.la.read i).getLsbD j = (s.lb.read (s.specAddr i j)).getLsbD j) ∧
      (∀ a, s.letters ≤ a → t.la.read a = s.la.read a) ∧ t = { s with la := t.la }))

/-- If every `ccf5[j]` is coprime to N, each plane's address map is a permutation of 0..N-1 and XUNCROSS after XCROSS restores LA
exactly (R200). -/
def Obligations.CrissCrossRoundTrip : Prop :=
  ∀ s : State, s.fstat = false → s.letters ≠ 0 →
    (∀ j : Fin 5, Nat.Coprime (s.ccbase.toNat * s.ccmult.toNat ^ (j : Nat) % s.letters) s.letters) →
      (∀ j : Fin 5, Set.BijOn (fun i => s.specAddr i j) (Set.Iio s.letters) (Set.Iio s.letters)) ∧
      Answers .xcross s (fun t => Answers .xuncross t (fun u =>
        (∀ a, u.la.read a = s.la.read a) ∧ u = { s with la := u.la, lb := t.lb }))

/-! ## Whitening -/

/-- WHITEN and UNWHITEN, bit by bit, for every legal PERM and every 32-bit index (R224, R225). -/
def Obligations.WhitenPermutesThenKeys : Prop :=
  ∀ (rd rs1 rs2 : XReg) (s : State), s.fstat = false → s.cfg.PermOk →
    (HasWord (.whiten rd rs1 rs2) 0x60 rd.toNat rs1.toNat rs2.toNat ∧
      (31 < s.xv rs1 → TakesFault (.whiten rd rs1 rs2) s 2 (s.xv rs1)) ∧
      (s.xv rs1 ≤ 31 → Answers (.whiten rd rs1 rs2) s (SetsXTo rd (fun v => v.toNat ≤ 31 ∧
        IsWhitened s.cfg (s.xv rs2) (BitVec.ofNat 5 (s.xv rs1)) (BitVec.ofNat 5 v.toNat)) s))) ∧
    (HasWord (.unwhiten rd rs1 rs2) 0x61 rd.toNat rs1.toNat rs2.toNat ∧
      (31 < s.xv rs1 → TakesFault (.unwhiten rd rs1 rs2) s 2 (s.xv rs1)) ∧
      (s.xv rs1 ≤ 31 → Answers (.unwhiten rd rs1 rs2) s (SetsXTo rd (fun v => v.toNat ≤ 31 ∧
        IsUnwhitened s.cfg (s.xv rs2) (BitVec.ofNat 5 (s.xv rs1)) (BitVec.ofNat 5 v.toNat)) s)))

/-- Whitening and unwhitening undo each other, for every letter, every index and every legal PERM (R232). -/
def Obligations.WhitenRoundTrip : Prop :=
  ∀ c : Config, c.PermOk → ∀ (l : Letter) (idx : Nat), unwhiten c (whiten c l idx) idx = l ∧ whiten c (unwhiten c l idx) idx = l

/-- WHITENB and UNWHITENB whiten and unwhiten every letter of LB below N by its own index, and change nothing else (R226, R227). -/
def Obligations.WhitenbActsLetterByLetter : Prop :=
  ∀ s : State, s.fstat = false → s.cfg.PermOk →
    (HasWord .whitenb 0x62 0 0 0 ∧ (s.letters = 0 → TakesFault .whitenb s 8 0) ∧
      (s.letters ≠ 0 → Answers .whitenb s (fun t =>
        (∀ i, i < s.letters → IsWhitened s.cfg i (s.lb.read i) (t.lb.read i)) ∧
        (∀ a, s.letters ≤ a → t.lb.read a = s.lb.read a) ∧ t = { s with lb := t.lb }))) ∧
    (HasWord .unwhitenb 0x63 0 0 0 ∧ (s.letters = 0 → TakesFault .unwhitenb s 8 0) ∧
      (s.letters ≠ 0 → Answers .unwhitenb s (fun t =>
        (∀ i, i < s.letters → IsUnwhitened s.cfg i (s.lb.read i) (t.lb.read i)) ∧
        (∀ a, s.letters ≤ a → t.lb.read a = s.lb.read a) ∧ t = { s with lb := t.lb })))

/-- UNWHITENB after WHITENB restores every letter of LB, for every legal PERM (R227, R232). -/
def Obligations.UnwhitenbRestoresLb : Prop :=
  ∀ s : State, s.fstat = false → s.cfg.PermOk → s.letters ≠ 0 →
    Answers .whitenb s (fun t => Answers .unwhitenb t (fun u => (∀ a, u.lb.read a = s.lb.read a) ∧ u = { s with lb := u.lb }))

/-- ODDMUL is `((2a+1)(2b+1) div 2) mod 32`; ODDDIV gives the letter whose ODDMUL with the divisor is the dividend (R230, R231). -/
def Obligations.OddArithmetic : Prop :=
  ∀ (rd rs1 rs2 : XReg) (s : State), s.fstat = false →
    (HasWord (.oddmul rd rs1 rs2) 0x64 rd.toNat rs1.toNat rs2.toNat ∧
      ChecksLetters (.oddmul rd rs1 rs2) s (s.xv rs1) (s.xv rs2) ∧
      (s.xv rs1 ≤ 31 → s.xv rs2 ≤ 31 → Answers (.oddmul rd rs1 rs2) s
        (SetsX rd (BitVec.ofNat 32 ((2 * s.xv rs1 + 1) * (2 * s.xv rs2 + 1) / 2 % 32)) s))) ∧
    (HasWord (.odddiv rd rs1 rs2) 0x65 rd.toNat rs1.toNat rs2.toNat ∧
      ChecksLetters (.odddiv rd rs1 rs2) s (s.xv rs1) (s.xv rs2) ∧
      (s.xv rs1 ≤ 31 → s.xv rs2 ≤ 31 → Answers (.odddiv rd rs1 rs2) s (SetsXTo rd (fun v => v.toNat ≤ 31 ∧
        (2 * v.toNat + 1) * (2 * s.xv rs2 + 1) / 2 % 32 = s.xv rs1) s)))

/-! ## System -/

/-- LI loads a zero-extended immediate; LIH replaces bits 31:16 and keeps bits 15:0 (R251, R252). -/
def Obligations.ImmediatesAreLoaded : Prop :=
  ∀ (rd : XReg) (imm16 : Half) (s : State), s.fstat = false →
    (encode (.li rd imm16) = BitVec.ofNat 32 (0x70 ||| rd.toNat <<< 8 ||| imm16.toNat <<< 16) ∧
      Answers (.li rd imm16) s (SetsX rd (BitVec.ofNat 32 imm16.toNat) s)) ∧
    (encode (.lih rd imm16) = BitVec.ofNat 32 (0x71 ||| rd.toNat <<< 8 ||| imm16.toNat <<< 16) ∧
      Answers (.lih rd imm16) s (SetsX rd (BitVec.ofNat 32 (imm16.toNat * 2 ^ 16 + s.xv rd % 2 ^ 16)) s))

/-- RD appends the register to OUT, also in the faulted state, and changes nothing else (R253). -/
def Obligations.RdAppendsToOut : Prop :=
  ∀ (rs1 : XReg) (s : State), HasWord (.rd rs1) 0x72 0 rs1.toNat 0 ∧
    Answers (.rd rs1) s (fun t => t = { s with out := s.out ++ [s.getX rs1] })

/-- CSRR reads each CSR of R26, also in the faulted state; any other number is an illegal command (R254, R26). -/
def Obligations.CsrrReadsTheRegisterList : Prop :=
  ∀ (rd : XReg) (s : State),
    (∀ csr : CsrNum, encode (.csrr rd csr) = BitVec.ofNat 32 (0x73 ||| rd.toNat <<< 8 ||| csr.toNat <<< 16)) ∧
    Answers (.csrr rd 0x000) s (SetsX rd (BitVec.ofNat 32 s.letters) s) ∧
    Answers (.csrr rd 0x001) s (SetsX rd (BitVec.ofNat 32 s.ccmult.toNat) s) ∧
    Answers (.csrr rd 0x002) s (SetsX rd (BitVec.ofNat 32 s.ccbase.toNat) s) ∧
    Answers (.csrr rd 0x010) s (SetsX rd (BitVec.ofNat 32 s.hammingLen) s) ∧
    Answers (.csrr rd 0x020) s (SetsX rd (if s.fstat then 1 else 0) s) ∧
    Answers (.csrr rd 0x021) s (SetsX rd s.fcause s) ∧
    Answers (.csrr rd 0x022) s (SetsX rd s.fcmd s) ∧
    Answers (.csrr rd 0x023) s (SetsX rd s.finfo s) ∧
    Answers (.csrr rd 0xF00) s (SetsX rd 0x50434501 s) ∧
    Answers (.csrr rd 0xF01) s (SetsX rd (BitVec.ofNat 32 s.cfg.nmax.toNat) s) ∧
    Answers (.csrr rd 0xF02) s (SetsX rd (BitVec.ofNat 32 s.cfg.hcap.toNat) s) ∧
    (∀ csr : CsrNum, csr.toNat ∉ [0x000, 0x001, 0x002, 0x010, 0x020, 0x021, 0x022, 0x023, 0xF00, 0xF01, 0xF02] →
      s.fstat = false → TakesFault (.csrr rd csr) s 1 csr.toNat)

/-- CSRW writes NLET, CCMULT or CCBASE and nothing else; any other number is illegal, and the number is checked before the value
(R255). -/
def Obligations.CsrwWritesTheThree : Prop :=
  ∀ (rs1 : XReg) (s : State), s.fstat = false →
    (∀ csr : CsrNum, encode (.csrw csr rs1) = BitVec.ofNat 32 (0x74 ||| rs1.toNat <<< 12 ||| csr.toNat <<< 16)) ∧
    (∀ csr : CsrNum, csr.toNat ∉ [0x000, 0x001, 0x002] → TakesFault (.csrw csr rs1) s 1 csr.toNat) ∧
    (s.cfg.nmax.toNat < s.xv rs1 → TakesFault (.csrw 0x000 rs1) s 2 (s.xv rs1)) ∧
    (65535 < s.xv rs1 → TakesFault (.csrw 0x001 rs1) s 2 (s.xv rs1) ∧ TakesFault (.csrw 0x002 rs1) s 2 (s.xv rs1)) ∧
    (s.xv rs1 ≤ s.cfg.nmax.toNat → Answers (.csrw 0x000 rs1) s (fun t => t = { s with nlet := t.nlet } ∧ t.letters = s.xv rs1)) ∧
    (s.xv rs1 ≤ 65535 →
      Answers (.csrw 0x001 rs1) s (fun t => t = { s with ccmult := t.ccmult } ∧ t.ccmult.toNat = s.xv rs1) ∧
      Answers (.csrw 0x002 rs1) s (fun t => t = { s with ccbase := t.ccbase } ∧ t.ccbase.toNat = s.xv rs1))

/-! ## What the host supplies -/

/-- The number of letters the host writes to NLET is 0 or 1 mod 3 and strictly increasing in the symbol size (R271, R272). -/
def Obligations.DataLettersGrowWithTheSize : Prop :=
  (∀ size, 2 ≤ size → ∃ n, ndataLetters size = some n ∧ (n % 3 = 0 ∨ n % 3 = 1)) ∧
  (∀ a b n m, a < b → ndataLetters a = some n → ndataLetters b = some m → n < m) ∧
  ndataLetters 2 = some 13 ∧ ndataLetters 3 = some 31 ∧ ndataLetters 30 = some 2785 ∧ ndataLetters 31 = some 2970
end

