-- ==== Sys2Proof/Laws/Memory.lean ====
section
/-! SUPPORT. Element memory: read after write, fills, and that every operation keeps the canonical form. -/

namespace Sys2Proof.Machine

variable {w : Nat}

@[simp] theorem read_nil (k : Nat) : Memory.read ([] : Memory w) k = 0#w := rfl

theorem read_cons (b : Nat) (u : BitVec w) (m : Memory w) (k : Nat) :
    Memory.read ((b, u) :: m) k = if k < b then 0#w else if k = b then u else Memory.read m k := rfl

/-- Dropping entries at or below `j` changes no read above `j`. -/
theorem read_dropWhile_of_lt (m : Memory w) {j k : Nat} (h : j < k) :
    Memory.read (m.dropWhile (fun c => decide (c.1 ≤ j))) k = Memory.read m k := by
  induction m with
  | nil => rfl
  | cons c m ih =>
    obtain ⟨b, u⟩ := c
    by_cases hb : b ≤ j
    · have h1 : ¬ k < b := by omega
      have h2 : ¬ k = b := by omega
      simp [hb, ih, read_cons, h1, h2]
    · simp [hb]

/-- After dropping entries at or below `k`, a read at or below `k` finds nothing. -/
theorem read_dropWhile_of_le (m : Memory w) {j k : Nat} (h : k ≤ j) :
    Memory.read (m.dropWhile (fun c => decide (c.1 ≤ j))) k = 0#w := by
  induction m with
  | nil => rfl
  | cons c m ih =>
    obtain ⟨b, u⟩ := c
    by_cases hb : b ≤ j
    · simp [hb, ih]
    · have h1 : k < b := by omega
      simp [hb, read_cons, h1]

/-- Read after write, for every memory: the written index gives the value, every other index what it gave (R50, R51). -/
theorem read_write (m : Memory w) (k a : Nat) (v : BitVec w) :
    Memory.read (Memory.write m k v) a = if a = k then v else Memory.read m a := by
  induction m with
  | nil =>
    by_cases hv : v = 0#w <;> by_cases h : a = k <;> simp_all [Memory.write, read_cons]
  | cons c m ih =>
    obtain ⟨b, u⟩ := c
    rcases Nat.lt_trichotomy k b with hk | hk | hk
    · by_cases hv : v = 0#w <;> by_cases h : a = k
      · subst h; simp [Memory.write, hk, hv, read_cons]
      · simp [Memory.write, hk, hv, h]
      · subst h; simp [Memory.write, hk, hv, read_cons]
      · by_cases ha : a < k
        · have : a < b := by omega
          simp [Memory.write, hk, hv, read_cons, h, ha, this]
        · simp [Memory.write, hk, hv, read_cons, h, ha]
    · subst hk
      by_cases hv : v = 0#w
      · rcases Nat.lt_trichotomy a k with ha | ha | ha
        · have h1 : a ≠ k := by omega
          simp [Memory.write, hv, read_dropWhile_of_le m (Nat.le_of_lt ha), read_cons, h1, ha]
        · subst ha; simp [Memory.write, hv, read_dropWhile_of_le m (Nat.le_refl a)]
        · have h1 : a ≠ k := by omega
          have h2 : ¬ a < k := by omega
          simp [Memory.write, hv, read_dropWhile_of_lt m ha, read_cons, h1, h2]
      · by_cases h : a = k <;> simp [Memory.write, hv, read_cons, h]
    · have h1 : ¬ k < b := by omega
      have h2 : k ≠ b := by omega
      simp only [Memory.write, h1, h2, if_false, read_cons, ih]
      by_cases h : a = k
      · subst h; simp [h1, h2]
      · simp [h]

@[simp] theorem read_write_same (m : Memory w) (k : Nat) (v : BitVec w) : Memory.read (Memory.write m k v) k = v := by
  simp [read_write]

@[simp] theorem read_write_of_ne (m : Memory w) {k a : Nat} (v : BitVec w) (h : a ≠ k) :
    Memory.read (Memory.write m k v) a = Memory.read m a := by
  simp [read_write, h]

@[simp] theorem fill_zero (m : Memory w) (off : Nat) (f : Nat → BitVec w) : m.fill off 0 f = m := rfl

theorem fill_succ (m : Memory w) (off n : Nat) (f : Nat → BitVec w) :
    m.fill off (n + 1) f = Memory.write (m.fill off n f) (off + n) (f n) := by
  simp [Memory.fill, List.range_succ]

/-- A fill writes `f 0 .. f (n-1)` from `off` on and leaves every other index alone. -/
theorem read_fill (m : Memory w) (off n : Nat) (f : Nat → BitVec w) (a : Nat) :
    Memory.read (m.fill off n f) a = if off ≤ a ∧ a < off + n then f (a - off) else Memory.read m a := by
  induction n with
  | zero => have h : ¬ (off ≤ a ∧ a < off + 0) := by omega
            simp
  | succ n ih =>
    rw [fill_succ, read_write, ih]
    by_cases h : a = off + n
    · subst h; simp
    · by_cases h2 : off ≤ a ∧ a < off + n
      · have : off ≤ a ∧ a < off + (n + 1) := by omega
        simp [h, h2, this]
      · have : ¬ (off ≤ a ∧ a < off + (n + 1)) := by omega
        simp only [h, h2, this, if_false]

/-! ## The canonical form -/

@[simp] theorem wf_nil : Memory.wf ([] : Memory w) := by simp [Memory.wf]

theorem wf_cons (b : Nat) (u : BitVec w) (m : Memory w) :
    Memory.wf ((b, u) :: m) ↔ (∀ c ∈ m, b < c.1) ∧ u ≠ 0#w ∧ Memory.wf m := by
  simp only [Memory.wf, List.pairwise_cons, List.forall_mem_cons]
  tauto

/-- Where the entries of a written memory come from. -/
theorem mem_write (m : Memory w) (k : Nat) (v : BitVec w) (c : Nat × BitVec w) (h : c ∈ Memory.write m k v) :
    (c = (k, v) ∧ v ≠ 0#w) ∨ c ∈ m := by
  induction m with
  | nil =>
    by_cases hv : v = 0#w <;> simp_all [Memory.write]
  | cons d m ih =>
    obtain ⟨b, u⟩ := d
    simp only [Memory.write] at h
    split at h
    · by_cases hv : v = 0#w
      · simp [hv] at h ⊢; exact h
      · simp [hv] at h ⊢; tauto
    · split at h
      · by_cases hv : v = 0#w
        · rw [if_pos hv] at h
          exact Or.inr (List.mem_cons_of_mem _ ((List.dropWhile_suffix _).subset h))
        · simp [hv] at h ⊢; tauto
      · rcases List.mem_cons.mp h with h | h
        · exact Or.inr (h ▸ List.mem_cons_self)
        · rcases ih h with h | h
          · exact Or.inl h
          · exact Or.inr (List.mem_cons_of_mem _ h)

/-- A write keeps the canonical form. -/
theorem wf_write (m : Memory w) (k : Nat) (v : BitVec w) (h : Memory.wf m) : Memory.wf (Memory.write m k v) := by
  induction m with
  | nil =>
    by_cases hv : v = 0#w <;> simp [Memory.write, Memory.wf, hv]
  | cons c m ih =>
    obtain ⟨b, u⟩ := c
    have hc := (wf_cons b u m).mp h
    simp only [Memory.write]
    split
    · rename_i hk
      by_cases hv : v = 0#w
      · simpa [hv] using h
      · rw [if_neg hv, wf_cons]
        refine ⟨?_, hv, h⟩
        intro d hd
        rcases List.mem_cons.mp hd with rfl | hd
        · exact hk
        · exact Nat.lt_trans hk (hc.1 d hd)
    · split
      · rename_i hk
        subst hk
        by_cases hv : v = 0#w
        · rw [if_pos hv]
          exact ⟨hc.2.2.1.sublist (List.dropWhile_suffix _).sublist,
            fun d hd => hc.2.2.2 d ((List.dropWhile_suffix _).subset hd)⟩
        · rw [if_neg hv, wf_cons]; exact ⟨hc.1, hv, hc.2.2⟩
      · rename_i h1 h2
        rw [wf_cons]
        refine ⟨?_, hc.2.1, ih hc.2.2⟩
        intro d hd
        rcases mem_write m k v d hd with ⟨rfl, _⟩ | hd
        · simp only; omega
        · exact hc.1 d hd

/-- A fill keeps the canonical form. -/
theorem wf_fill (m : Memory w) (off n : Nat) (f : Nat → BitVec w) (h : Memory.wf m) : Memory.wf (m.fill off n f) := by
  induction n with
  | zero => exact h
  | succ n ih => rw [fill_succ]; exact wf_write _ _ _ ih

/-- A write below `bound` keeps every listed index below `bound`. -/
theorem bounded_write (m : Memory w) (bound k : Nat) (v : BitVec w) (hk : k < bound) (h : ∀ c ∈ m, c.1 < bound) :
    ∀ c ∈ Memory.write m k v, c.1 < bound := by
  intro c hc
  rcases mem_write m k v c hc with ⟨rfl, _⟩ | hc
  · exact hk
  · exact h c hc

/-- A fill below `bound` keeps every listed index below `bound`. -/
theorem bounded_fill (m : Memory w) (bound off n : Nat) (f : Nat → BitVec w) (hn : off + n ≤ bound)
    (h : ∀ c ∈ m, c.1 < bound) : ∀ c ∈ m.fill off n f, c.1 < bound := by
  induction n with
  | zero => exact h
  | succ n ih => rw [fill_succ]; exact bounded_write _ _ _ _ (by omega) (ih (by omega))

/-- Canonical memories that read alike are the same data. -/
theorem eq_of_read_eq (m n : Memory w) (hm : Memory.wf m) (hn : Memory.wf n)
    (h : ∀ k, Memory.read m k = Memory.read n k) : m = n := by
  induction m generalizing n with
  | nil =>
    cases n with
    | nil => rfl
    | cons d n =>
      obtain ⟨b, u⟩ := d
      have := h b
      simp [read_cons] at this
      exact absurd this.symm ((wf_cons b u n).mp hn).2.1
  | cons c m ih =>
    obtain ⟨a, u⟩ := c
    have hc := (wf_cons a u m).mp hm
    cases n with
    | nil =>
      have := h a
      simp [read_cons] at this
      exact absurd this hc.2.1
    | cons d n =>
      obtain ⟨b, v⟩ := d
      have hd := (wf_cons b v n).mp hn
      have hab : a = b := by
        rcases Nat.lt_trichotomy a b with hl | he | hl
        · have := h a; simp [read_cons, hl] at this; exact absurd this hc.2.1
        · exact he
        · have := h b; simp [read_cons, hl] at this; exact absurd this.symm hd.2.1
      subst hab
      have huv : u = v := by have := h a; simpa [read_cons] using this
      subst huv
      congr 1
      apply ih n hc.2.2 hd.2.2
      intro k
      by_cases hk : a < k
      · have := h k
        have h1 : ¬ k < a := by omega
        have h2 : k ≠ a := by omega
        simpa [read_cons, h1, h2] using this
      · have low : ∀ (l : Memory w), (∀ c ∈ l, a < c.1) → Memory.read l k = 0#w := by
          intro l hl
          cases l with
          | nil => rfl
          | cons e l =>
            obtain ⟨x, y⟩ := e
            have : a < x := hl (x, y) List.mem_cons_self
            have : k < x := by omega
            simp [read_cons, this]
        rw [low m hc.1, low n hd.1]

end Sys2Proof.Machine
end

