-- ==== Sys2Proof/Laws/State.lean ====
section
/-! SUPPORT. The state's record updates: what each changes, and that every other field stays. -/

namespace Sys2Proof.Machine

/-! ## Operand registers -/

@[simp] theorem getX_setX_same (s : State) (r : XReg) (v : Word) : (s.setX r v).getX r = v := by
  simp [State.getX, State.setX]

theorem getX_setX (s : State) (r q : XReg) (v : Word) : (s.setX r v).getX q = if q = r then v else s.getX q := by
  simp only [State.getX, State.setX, Vector.getElem_set, BitVec.toNat_inj, eq_comm]

@[simp] theorem getX_setX_of_ne (s : State) {r q : XReg} (v : Word) (h : q ≠ r) : (s.setX r v).getX q = s.getX q := by
  simp [getX_setX, h]

theorem setXNat_eq_setX (s : State) (r : XReg) (n : Nat) : s.setXNat r n = s.setX r (BitVec.ofNat 32 n) := rfl

/-! ## Fields that writing an operand register keeps -/

@[simp] theorem setX_cfg (s : State) (r : XReg) (v : Word) : (s.setX r v).cfg = s.cfg := rfl
@[simp] theorem setX_p (s : State) (r : XReg) (v : Word) : (s.setX r v).p = s.p := rfl
@[simp] theorem setX_hb (s : State) (r : XReg) (v : Word) : (s.setX r v).hb = s.hb := rfl
@[simp] theorem setX_hlen (s : State) (r : XReg) (v : Word) : (s.setX r v).hlen = s.hlen := rfl
@[simp] theorem setX_la (s : State) (r : XReg) (v : Word) : (s.setX r v).la = s.la := rfl
@[simp] theorem setX_lb (s : State) (r : XReg) (v : Word) : (s.setX r v).lb = s.lb := rfl
@[simp] theorem setX_nlet (s : State) (r : XReg) (v : Word) : (s.setX r v).nlet = s.nlet := rfl
@[simp] theorem setX_ccmult (s : State) (r : XReg) (v : Word) : (s.setX r v).ccmult = s.ccmult := rfl
@[simp] theorem setX_ccbase (s : State) (r : XReg) (v : Word) : (s.setX r v).ccbase = s.ccbase := rfl
@[simp] theorem setX_fstat (s : State) (r : XReg) (v : Word) : (s.setX r v).fstat = s.fstat := rfl
@[simp] theorem setX_fcause (s : State) (r : XReg) (v : Word) : (s.setX r v).fcause = s.fcause := rfl
@[simp] theorem setX_fcmd (s : State) (r : XReg) (v : Word) : (s.setX r v).fcmd = s.fcmd := rfl
@[simp] theorem setX_finfo (s : State) (r : XReg) (v : Word) : (s.setX r v).finfo = s.finfo := rfl
@[simp] theorem setX_out (s : State) (r : XReg) (v : Word) : (s.setX r v).out = s.out := rfl
@[simp] theorem setX_input (s : State) (r : XReg) (v : Word) : (s.setX r v).input = s.input := rfl

/-! ## Fields that writing a number to an operand register keeps -/

@[simp] theorem setXNat_cfg (s : State) (r : XReg) (n : Nat) : (s.setXNat r n).cfg = s.cfg := rfl
@[simp] theorem setXNat_p (s : State) (r : XReg) (n : Nat) : (s.setXNat r n).p = s.p := rfl
@[simp] theorem setXNat_hb (s : State) (r : XReg) (n : Nat) : (s.setXNat r n).hb = s.hb := rfl
@[simp] theorem setXNat_hlen (s : State) (r : XReg) (n : Nat) : (s.setXNat r n).hlen = s.hlen := rfl
@[simp] theorem setXNat_la (s : State) (r : XReg) (n : Nat) : (s.setXNat r n).la = s.la := rfl
@[simp] theorem setXNat_lb (s : State) (r : XReg) (n : Nat) : (s.setXNat r n).lb = s.lb := rfl
@[simp] theorem setXNat_nlet (s : State) (r : XReg) (n : Nat) : (s.setXNat r n).nlet = s.nlet := rfl
@[simp] theorem setXNat_ccmult (s : State) (r : XReg) (n : Nat) : (s.setXNat r n).ccmult = s.ccmult := rfl
@[simp] theorem setXNat_ccbase (s : State) (r : XReg) (n : Nat) : (s.setXNat r n).ccbase = s.ccbase := rfl
@[simp] theorem setXNat_fstat (s : State) (r : XReg) (n : Nat) : (s.setXNat r n).fstat = s.fstat := rfl
@[simp] theorem setXNat_fcause (s : State) (r : XReg) (n : Nat) : (s.setXNat r n).fcause = s.fcause := rfl
@[simp] theorem setXNat_fcmd (s : State) (r : XReg) (n : Nat) : (s.setXNat r n).fcmd = s.fcmd := rfl
@[simp] theorem setXNat_finfo (s : State) (r : XReg) (n : Nat) : (s.setXNat r n).finfo = s.finfo := rfl
@[simp] theorem setXNat_out (s : State) (r : XReg) (n : Nat) : (s.setXNat r n).out = s.out := rfl
@[simp] theorem setXNat_input (s : State) (r : XReg) (n : Nat) : (s.setXNat r n).input = s.input := rfl

/-! ## Fields that writing a polynomial register keeps -/

@[simp] theorem setP_cfg (s : State) (r : PReg) (q : Poly31) : (s.setP r q).cfg = s.cfg := rfl
@[simp] theorem setP_x (s : State) (r : PReg) (q : Poly31) : (s.setP r q).x = s.x := rfl
@[simp] theorem setP_hb (s : State) (r : PReg) (q : Poly31) : (s.setP r q).hb = s.hb := rfl
@[simp] theorem setP_hlen (s : State) (r : PReg) (q : Poly31) : (s.setP r q).hlen = s.hlen := rfl
@[simp] theorem setP_la (s : State) (r : PReg) (q : Poly31) : (s.setP r q).la = s.la := rfl
@[simp] theorem setP_lb (s : State) (r : PReg) (q : Poly31) : (s.setP r q).lb = s.lb := rfl
@[simp] theorem setP_nlet (s : State) (r : PReg) (q : Poly31) : (s.setP r q).nlet = s.nlet := rfl
@[simp] theorem setP_ccmult (s : State) (r : PReg) (q : Poly31) : (s.setP r q).ccmult = s.ccmult := rfl
@[simp] theorem setP_ccbase (s : State) (r : PReg) (q : Poly31) : (s.setP r q).ccbase = s.ccbase := rfl
@[simp] theorem setP_fstat (s : State) (r : PReg) (q : Poly31) : (s.setP r q).fstat = s.fstat := rfl
@[simp] theorem setP_fcause (s : State) (r : PReg) (q : Poly31) : (s.setP r q).fcause = s.fcause := rfl
@[simp] theorem setP_fcmd (s : State) (r : PReg) (q : Poly31) : (s.setP r q).fcmd = s.fcmd := rfl
@[simp] theorem setP_finfo (s : State) (r : PReg) (q : Poly31) : (s.setP r q).finfo = s.finfo := rfl
@[simp] theorem setP_out (s : State) (r : PReg) (q : Poly31) : (s.setP r q).out = s.out := rfl
@[simp] theorem setP_input (s : State) (r : PReg) (q : Poly31) : (s.setP r q).input = s.input := rfl

/-! ## Fields that emitting a response word keeps -/

@[simp] theorem emit_cfg (s : State) (v : Word) : (s.emit v).cfg = s.cfg := rfl
@[simp] theorem emit_x (s : State) (v : Word) : (s.emit v).x = s.x := rfl
@[simp] theorem emit_p (s : State) (v : Word) : (s.emit v).p = s.p := rfl
@[simp] theorem emit_hb (s : State) (v : Word) : (s.emit v).hb = s.hb := rfl
@[simp] theorem emit_hlen (s : State) (v : Word) : (s.emit v).hlen = s.hlen := rfl
@[simp] theorem emit_la (s : State) (v : Word) : (s.emit v).la = s.la := rfl
@[simp] theorem emit_lb (s : State) (v : Word) : (s.emit v).lb = s.lb := rfl
@[simp] theorem emit_nlet (s : State) (v : Word) : (s.emit v).nlet = s.nlet := rfl
@[simp] theorem emit_ccmult (s : State) (v : Word) : (s.emit v).ccmult = s.ccmult := rfl
@[simp] theorem emit_ccbase (s : State) (v : Word) : (s.emit v).ccbase = s.ccbase := rfl
@[simp] theorem emit_fstat (s : State) (v : Word) : (s.emit v).fstat = s.fstat := rfl
@[simp] theorem emit_fcause (s : State) (v : Word) : (s.emit v).fcause = s.fcause := rfl
@[simp] theorem emit_fcmd (s : State) (v : Word) : (s.emit v).fcmd = s.fcmd := rfl
@[simp] theorem emit_finfo (s : State) (v : Word) : (s.emit v).finfo = s.finfo := rfl
@[simp] theorem emit_input (s : State) (v : Word) : (s.emit v).input = s.input := rfl

@[simp] theorem emit_out (s : State) (v : Word) : (s.emit v).out = s.out ++ [v] := rfl

/-! ## Polynomial registers -/

@[simp] theorem getP_setP_same (s : State) (r : PReg) (q : Poly31) : (s.setP r q).getP r = q := by
  simp [State.getP, State.setP]

theorem getP_setP (s : State) (r i : PReg) (q : Poly31) : (s.setP r q).getP i = if i = r then q else s.getP i := by
  simp only [State.getP, State.setP, Vector.getElem_set, BitVec.toNat_inj, eq_comm]

@[simp] theorem getP_setP_of_ne (s : State) {r i : PReg} (q : Poly31) (h : i ≠ r) : (s.setP r q).getP i = s.getP i := by
  simp [getP_setP, h]

/-! ## Register reads depend on one field -/

@[simp] theorem getX_setP (s : State) (r : PReg) (q : Poly31) (i : XReg) : (s.setP r q).getX i = s.getX i := rfl
@[simp] theorem getP_setX (s : State) (r : XReg) (v : Word) (i : PReg) : (s.setX r v).getP i = s.getP i := rfl
@[simp] theorem getX_emit (s : State) (v : Word) (i : XReg) : (s.emit v).getX i = s.getX i := rfl
@[simp] theorem getP_emit (s : State) (v : Word) (i : PReg) : (s.emit v).getP i = s.getP i := rfl

/-! ## Reset -/

@[simp] theorem resetOf_getX (c : Config) (r : XReg) : (State.resetOf c).getX r = 0 := by
  simp [State.getX, State.resetOf]

@[simp] theorem resetOf_getP (c : Config) (r : PReg) : (State.resetOf c).getP r = Vector.replicate 30 0 := by
  simp [State.getP, State.resetOf]

@[simp] theorem resetEvent_cfg (rest : List HostInput) (s : State) : (resetEvent rest s).cfg = s.cfg := rfl
@[simp] theorem resetEvent_input (rest : List HostInput) (s : State) : (resetEvent rest s).input = rest := rfl

end Sys2Proof.Machine
end

