-- ==== Sys2Proof/Laws/Ops.lean ====
section
/-! SUPPORT. What the shared operations can do, once each: the checks, the operands, fault entry, how a command completes, the
host's input. -/

namespace Sys2Proof.Machine

/-! ## Checks -/

@[simp] theorem ok_bind_eq {α β : Type} (a : α) (f : α → Except Raised β) : (Except.ok a >>= f) = f a := rfl

@[simp] theorem error_bind_eq {α β : Type} (e : Raised) (f : α → Except Raised β) :
    ((Except.error e : Except Raised α) >>= f) = .error e := rfl

@[simp] theorem pure_eq_ok {α : Type} (a : α) : (pure a : Except Raised α) = .ok a := rfl

theorem bind_eq_ok {α β : Type} {c : Except Raised α} {f : α → Except Raised β} {b : β} (h : (c >>= f) = .ok b) :
    ∃ a, c = .ok a ∧ f a = .ok b := by
  cases c with
  | error e => exact absurd h (by simp)
  | ok a => exact ⟨a, rfl, h⟩

theorem bind_eq_error {α β : Type} {c : Except Raised α} {f : α → Except Raised β} {e : Raised}
    (h : (c >>= f) = .error e) : c = .error e ∨ ∃ a, c = .ok a ∧ f a = .error e := by
  cases c with
  | error e' => exact Or.inl (by simpa using h)
  | ok a => exact Or.inr ⟨a, rfl, h⟩

@[simp] theorem raiseIf_of {c : Prop} [Decidable c] (h : c) (k : Cause) (n : Nat) : raiseIf c k n = .error ⟨k, n⟩ := by
  simp [raiseIf, h]

@[simp] theorem raiseIf_of_not {c : Prop} [Decidable c] (h : ¬ c) (k : Cause) (n : Nat) : raiseIf c k n = .ok () := by
  simp [raiseIf, h]

/-! ## Operands -/

theorem letterOperand_ok {v : Word} (h : v.toNat ≤ 31) : letterOperand v = .ok (v.setWidth 5) := by
  simp [letterOperand, Nat.not_lt.mpr h]

theorem letterOperand_bad {v : Word} (h : 31 < v.toNat) : letterOperand v = .error ⟨.badOperand, v.toNat⟩ := by
  simp [letterOperand, h]

/-- A letter read from an operand is the operand's number. -/
theorem letter_toNat {v : Word} (h : v.toNat ≤ 31) : (v.setWidth 5).toNat = v.toNat := by
  simp only [BitVec.toNat_setWidth]; omega

theorem int31Operand_ok {v : Word} (h : v.toNat < 31) : int31Operand v = .ok ⟨v.toNat, h⟩ := by
  simp [int31Operand, h]

theorem int31Operand_bad {v : Word} (h : 31 ≤ v.toNat) : int31Operand v = .error ⟨.badOperand, v.toNat⟩ := by
  simp [int31Operand, Nat.not_lt.mpr h]

theorem byteOperand_ok {v : Word} (h : v.toNat ≤ 255) : byteOperand v = .ok (v.setWidth 8) := by
  simp [byteOperand, Nat.not_lt.mpr h]

theorem byteOperand_bad {v : Word} (h : 255 < v.toNat) : byteOperand v = .error ⟨.badOperand, v.toNat⟩ := by
  simp [byteOperand, h]

theorem boundedOperand_ok {top : Nat} {v : Word} (h : v.toNat ≤ top) : boundedOperand top v = .ok v.toNat := by
  simp [boundedOperand, Nat.not_lt.mpr h]

theorem boundedOperand_bad {top : Nat} {v : Word} (h : top < v.toNat) :
    boundedOperand top v = .error ⟨.badOperand, v.toNat⟩ := by
  simp [boundedOperand, h]

theorem sizedOperand_ok {s : State} (h : s.letters ≠ 0) : sizedOperand s = .ok s.letters := by
  simp [sizedOperand, h]

theorem sizedOperand_unsized {s : State} (h : s.letters = 0) : sizedOperand s = .error ⟨.notSized, 0⟩ := by
  simp [sizedOperand, h]

theorem indexOperand_ok {n : Nat} {v : Word} (h : v.toNat < n) : indexOperand n v = .ok v.toNat := by
  simp [indexOperand, Nat.not_le.mpr h]

theorem indexOperand_bad {n : Nat} {v : Word} (h : n ≤ v.toNat) : indexOperand n v = .error ⟨.indexRange, v.toNat⟩ := by
  simp [indexOperand, h]

/-! ## Fault entry -/

/-- Fault entry from a state that is not faulted: exactly four writes (R305). -/
theorem takeFault_eq {s : State} (h : s.fstat = false) (w : Word) (e : Raised) :
    takeFault w e s =
      { s with fstat := true, fcause := BitVec.ofNat 32 e.cause.code, fcmd := w, finfo := BitVec.ofNat 32 e.info } := by
  simp [takeFault, h]

/-- Fault entry from the faulted state writes nothing (R307). -/
theorem takeFault_faulted {s : State} (h : s.fstat = true) (w : Word) (e : Raised) : takeFault w e s = s := by
  simp [takeFault, h]

/-- After fault entry F is 1. -/
@[simp] theorem takeFault_fstat (w : Word) (e : Raised) (s : State) : (takeFault w e s).fstat = true := by
  unfold takeFault; split <;> simp_all

@[simp] theorem takeFault_cfg (w : Word) (e : Raised) (s : State) : (takeFault w e s).cfg = s.cfg := by
  unfold takeFault; split <;> rfl

@[simp] theorem takeFault_x (w : Word) (e : Raised) (s : State) : (takeFault w e s).x = s.x := by
  unfold takeFault; split <;> rfl

@[simp] theorem takeFault_p (w : Word) (e : Raised) (s : State) : (takeFault w e s).p = s.p := by
  unfold takeFault; split <;> rfl

@[simp] theorem takeFault_hb (w : Word) (e : Raised) (s : State) : (takeFault w e s).hb = s.hb := by
  unfold takeFault; split <;> rfl

@[simp] theorem takeFault_hlen (w : Word) (e : Raised) (s : State) : (takeFault w e s).hlen = s.hlen := by
  unfold takeFault; split <;> rfl

@[simp] theorem takeFault_la (w : Word) (e : Raised) (s : State) : (takeFault w e s).la = s.la := by
  unfold takeFault; split <;> rfl

@[simp] theorem takeFault_lb (w : Word) (e : Raised) (s : State) : (takeFault w e s).lb = s.lb := by
  unfold takeFault; split <;> rfl

@[simp] theorem takeFault_nlet (w : Word) (e : Raised) (s : State) : (takeFault w e s).nlet = s.nlet := by
  unfold takeFault; split <;> rfl

@[simp] theorem takeFault_ccmult (w : Word) (e : Raised) (s : State) : (takeFault w e s).ccmult = s.ccmult := by
  unfold takeFault; split <;> rfl

@[simp] theorem takeFault_ccbase (w : Word) (e : Raised) (s : State) : (takeFault w e s).ccbase = s.ccbase := by
  unfold takeFault; split <;> rfl

@[simp] theorem takeFault_out (w : Word) (e : Raised) (s : State) : (takeFault w e s).out = s.out := by
  unfold takeFault; split <;> rfl

@[simp] theorem takeFault_input (w : Word) (e : Raised) (s : State) : (takeFault w e s).input = s.input := by
  unfold takeFault; split <;> rfl

/-! ## How a command completes -/

/-- In the faulted state a command has no effect (R306). -/
theorem command_faulted {s : State} (h : s.fstat = true) (i : Instr) (b : Except Raised State) : command i s b = .next s := by
  simp [command, h]

/-- A command whose checks pass makes its state. -/
theorem command_ok {s : State} (h : s.fstat = false) (i : Instr) (t : State) : command i s (.ok t) = .next t := by
  simp [command, settle, h]

/-- A command that fails a check takes that fault and does nothing else. -/
theorem command_error {s : State} (h : s.fstat = false) (i : Instr) (e : Raised) :
    command i s (.error e) = .next (takeFault (encode i) e s) := by
  simp [command, settle, h]

/-- Everything a command can do: nothing, its own effect, or a fault. -/
theorem command_next {i : Instr} {s t : State} {b : Except Raised State} (h : command i s b = .next t) :
    (s.fstat = true ∧ t = s) ∨ (s.fstat = false ∧ b = .ok t) ∨
      (s.fstat = false ∧ ∃ e, b = .error e ∧ t = takeFault (encode i) e s) := by
  cases hf : s.fstat with
  | true => rw [command_faulted hf] at h; cases h; exact Or.inl ⟨rfl, rfl⟩
  | false =>
    cases b with
    | ok u => rw [command_ok hf] at h; cases h; exact Or.inr (Or.inl ⟨rfl, rfl⟩)
    | error e => rw [command_error hf] at h; cases h; exact Or.inr (Or.inr ⟨rfl, e, rfl, rfl⟩)

/-- Everything RD and CSRR can do: their own effect, or a fault, which writes nothing in the faulted state. -/
theorem commandAlways_next {i : Instr} {s t : State} {b : Except Raised State} (h : commandAlways i s b = .next t) :
    b = .ok t ∨ ∃ e, b = .error e ∧ t = takeFault (encode i) e s := by
  cases b with
  | ok u => simp only [commandAlways, settle] at h; cases h; exact Or.inl rfl
  | error e => simp only [commandAlways, settle] at h; cases h; exact Or.inr ⟨e, rfl, rfl⟩

/-! ## The host's input -/

theorem nextEvent_idle {s : State} (h : s.input = []) : nextEvent s = .idle := by simp [nextEvent, h]

theorem nextEvent_reset {s : State} {rest : List HostInput} (h : s.input = .reset :: rest) :
    nextEvent s = .reset (resetEvent rest s) := by simp [nextEvent, h]

theorem nextEvent_word {s : State} {w : Word} {rest : List HostInput} (h : s.input = .command w :: rest) :
    nextEvent s = .word w { s with input := rest } := by simp [nextEvent, h]

end Sys2Proof.Machine
end

