-- ==== Sys2Proof/Laws/Crisscross.lean ====
section
/-! SUPPORT. What the interleaver and the whitening do, said once, bit by bit. -/

namespace Sys2Proof.Machine

/-! ## Interleave and de-interleave -/

/-- `l & (1 << j)` has bit `j` of `l` and no other. -/
theorem getLsbD_planeBit (l : Letter) (j b : Nat) :
    (planeBit l j).getLsbD b = (decide (b = j) && l.getLsbD b) := by
  by_cases hb : b < 5
  · simp only [planeBit, BitVec.getLsbD_and, BitVec.getLsbD_shiftLeft, BitVec.getLsbD_one, hb]
    by_cases h : b = j
    · subst h; simp
    · by_cases h2 : b < j
      · simp [h, h2]
      · have : ¬ b - j = 0 := by omega
        simp [h, this]
  · have : ∀ l : Letter, l.getLsbD b = false := fun l => BitVec.getLsbD_of_ge _ _ (by omega)
    simp [this]

/-- Bit `j` of the letter XUNCROSS gathers for `i` is bit `j` of LB at the address of `i` in plane `j` (R198). -/
theorem getLsbD_gathered (s : State) (i : Nat) {j : Nat} (hj : j < 5) :
    (gathered s i).getLsbD j = (s.lb.read (crossAddr s i j)).getLsbD j := by
  simp only [gathered, List.range_succ, List.range_zero, List.nil_append, List.foldl_append, List.foldl_cons, List.foldl_nil,
    BitVec.getLsbD_or, getLsbD_planeBit]
  interval_cases j <;> simp

/-- An address lies below N. -/
theorem crossAddr_lt (s : State) (h : s.letters ≠ 0) (i j : Nat) : crossAddr s i j < s.letters :=
  Nat.mod_lt _ (Nat.pos_of_ne_zero h)

/-- Bit `b` of an element after the inner loop of XCROSS for source letter `i` (R197). -/
theorem getLsbD_interleave_letter (s : State) (i : Nat) (m : Memory 5) (a : Nat) {b : Nat} (hb : b < 5) :
    (((List.range 5).foldl
      (fun m j => m.write (crossAddr s i j) (m.read (crossAddr s i j) ||| planeBit (s.la.read i) j)) m).read a).getLsbD b =
      ((m.read a).getLsbD b || (decide (a = crossAddr s i b) && (s.la.read i).getLsbD b)) := by
  have key : ∀ n, (((List.range n).foldl
      (fun m j => m.write (crossAddr s i j) (m.read (crossAddr s i j) ||| planeBit (s.la.read i) j)) m).read a).getLsbD b =
      ((m.read a).getLsbD b || (decide (b < n ∧ a = crossAddr s i b) && (s.la.read i).getLsbD b)) := by
    intro n
    induction n with
    | zero => simp
    | succ n ih =>
      rw [List.range_succ, List.foldl_append, List.foldl_cons, List.foldl_nil, read_write]
      by_cases ha : a = crossAddr s i n
      · rw [if_pos ha, BitVec.getLsbD_or, ← ha, ih, getLsbD_planeBit]
        by_cases hbn : b = n
        · subst hbn; simp [← ha]
        · have : (b < n + 1) ↔ b < n := by omega
          simp [hbn, this]
      · rw [if_neg ha, ih]
        by_cases hbn : b = n
        · subst hbn; simp [ha]
        · have : (b < n + 1) ↔ b < n := by omega
          simp [this]
  rw [key]; simp [hb]

/-- LB after XCROSS, bit by bit: below N the bits that land there, above N what it was (R197). -/
theorem getLsbD_interleaved (s : State) (h : s.letters ≠ 0) (a : Nat) {b : Nat} (hb : b < 5) :
    ((interleaved s).read a).getLsbD b = true ↔
      if a < s.letters then ∃ i, i < s.letters ∧ crossAddr s i b = a ∧ (s.la.read i).getLsbD b = true
      else (s.lb.read a).getLsbD b = true := by
  have key : ∀ (n : Nat) (m : Memory 5), (((List.range n).foldl
      (fun m i => (List.range 5).foldl
        (fun m j => m.write (crossAddr s i j) (m.read (crossAddr s i j) ||| planeBit (s.la.read i) j)) m) m).read a).getLsbD b =
        true ↔ (m.read a).getLsbD b = true ∨ ∃ i, i < n ∧ crossAddr s i b = a ∧ (s.la.read i).getLsbD b = true := by
    intro n m
    induction n with
    | zero => simp
    | succ n ih =>
      rw [List.range_succ (n := n), List.foldl_append, List.foldl_cons, List.foldl_nil, getLsbD_interleave_letter _ _ _ _ hb,
        Bool.or_eq_true, ih, or_assoc]
      apply or_congr_right
      simp only [Bool.and_eq_true, decide_eq_true_eq]
      constructor
      · rintro (⟨i, h1, h2⟩ | ⟨h1, h2⟩)
        · exact ⟨i, by omega, h2⟩
        · exact ⟨n, by omega, h1.symm, h2⟩
      · rintro ⟨i, h1, h2, h3⟩
        rcases Nat.lt_or_ge i n with hi | hi
        · exact Or.inl ⟨i, hi, h2, h3⟩
        · have : i = n := by omega
          subst this; exact Or.inr ⟨h2.symm, h3⟩
  rw [interleaved, key, read_fill]
  by_cases ha : a < s.letters
  · simp [ha]
  · simp only [ha, if_false, Nat.zero_le, Nat.zero_add, and_false]
    constructor
    · rintro (h1 | ⟨i, _, h2, _⟩)
      · exact h1
      · exact absurd (h2 ▸ crossAddr_lt s h i b) ha
    · exact Or.inl

theorem wf_interleaved (s : State) (h : s.lb.wf) : (interleaved s).wf := by
  have inner : ∀ (i : Nat) (l : List Nat) (m : Memory 5), m.wf → (l.foldl
      (fun m j => m.write (crossAddr s i j) (m.read (crossAddr s i j) ||| planeBit (s.la.read i) j)) m).wf := by
    intro i l
    induction l with
    | nil => exact fun m hm => hm
    | cons j l ih => intro m hm; rw [List.foldl_cons]; exact ih _ (wf_write _ _ _ hm)
  have outer : ∀ (l : List Nat) (m : Memory 5), m.wf → (l.foldl
      (fun m i => (List.range 5).foldl
        (fun m j => m.write (crossAddr s i j) (m.read (crossAddr s i j) ||| planeBit (s.la.read i) j)) m) m).wf := by
    intro l
    induction l with
    | nil => exact fun m hm => hm
    | cons i l ih => intro m hm; rw [List.foldl_cons]; exact ih _ (inner i _ _ hm)
  exact outer _ _ (wf_fill _ _ _ _ h)

theorem bounded_interleaved (s : State) (bound : Nat) (h0 : s.letters ≠ 0) (hn : s.letters ≤ bound)
    (h : ∀ c ∈ s.lb, c.1 < bound) : ∀ c ∈ interleaved s, c.1 < bound := by
  have inner : ∀ (i : Nat) (l : List Nat) (m : Memory 5), (∀ c ∈ m, c.1 < bound) → ∀ c ∈ (l.foldl
      (fun m j => m.write (crossAddr s i j) (m.read (crossAddr s i j) ||| planeBit (s.la.read i) j)) m), c.1 < bound := by
    intro i l
    induction l with
    | nil => exact fun m hm => hm
    | cons j l ih =>
      intro m hm; rw [List.foldl_cons]
      exact ih _ (bounded_write _ _ _ _ (Nat.lt_of_lt_of_le (crossAddr_lt s h0 i j) hn) hm)
  have outer : ∀ (l : List Nat) (m : Memory 5), (∀ c ∈ m, c.1 < bound) → ∀ c ∈ (l.foldl
      (fun m i => (List.range 5).foldl
        (fun m j => m.write (crossAddr s i j) (m.read (crossAddr s i j) ||| planeBit (s.la.read i) j)) m) m), c.1 < bound := by
    intro l
    induction l with
    | nil => exact fun m hm => hm
    | cons i l ih => intro m hm; rw [List.foldl_cons]; exact ih _ (inner i _ _ hm)
  exact outer _ _ (bounded_fill _ _ _ _ _ (by omega) h)

/-! ## Whitening -/

/-- For an involution, bit `b` of the permuted letter is bit `pi(b)` of the letter (R223). -/
theorem getLsbD_permuteBits (pi : BitPerm) (h : ∀ b : Fin 5, pi.get (pi.get b) = b) (l : Letter) (b : Fin 5) :
    (permuteBits pi l).getLsbD b = l.getLsbD (pi.get b) := by
  have oneBit : ∀ d b : Fin 5, (1#5 <<< d.val).getLsbD b = decide (d = b) := by decide
  have key : ∀ (bs : List (Fin 5)) (r : Letter), ((bs.foldl
      (fun r c => if l.getLsbD c.val then r ||| (1#5 <<< (pi.get c).val) else r) r).getLsbD b = true) ↔
      (r.getLsbD b = true ∨ ∃ c ∈ bs, pi.get c = b ∧ l.getLsbD c = true) := by
    intro bs
    induction bs with
    | nil => simp
    | cons c bs ih =>
      intro r
      rw [List.foldl_cons, ih]
      by_cases hc : l.getLsbD c = true
      · simp only [hc, if_true, BitVec.getLsbD_or, oneBit, Bool.or_eq_true, decide_eq_true_eq, List.mem_cons, exists_eq_or_imp,
          and_true]
        tauto
      · simp only [hc, Bool.false_eq_true, if_false, List.mem_cons, exists_eq_or_imp, and_false, false_or]
  rw [Bool.eq_iff_iff, permuteBits, key]
  constructor
  · rintro (h1 | ⟨c, _, rfl, h3⟩)
    · simp at h1
    · rw [h c]; exact h3
  · intro h1; exact Or.inr ⟨pi.get b, List.mem_finRange _, h b, h1⟩

/-- Permuting twice by an involution gives the letter back (R223). -/
theorem permuteBits_permuteBits (pi : BitPerm) (h : ∀ b : Fin 5, pi.get (pi.get b) = b) (l : Letter) :
    permuteBits pi (permuteBits pi l) = l := by
  apply BitVec.eq_of_getLsbD_eq
  intro i hi
  have h1 := getLsbD_permuteBits pi h (permuteBits pi l) ⟨i, hi⟩
  have h2 := getLsbD_permuteBits pi h l (pi.get ⟨i, hi⟩)
  rw [h ⟨i, hi⟩] at h2
  exact h1.trans h2

/-- Bit `b` of the key of an index (R220). -/
theorem getLsbD_whitenKey (idx : Nat) (b : Fin 5) : (whitenKey idx).getLsbD b = (idx % 31 + 1).testBit b := by
  rw [whitenKey, BitVec.getLsbD_ofNat]; simp

end Sys2Proof.Machine
end

