-- ==== Sys2Proof/Laws/Decode.lean ====
section
/-! SUPPORT. The fields of an encoded word, and the opcode of each command. -/

namespace Sys2Proof.Laws

/-- The opcode byte of each command (R75). -/
def opcodeOf : Instr → BitVec 8
  | .gfmul _ _ _ => 0x10
  | .gfinv _ _ => 0x11
  | .gfexp _ _ => 0x12
  | .gflog _ _ => 0x13
  | .f31add _ _ _ => 0x20
  | .f31sub _ _ _ => 0x21
  | .f31mul _ _ _ => 0x22
  | .f31div _ _ _ => 0x23
  | .pzero _ => 0x30
  | .psetc _ _ _ => 0x31
  | .pgetc _ _ _ => 0x32
  | .peval _ _ _ => 0x33
  | .pshift _ _ => 0x34
  | .padd _ _ _ => 0x35
  | .pmul _ _ _ => 0x36
  | .pscale _ _ _ => 0x37
  | .picpt _ _ => 0x38
  | .pimp _ _ _ => 0x39
  | .hclr => 0x40
  | .hpush _ => 0x41
  | .happ _ => 0x42
  | .hget _ _ => 0x43
  | .hprop => 0x44
  | .hdbits _ _ => 0x45
  | .hst _ => 0x46
  | .lda _ _ => 0x50
  | .sta _ _ => 0x51
  | .ldb _ _ => 0x52
  | .stb _ _ => 0x53
  | .xcross => 0x54
  | .xuncross => 0x55
  | .ccaddr _ _ _ => 0x56
  | .whiten _ _ _ => 0x60
  | .unwhiten _ _ _ => 0x61
  | .whitenb => 0x62
  | .unwhitenb => 0x63
  | .oddmul _ _ _ => 0x64
  | .odddiv _ _ _ => 0x65
  | .li _ _ => 0x70
  | .lih _ _ => 0x71
  | .rd _ => 0x72
  | .csrr _ _ => 0x73
  | .csrw _ _ => 0x74

/-! ## Fields of a format R word -/

@[simp] theorem fieldOp_wordR (op : BitVec 8) (a b c : BitVec 4) : fieldOp (wordR op a b c) = op := by
  apply BitVec.eq_of_getLsbD_eq; intro i hi
  simp only [fieldOp, wordR, BitVec.getLsbD_extractLsb', BitVec.getLsbD_append]
  interval_cases i <;> simp

@[simp] theorem fieldA_wordR (op : BitVec 8) (a b c : BitVec 4) : fieldA (wordR op a b c) = a := by
  apply BitVec.eq_of_getLsbD_eq; intro i hi
  simp only [fieldA, wordR, BitVec.getLsbD_extractLsb', BitVec.getLsbD_append]
  interval_cases i <;> simp

@[simp] theorem fieldB_wordR (op : BitVec 8) (a b c : BitVec 4) : fieldB (wordR op a b c) = b := by
  apply BitVec.eq_of_getLsbD_eq; intro i hi
  simp only [fieldB, wordR, BitVec.getLsbD_extractLsb', BitVec.getLsbD_append]
  interval_cases i <;> simp

@[simp] theorem fieldC_wordR (op : BitVec 8) (a b c : BitVec 4) : fieldC (wordR op a b c) = c := by
  apply BitVec.eq_of_getLsbD_eq; intro i hi
  simp only [fieldC, wordR, BitVec.getLsbD_extractLsb', BitVec.getLsbD_append]
  interval_cases i <;> simp

@[simp] theorem fieldZeroR_wordR (op : BitVec 8) (a b c : BitVec 4) : fieldZeroR (wordR op a b c) = 0 := by
  apply BitVec.eq_of_getLsbD_eq; intro i hi
  simp only [fieldZeroR, wordR, BitVec.getLsbD_extractLsb', BitVec.getLsbD_append]
  interval_cases i <;> simp

/-! ## Fields of a format I word -/

@[simp] theorem fieldOp_wordI (op : BitVec 8) (a : BitVec 4) (imm : Half) : fieldOp (wordI op a imm) = op := by
  apply BitVec.eq_of_getLsbD_eq; intro i hi
  simp only [fieldOp, wordI, BitVec.getLsbD_extractLsb', BitVec.getLsbD_append]
  interval_cases i <;> simp

@[simp] theorem fieldA_wordI (op : BitVec 8) (a : BitVec 4) (imm : Half) : fieldA (wordI op a imm) = a := by
  apply BitVec.eq_of_getLsbD_eq; intro i hi
  simp only [fieldA, wordI, BitVec.getLsbD_extractLsb', BitVec.getLsbD_append]
  interval_cases i <;> simp

@[simp] theorem fieldB_wordI (op : BitVec 8) (a : BitVec 4) (imm : Half) : fieldB (wordI op a imm) = 0 := by
  apply BitVec.eq_of_getLsbD_eq; intro i hi
  simp only [fieldB, wordI, BitVec.getLsbD_extractLsb', BitVec.getLsbD_append]
  interval_cases i <;> simp

@[simp] theorem fieldImm_wordI (op : BitVec 8) (a : BitVec 4) (imm : Half) : fieldImm (wordI op a imm) = imm := by
  apply BitVec.eq_of_getLsbD_eq; intro i hi
  simp only [fieldImm, wordI, BitVec.getLsbD_extractLsb', BitVec.getLsbD_append]
  interval_cases i <;> simp

/-! ## Fields of a format C word -/

@[simp] theorem fieldOp_wordC (op : BitVec 8) (a b : BitVec 4) (csr : CsrNum) : fieldOp (wordC op a b csr) = op := by
  apply BitVec.eq_of_getLsbD_eq; intro i hi
  simp only [fieldOp, wordC, BitVec.getLsbD_extractLsb', BitVec.getLsbD_append]
  interval_cases i <;> simp

@[simp] theorem fieldA_wordC (op : BitVec 8) (a b : BitVec 4) (csr : CsrNum) : fieldA (wordC op a b csr) = a := by
  apply BitVec.eq_of_getLsbD_eq; intro i hi
  simp only [fieldA, wordC, BitVec.getLsbD_extractLsb', BitVec.getLsbD_append]
  interval_cases i <;> simp

@[simp] theorem fieldB_wordC (op : BitVec 8) (a b : BitVec 4) (csr : CsrNum) : fieldB (wordC op a b csr) = b := by
  apply BitVec.eq_of_getLsbD_eq; intro i hi
  simp only [fieldB, wordC, BitVec.getLsbD_extractLsb', BitVec.getLsbD_append]
  interval_cases i <;> simp

@[simp] theorem fieldCsr_wordC (op : BitVec 8) (a b : BitVec 4) (csr : CsrNum) : fieldCsr (wordC op a b csr) = csr := by
  apply BitVec.eq_of_getLsbD_eq; intro i hi
  simp only [fieldCsr, wordC, BitVec.getLsbD_extractLsb', BitVec.getLsbD_append]
  interval_cases i <;> simp

@[simp] theorem fieldZeroC_wordC (op : BitVec 8) (a b : BitVec 4) (csr : CsrNum) : fieldZeroC (wordC op a b csr) = 0 := by
  apply BitVec.eq_of_getLsbD_eq; intro i hi
  simp only [fieldZeroC, wordC, BitVec.getLsbD_extractLsb', BitVec.getLsbD_append]
  interval_cases i <;> simp

/-! ## Column kinds -/

@[simp] theorem readX_eq (f : BitVec 4) : readX f = .ok f := rfl

@[simp] theorem readP_pfield (p : PReg) : readP (pfield p) = .ok p := by
  revert p; decide

@[simp] theorem readNone_zero : readNone 0#4 = .ok () := rfl

@[simp] theorem readZero_zero (n : Nat) : readZero 0#n = .ok () := by simp [readZero]

end Sys2Proof.Laws
end

