-- ==== Sys2Proof/Laws/Hamming.lean ====
section
/-! SUPPORT. What the Hamming encoder's operations do, said once: powers of two, the position of a push, parity updates. -/

namespace Sys2Proof.Machine

/-! ## The number functions of R10 -/

theorem isPow2_iff (n : Nat) : isPow2 n = true ↔ ∃ m, n = 2 ^ m := by
  simp only [isPow2, Bool.and_eq_true, bne_iff_ne, ne_eq, beq_iff_eq]
  constructor
  · rintro ⟨_, h⟩; exact ⟨_, h.symm⟩
  · rintro ⟨m, rfl⟩; simp [Nat.log2_two_pow]

theorem isPow2_eq_false_iff (n : Nat) : isPow2 n = false ↔ ¬ ∃ m, n = 2 ^ m := by
  rw [← isPow2_iff]; simp

/-- `bitlen` is the library's `Nat.size`. -/
theorem bitlen_eq_size (n : Nat) : bitlen n = Nat.size n := by
  by_cases h : n = 0
  · simp [bitlen, h]
  · simp only [bitlen, h, if_false]
    apply le_antisymm
    · have := (Nat.lt_size (m := n.log2) (n := n)).mpr (Nat.log2_self_le h); omega
    · exact Nat.size_le.mpr (Nat.lt_log2_self)

/-- A power of two is at most `n` exactly when its exponent is below `bitlen n`. -/
theorem lt_bitlen {k n : Nat} : k < bitlen n ↔ 2 ^ k ≤ n := by rw [bitlen_eq_size, Nat.lt_size]

/-- A set bit lies below `bitlen`. -/
theorem lt_bitlen_of_testBit {n k : Nat} (h : n.testBit k = true) : k < bitlen n :=
  lt_bitlen.mpr (Nat.ge_two_pow_of_testBit h)

/-! ## The position of a push (R164) -/

/-- The next position is above the length, is no power of two, and every position between is one. -/
theorem pushPosition_spec (n : Nat) :
    n < pushPosition n ∧ isPow2 (pushPosition n) = false ∧ ∀ q, n < q → q < pushPosition n → isPow2 q = true := by
  have two : ∀ m, isPow2 (m + 1) = true → isPow2 (m + 2) = true → m = 0 := by
    intro m h1 h2
    obtain ⟨a, ha⟩ := (isPow2_iff _).mp h1
    obtain ⟨b, hb⟩ := (isPow2_iff _).mp h2
    have hab : a < b := (Nat.pow_lt_pow_iff_right (by decide)).mp (by omega : 2 ^ a < 2 ^ b)
    have : 2 ^ (a + 1) ≤ 2 ^ b := Nat.pow_le_pow_right (by decide) hab
    rw [Nat.pow_succ] at this; omega
  unfold pushPosition padCount
  by_cases h1 : isPow2 (n + 1) = true
  · by_cases h2 : isPow2 (n + 2) = true
    · have h0 : n = 0 := two n h1 h2
      subst h0
      refine ⟨by simp [h1, h2], by decide, ?_⟩
      intro q hq hq'
      simp only [h1, h2, if_true] at hq'
      have : q = 1 ∨ q = 2 := by omega
      rcases this with rfl | rfl <;> assumption
    · simp only [h1, h2, if_true, Bool.false_eq_true, if_false]
      refine ⟨by omega, by simp, ?_⟩
      intro q hq hq'
      have : q = n + 1 := by omega
      subst this; exact h1
  · simp only [h1, Bool.false_eq_true, if_false]
    refine ⟨by omega, by simp, ?_⟩
    intro q hq hq'; omega

/-- `pushPosition` is the only such position. -/
theorem pushPosition_unique {n p : Nat} (h1 : n < p) (h2 : isPow2 p = false)
    (h3 : ∀ q, n < q → q < p → isPow2 q = true) : pushPosition n = p := by
  obtain ⟨g1, g2, g3⟩ := pushPosition_spec n
  rcases Nat.lt_trichotomy (pushPosition n) p with h | h | h
  · rw [h3 _ g1 h] at g2; exact absurd g2 (by decide)
  · exact h
  · rw [g3 _ h1 h] at h2; exact absurd h2 (by decide)

/-! ## Parity updates (R164) -/

/-- HB after the parity updates of position `p`: the parity symbols of the checks `p` takes part in, and nothing else. -/
theorem read_updateParity (m : Memory 8) {p : Nat} (hp : isPow2 p = false) (d : Byte) (a : Nat) :
    (updateParity m p d).read a =
      if isPow2 (a + 1) = true ∧ p &&& (a + 1) ≠ 0 then m.read a ^^^ d else m.read a := by
  have key : ∀ n, ((List.range n).foldl
      (fun m k => if p.testBit k && 2 ^ k != p then m.write (2 ^ k - 1) (m.read (2 ^ k - 1) ^^^ d) else m) m).read a =
      if ∃ k, k < n ∧ p.testBit k = true ∧ a + 1 = 2 ^ k then m.read a ^^^ d else m.read a := by
    intro n
    induction n with
    | zero => simp
    | succ n ih =>
      rw [List.range_succ, List.foldl_append, List.foldl_cons, List.foldl_nil]
      have hne : (2 ^ n != p) = true := by
        rw [bne_iff_ne]; intro h; rw [(isPow2_iff p).mpr ⟨n, h.symm⟩] at hp; exact absurd hp (by decide)
      simp only [hne, Bool.and_true]
      have pos : 0 < 2 ^ n := Nat.two_pow_pos n
      by_cases hb : p.testBit n = true
      · simp only [hb, if_true, read_write]
        by_cases ha : a = 2 ^ n - 1
        · have ha' : a + 1 = 2 ^ n := by omega
          have no : ¬ ∃ k, k < n ∧ p.testBit k = true ∧ a + 1 = 2 ^ k := by
            rintro ⟨k, hk, _, e⟩
            have := Nat.pow_right_injective (le_refl 2) (ha'.symm.trans e)
            omega
          have yes : ∃ k, k < n + 1 ∧ p.testBit k = true ∧ a + 1 = 2 ^ k := ⟨n, by omega, hb, ha'⟩
          rw [if_pos ha, if_pos yes, ← ha, ih, if_neg no]
        · rw [if_neg ha, ih]
          congr 1
          apply propext
          constructor
          · rintro ⟨k, hk, h⟩; exact ⟨k, by omega, h⟩
          · rintro ⟨k, hk, h1, h2⟩
            refine ⟨k, ?_, h1, h2⟩
            rcases Nat.lt_or_ge k n with h | h
            · exact h
            · have : k = n := by omega
              subst this; omega
      · simp only [hb, Bool.false_eq_true, if_false]
        rw [ih]
        congr 1
        apply propext
        constructor
        · rintro ⟨k, hk, h⟩; exact ⟨k, by omega, h⟩
        · rintro ⟨k, hk, h1, h2⟩
          refine ⟨k, ?_, h1, h2⟩
          rcases Nat.lt_or_ge k n with h | h
          · exact h
          · have : k = n := by omega
            subst this; exact absurd h1 hb
  rw [updateParity, key]
  congr 1
  apply propext
  constructor
  · rintro ⟨k, _, h1, h2⟩
    refine ⟨(isPow2_iff _).mpr ⟨k, h2⟩, ?_⟩
    rw [h2, Nat.and_two_pow, h1]; simp
  · rintro ⟨h1, h2⟩
    obtain ⟨k, hk⟩ := (isPow2_iff _).mp h1
    rw [hk, Nat.and_two_pow] at h2
    have hb : p.testBit k = true := by
      by_contra h; simp [h] at h2
    exact ⟨k, lt_bitlen_of_testBit hb, hb, hk⟩

/-- HB after a push, element by element (R164): the symbol, its parity symbols, the placeholders, the rest. -/
theorem read_pushSymbol (hb : Memory 8) (n : Nat) (d : Byte) (a : Nat) :
    (pushSymbol hb n d).read a =
      if a + 1 = pushPosition n then d
      else if isPow2 (a + 1) = true ∧ pushPosition n &&& (a + 1) ≠ 0 then (if n ≤ a then 0 else hb.read a) ^^^ d
      else if n ≤ a ∧ a < pushPosition n then 0 else hb.read a := by
  obtain ⟨g1, g2, g3⟩ := pushPosition_spec n
  rw [pushSymbol, read_updateParity _ g2, read_write, read_fill]
  have hpos : pushPosition n = n + padCount n + 1 := rfl
  by_cases h1 : a + 1 = pushPosition n
  · have : isPow2 (a + 1) = false := h1 ▸ g2
    have ha : a = pushPosition n - 1 := by omega
    rw [if_pos h1, if_pos ha, if_neg (by simp [this])]
  · have ha : ¬ a = pushPosition n - 1 := by omega
    simp only [h1, ha, if_false]
    by_cases h2 : isPow2 (a + 1) = true ∧ pushPosition n &&& (a + 1) ≠ 0
    · rw [if_pos h2, if_pos h2]
      have hle : a + 1 ≤ pushPosition n := by
        obtain ⟨k, hk⟩ := (isPow2_iff _).mp h2.1
        have h3 := h2.2
        rw [hk, Nat.and_two_pow] at h3
        have hb : (pushPosition n).testBit k = true := by by_contra h; simp [h] at h3
        rw [hk]; exact Nat.ge_two_pow_of_testBit hb
      by_cases h3 : n ≤ a
      · have : n ≤ a ∧ a < n + padCount n := by omega
        simp [h3, this]
      · have : ¬ (n ≤ a ∧ a < n + padCount n) := by omega
        simp [h3]
    · rw [if_neg h2, if_neg h2]
      congr 1
      apply propext
      omega

/-- Pushing keeps HB canonical. -/
theorem wf_pushSymbol (hb : Memory 8) (n : Nat) (d : Byte) (h : hb.wf) : (pushSymbol hb n d).wf := by
  have fold : ∀ (l : List Nat) (m : Memory 8), m.wf → (l.foldl
      (fun m k => if (pushPosition n).testBit k && 2 ^ k != pushPosition n then m.write (2 ^ k - 1) (m.read (2 ^ k - 1) ^^^ d)
        else m) m).wf := by
    intro l
    induction l with
    | nil => exact fun m hm => hm
    | cons k l ih =>
      intro m hm
      rw [List.foldl_cons]
      apply ih
      split
      · exact wf_write _ _ _ hm
      · exact hm
  exact fold _ _ (wf_write _ _ _ (wf_fill _ _ _ _ h))

/-- Pushing writes nothing at or above the new length. -/
theorem bounded_pushSymbol (hb : Memory 8) (n bound : Nat) (d : Byte) (hn : pushPosition n ≤ bound) (h : ∀ c ∈ hb, c.1 < bound) :
    ∀ c ∈ pushSymbol hb n d, c.1 < bound := by
  have hpos : pushPosition n = n + padCount n + 1 := rfl
  have fold : ∀ (l : List Nat) (m : Memory 8), (∀ c ∈ m, c.1 < bound) → ∀ c ∈ (l.foldl
      (fun m k => if (pushPosition n).testBit k && 2 ^ k != pushPosition n then m.write (2 ^ k - 1) (m.read (2 ^ k - 1) ^^^ d)
        else m) m), c.1 < bound := by
    intro l
    induction l with
    | nil => exact fun m hm => hm
    | cons k l ih =>
      intro m hm
      rw [List.foldl_cons]
      apply ih
      split
      · rename_i hk
        simp only [Bool.and_eq_true] at hk
        have := Nat.ge_two_pow_of_testBit hk.1
        have := Nat.two_pow_pos k
        exact bounded_write _ _ _ _ (by omega) hm
      · exact hm
  exact fold _ _ (bounded_write _ _ _ _ (by omega) (bounded_fill _ _ _ _ _ (by omega) h))

end Sys2Proof.Machine
end

