-- ==== Sys2Proof/Laws/PerInstr.lean ====
section
/-! SUPPORT. Facts about every command as syntax, one lemma per constructor. -/

/-- The opcode byte of a command's word is that of its row of R75. -/
def Sys2Proof.Laws.OpcodeByte.Statement (i : Sys2Proof.Instr) : Prop :=
  Sys2Proof.fieldOp (Sys2Proof.encode i) = Sys2Proof.Laws.opcodeOf i

namespace Sys2Proof.Laws.OpcodeByte

theorem gfmul (rd : XReg) (rs1 : XReg) (rs2 : XReg) : Statement (.gfmul rd rs1 rs2) := fieldOp_wordR _ _ _ _
theorem gfinv (rd : XReg) (rs1 : XReg) : Statement (.gfinv rd rs1) := fieldOp_wordR _ _ _ _
theorem gfexp (rd : XReg) (rs1 : XReg) : Statement (.gfexp rd rs1) := fieldOp_wordR _ _ _ _
theorem gflog (rd : XReg) (rs1 : XReg) : Statement (.gflog rd rs1) := fieldOp_wordR _ _ _ _
theorem f31add (rd : XReg) (rs1 : XReg) (rs2 : XReg) : Statement (.f31add rd rs1 rs2) := fieldOp_wordR _ _ _ _
theorem f31sub (rd : XReg) (rs1 : XReg) (rs2 : XReg) : Statement (.f31sub rd rs1 rs2) := fieldOp_wordR _ _ _ _
theorem f31mul (rd : XReg) (rs1 : XReg) (rs2 : XReg) : Statement (.f31mul rd rs1 rs2) := fieldOp_wordR _ _ _ _
theorem f31div (rd : XReg) (rs1 : XReg) (rs2 : XReg) : Statement (.f31div rd rs1 rs2) := fieldOp_wordR _ _ _ _
theorem pzero (pd : PReg) : Statement (.pzero pd) := fieldOp_wordR _ _ _ _
theorem psetc (pd : PReg) (rs1 : XReg) (rs2 : XReg) : Statement (.psetc pd rs1 rs2) := fieldOp_wordR _ _ _ _
theorem pgetc (rd : XReg) (ps1 : PReg) (rs2 : XReg) : Statement (.pgetc rd ps1 rs2) := fieldOp_wordR _ _ _ _
theorem peval (rd : XReg) (ps1 : PReg) (rs2 : XReg) : Statement (.peval rd ps1 rs2) := fieldOp_wordR _ _ _ _
theorem pshift (pd : PReg) (ps1 : PReg) : Statement (.pshift pd ps1) := fieldOp_wordR _ _ _ _
theorem padd (pd : PReg) (ps1 : PReg) (ps2 : PReg) : Statement (.padd pd ps1 ps2) := fieldOp_wordR _ _ _ _
theorem pmul (pd : PReg) (ps1 : PReg) (ps2 : PReg) : Statement (.pmul pd ps1 ps2) := fieldOp_wordR _ _ _ _
theorem pscale (pd : PReg) (ps1 : PReg) (rs2 : XReg) : Statement (.pscale pd ps1 rs2) := fieldOp_wordR _ _ _ _
theorem picpt (pd : PReg) (rs1 : XReg) : Statement (.picpt pd rs1) := fieldOp_wordR _ _ _ _
theorem pimp (pd : PReg) (rs1 : XReg) (rs2 : XReg) : Statement (.pimp pd rs1 rs2) := fieldOp_wordR _ _ _ _
theorem hclr : Statement (.hclr) := fieldOp_wordR _ _ _ _
theorem hpush (rs1 : XReg) : Statement (.hpush rs1) := fieldOp_wordR _ _ _ _
theorem happ (rs1 : XReg) : Statement (.happ rs1) := fieldOp_wordR _ _ _ _
theorem hget (rd : XReg) (rs1 : XReg) : Statement (.hget rd rs1) := fieldOp_wordR _ _ _ _
theorem hprop : Statement (.hprop) := fieldOp_wordR _ _ _ _
theorem hdbits (rd : XReg) (rs1 : XReg) : Statement (.hdbits rd rs1) := fieldOp_wordR _ _ _ _
theorem hst (rs1 : XReg) : Statement (.hst rs1) := fieldOp_wordR _ _ _ _
theorem lda (rd : XReg) (rs1 : XReg) : Statement (.lda rd rs1) := fieldOp_wordR _ _ _ _
theorem sta (rs1 : XReg) (rs2 : XReg) : Statement (.sta rs1 rs2) := fieldOp_wordR _ _ _ _
theorem ldb (rd : XReg) (rs1 : XReg) : Statement (.ldb rd rs1) := fieldOp_wordR _ _ _ _
theorem stb (rs1 : XReg) (rs2 : XReg) : Statement (.stb rs1 rs2) := fieldOp_wordR _ _ _ _
theorem xcross : Statement (.xcross) := fieldOp_wordR _ _ _ _
theorem xuncross : Statement (.xuncross) := fieldOp_wordR _ _ _ _
theorem ccaddr (rd : XReg) (rs1 : XReg) (rs2 : XReg) : Statement (.ccaddr rd rs1 rs2) := fieldOp_wordR _ _ _ _
theorem whiten (rd : XReg) (rs1 : XReg) (rs2 : XReg) : Statement (.whiten rd rs1 rs2) := fieldOp_wordR _ _ _ _
theorem unwhiten (rd : XReg) (rs1 : XReg) (rs2 : XReg) : Statement (.unwhiten rd rs1 rs2) := fieldOp_wordR _ _ _ _
theorem whitenb : Statement (.whitenb) := fieldOp_wordR _ _ _ _
theorem unwhitenb : Statement (.unwhitenb) := fieldOp_wordR _ _ _ _
theorem oddmul (rd : XReg) (rs1 : XReg) (rs2 : XReg) : Statement (.oddmul rd rs1 rs2) := fieldOp_wordR _ _ _ _
theorem odddiv (rd : XReg) (rs1 : XReg) (rs2 : XReg) : Statement (.odddiv rd rs1 rs2) := fieldOp_wordR _ _ _ _
theorem li (rd : XReg) (imm16 : Half) : Statement (.li rd imm16) := fieldOp_wordI _ _ _
theorem lih (rd : XReg) (imm16 : Half) : Statement (.lih rd imm16) := fieldOp_wordI _ _ _
theorem rd (rs1 : XReg) : Statement (.rd rs1) := fieldOp_wordR _ _ _ _
theorem csrr (rd : XReg) (csr : CsrNum) : Statement (.csrr rd csr) := fieldOp_wordC _ _ _ _
theorem csrw (csr : CsrNum) (rs1 : XReg) : Statement (.csrw csr rs1) := fieldOp_wordC _ _ _ _

end Sys2Proof.Laws.OpcodeByte
end

