-- ==== Sys2Proof/Laws/Poly.lean ====
section
/-! SUPPORT. What the polynomial operations compute, said once in the field `ZMod 31`: coefficients, value at a point, product. -/

namespace Sys2Proof.Machine

/-! ## Int31 as an element of the field -/

/-- An Int31 as an element of the field of 31 elements. -/
def toField (a : F31) : ZMod 31 := (a.val : ZMod 31)

theorem toField_injective {a b : F31} (h : toField a = toField b) : a = b := by
  have := (ZMod.natCast_eq_natCast_iff' a.val b.val 31).mp h
  rw [Nat.mod_eq_of_lt a.isLt, Nat.mod_eq_of_lt b.isLt] at this
  exact Fin.ext this

@[simp] theorem toField_zero : toField 0 = 0 := by simp [toField]

@[simp] theorem toField_one : toField 1 = 1 := by simp [toField]

@[simp] theorem toField_eq_zero {a : F31} : toField a = 0 ↔ a = 0 :=
  ⟨fun h => toField_injective (by simpa using h), fun h => by simp [h]⟩

@[simp] theorem toField_add (a b : F31) : toField (a + b) = toField a + toField b := by
  simp [toField, Fin.val_add, ZMod.natCast_mod]

@[simp] theorem toField_mul (a b : F31) : toField (a * b) = toField a * toField b := by
  simp [toField, Fin.val_mul, ZMod.natCast_mod]

@[simp] theorem toField_neg (a : F31) : toField (-a) = - toField a := by
  have : toField (-a) + toField a = 0 := by rw [← toField_add, neg_add_cancel, toField_zero]
  exact eq_neg_of_add_eq_zero_left this

@[simp] theorem toField_sub (a b : F31) : toField (a - b) = toField a - toField b := by
  have : toField (a - b) + toField b = toField a := by rw [← toField_add, sub_add_cancel]
  exact eq_sub_of_add_eq this

/-- The number of an Int31 is determined by its element of the field. -/
theorem val_eq_of_toField {a : F31} {n : Nat} (h : toField a = (n : ZMod 31)) : a.val = n % 31 := by
  have := (ZMod.natCast_eq_natCast_iff' a.val n 31).mp h
  rwa [Nat.mod_eq_of_lt a.isLt] at this

/-- `f31Inv` is the inverse in the field. -/
theorem toField_f31Inv {b : F31} (h : b ≠ 0) : toField (f31Inv b) * toField b = 1 := by
  have : ∀ b : F31, b ≠ 0 → f31Inv b * b = 1 := by decide
  rw [← toField_mul, this b h, toField_one]

/-! ## Coefficients -/

theorem coeff_polyOf (f : Nat → F31) (k : Nat) : coeff (polyOf f) k = if k < 30 then f k else 0 := by
  by_cases h : k < 30 <;> simp [coeff, polyOf, h]

theorem coeff_polyOf_of_lt (f : Nat → F31) {k : Nat} (h : k < 30) : coeff (polyOf f) k = f k := by simp [coeff_polyOf, h]

theorem coeff_of_le (q : Poly31) {k : Nat} (h : 30 ≤ k) : coeff q k = 0 := by simp [coeff, Nat.not_lt.mpr h]

/-- A polynomial is its coefficients. -/
theorem poly_ext {q r : Poly31} (h : ∀ k, k < 30 → coeff q k = coeff r k) : q = r := by
  apply Vector.ext
  intro k hk
  simpa [coeff, hk] using h k hk

/-! ## The value at a point -/

/-- The value of a polynomial at a point of the field. -/
def evalZ (q : Poly31) (t : ZMod 31) : ZMod 31 := ∑ k ∈ Finset.range 30, toField (coeff q k) * t ^ k

theorem horner_eq_sum (q : Poly31) (t : F31) (n : Nat) (acc : F31) :
    toField ((List.range n).reverse.foldl (fun acc k => acc * t + coeff q k) acc) =
      toField acc * toField t ^ n + ∑ k ∈ Finset.range n, toField (coeff q k) * toField t ^ k := by
  induction n generalizing acc with
  | zero => simp
  | succ n ih =>
    rw [List.range_succ, List.reverse_append, List.reverse_singleton, List.singleton_append, List.foldl_cons, ih,
      Finset.sum_range_succ, toField_add, toField_mul]
    ring

/-- PEVAL's Horner scheme computes the value at the point (R135). -/
theorem toField_polyEval (q : Poly31) (t : F31) : toField (polyEval q t) = evalZ q (toField t) := by
  rw [polyEval, horner_eq_sum]; simp [evalZ]

/-! ## Products -/

theorem toField_list_sum (l : List F31) : toField l.sum = (l.map toField).sum := by
  induction l with
  | nil => simp
  | cons a l ih => simp [ih]

/-- The coefficients of the exact product (R138). -/
theorem toField_productCoeff (q r : Poly31) (k : Nat) :
    toField (productCoeff q r k) = ∑ i ∈ Finset.range (k + 1), toField (coeff q i) * toField (coeff r (k - i)) := by
  rw [productCoeff, toField_list_sum, List.map_map]
  have sum_eq : ∀ (f : Nat → ZMod 31) (n : Nat), ((List.range n).map f).sum = ∑ i ∈ Finset.range n, f i := by
    intro f n
    induction n with
    | zero => simp
    | succ n ih => rw [List.range_succ, List.map_append, List.sum_append, ih, Finset.sum_range_succ]; simp
  rw [sum_eq]
  simp

/-- What PMUL's overflow search finds (R138). -/
theorem productOverflow_eq_none {q r : Poly31} :
    productOverflow q r = none ↔ ∀ k, 30 ≤ k → k ≤ 58 → productCoeff q r k = 0 := by
  simp only [productOverflow, List.find?_eq_none, List.mem_reverse, List.mem_range', decide_eq_true_eq, not_not]
  constructor
  · intro h k h1 h2; exact h k ⟨k - 30, by omega, by omega⟩
  · rintro h k ⟨i, hi, rfl⟩; exact h _ (by omega) (by omega)

theorem find_reverse_range' (p : Nat → Bool) (a n k : Nat) (h1 : a ≤ k) (h2 : k < a + n) (hp : p k = true)
    (ht : ∀ j, k < j → j < a + n → p j = false) : (List.range' a n).reverse.find? p = some k := by
  induction n with
  | zero => omega
  | succ n ih =>
    rw [List.range'_concat, List.reverse_append, List.reverse_singleton, List.singleton_append, List.find?_cons]
    by_cases hk : k = a + n
    · subst hk; simp [hp]
    · have : p (a + 1 * n) = false := ht _ (by omega) (by omega)
      simp only [this]
      exact ih (by omega) (fun j hj hj' => ht j hj (by omega))

/-- PMUL reports the largest k above 29 at which the product is not 0 (R138). -/
theorem productOverflow_eq_some {q r : Poly31} {d : Nat} (h1 : 30 ≤ d) (h2 : d ≤ 58) (hd : productCoeff q r d ≠ 0)
    (ht : ∀ k, d < k → k ≤ 58 → productCoeff q r k = 0) : productOverflow q r = some d :=
  find_reverse_range' _ 30 29 d h1 (by omega) (by simpa using hd) (fun j hj hj' => by simpa using ht j hj (by omega))

/-- Multiplying by `X - i`, when the top coefficient is 0, multiplies the value by `t - i`. -/
theorem evalZ_timesInterceptor (q : Poly31) (i : F31) (h : coeff q 29 = 0) (t : ZMod 31) :
    evalZ (timesInterceptor q i) t = evalZ q t * (t - toField i) := by
  have e : ∀ k ∈ Finset.range 30, toField (coeff (timesInterceptor q i) k) * t ^ k =
      (if k = 0 then 0 else toField (coeff q (k - 1)) * t ^ k) - toField i * (toField (coeff q k) * t ^ k) := by
    intro k hk
    rw [timesInterceptor, coeff_polyOf_of_lt _ (Finset.mem_range.mp hk)]
    by_cases h0 : k = 0
    · subst h0; simp
    · simp [h0]; ring
  rw [evalZ, Finset.sum_congr rfl e, Finset.sum_sub_distrib, ← Finset.mul_sum, Finset.sum_range_succ']
  have s : evalZ q t = ∑ k ∈ Finset.range 29, toField (coeff q k) * t ^ k := by
    rw [evalZ, Finset.sum_range_succ, h]; simp
  have u : ∑ k ∈ Finset.range 29, (if k + 1 = 0 then 0 else toField (coeff q (k + 1 - 1)) * t ^ (k + 1)) = evalZ q t * t := by
    rw [s, Finset.sum_mul]; apply Finset.sum_congr rfl; intro k _; simp [pow_succ]; ring
  rw [u, show ∑ k ∈ Finset.range 30, toField (coeff q k) * t ^ k = evalZ q t from rfl]
  simp; ring

/-- Scaling scales the value. -/
theorem evalZ_polyScale (q : Poly31) (c : F31) (t : ZMod 31) : evalZ (polyScale q c) t = evalZ q t * toField c := by
  rw [evalZ, evalZ, Finset.sum_mul]
  apply Finset.sum_congr rfl
  intro k hk
  rw [polyScale, coeff_polyOf_of_lt _ (Finset.mem_range.mp hk), toField_mul]; ring

end Sys2Proof.Machine
end

