-- ==== Sys2Proof/Laws/Propagate.lean ====
section
/-! SUPPORT. What the parts of HPROP compute, said once: the largest magnitude, the quantiser, the products as finite products. -/

namespace Sys2Proof.Machine

/-! ## The largest magnitude (R170) -/

theorem maxMagnitude_aux (l : List Rat) (m : Rat) (hm : 0 ≤ m) :
    m ≤ l.foldl (fun m r => max m |r|) m ∧ (∀ r ∈ l, |r| ≤ l.foldl (fun m r => max m |r|) m) ∧
      (l.foldl (fun m r => max m |r|) m = m ∨ ∃ r ∈ l, |r| = l.foldl (fun m r => max m |r|) m) := by
  induction l generalizing m with
  | nil => simp
  | cons a l ih =>
    obtain ⟨h1, h2, h3⟩ := ih (max m |a|) (le_max_of_le_left hm)
    rw [List.foldl_cons]
    refine ⟨le_trans (le_max_left _ _) h1, ?_, ?_⟩
    · intro r hr
      rcases List.mem_cons.mp hr with rfl | hr
      · exact le_trans (le_max_right _ _) h1
      · exact h2 r hr
    · rcases h3 with h3 | ⟨r, hr, h3⟩
      · rw [h3]
        rcases max_choice m |a| with h | h
        · exact Or.inl h
        · exact Or.inr ⟨a, List.mem_cons_self, h.symm⟩
      · exact Or.inr ⟨r, List.mem_cons_of_mem _ hr, h3⟩

theorem maxMagnitude_nonneg (l : List Rat) : 0 ≤ maxMagnitude l := (maxMagnitude_aux l 0 le_rfl).1

theorem le_maxMagnitude {l : List Rat} {r : Rat} (h : r ∈ l) : |r| ≤ maxMagnitude l := (maxMagnitude_aux l 0 le_rfl).2.1 r h

/-- The largest magnitude of a list that is not empty is reached. -/
theorem exists_maxMagnitude {l : List Rat} (h : l ≠ []) : ∃ r ∈ l, |r| = maxMagnitude l := by
  rcases (maxMagnitude_aux l 0 le_rfl).2.2 with h0 | h1
  · obtain ⟨a, l', rfl⟩ := List.exists_cons_of_ne_nil h
    refine ⟨a, List.mem_cons_self, ?_⟩
    have h2 : |a| ≤ maxMagnitude (a :: l') := le_maxMagnitude List.mem_cons_self
    have h3 : maxMagnitude (a :: l') = 0 := h0
    rw [h3] at h2 ⊢
    exact le_antisymm h2 (abs_nonneg a)
  · exact h1

/-- Dividing by the largest magnitude gives at most 1 in magnitude. -/
theorem abs_normalise_le {m r : Rat} (h : |r| ≤ m) : |normalise m r| ≤ 1 := by
  unfold normalise
  split
  · rename_i hm
    rw [abs_div, abs_of_pos hm, div_le_one hm]; exact h
  · simp

/-! ## The quantiser (R171) -/

theorem quantiseMagnitude_le (a : Rat) (top : Nat) : quantiseMagnitude a top ≤ top := by
  induction top with
  | zero => exact le_rfl
  | succ q ih => unfold quantiseMagnitude; split <;> omega

theorem quantiseMagnitude_meets {a : Rat} (h : 0 ≤ a) (top : Nat) :
    (2 * (quantiseMagnitude a top : Rat) - 1) ^ 3 ≤ 254 ^ 3 * a := by
  induction top with
  | zero => simp only [quantiseMagnitude]; norm_num; linarith
  | succ q ih =>
    unfold quantiseMagnitude; split
    · rename_i hq; push_cast; exact hq
    · exact ih

theorem quantiseMagnitude_greatest {a : Rat} {top k : Nat} (hk : k ≤ top) (h : (2 * (k : Rat) - 1) ^ 3 ≤ 254 ^ 3 * a) :
    k ≤ quantiseMagnitude a top := by
  induction top with
  | zero => omega
  | succ q ih =>
    unfold quantiseMagnitude
    by_cases hk' : k = q + 1
    · subst hk'; push_cast at h; rw [if_pos h]
    · split
      · omega
      · exact ih (by omega)

/-- The quantiser answers the integer R171 describes, for every rational of magnitude at most 1. -/
theorem quantise_spec {r : Rat} (h : |r| ≤ 1) : QuantisedTo r (quantise r) := by
  have ha := abs_nonneg r
  have bound : 254 ^ 3 * |r| < (2 * (quantiseMagnitude |r| 127 : Rat) + 1) ^ 3 := by
    by_contra hc
    rw [not_lt] at hc
    have hq := quantiseMagnitude_le |r| 127
    by_cases h127 : quantiseMagnitude |r| 127 = 127
    · rw [h127] at hc; norm_num at hc; linarith
    · have : (2 * ((quantiseMagnitude |r| 127 + 1 : Nat) : Rat) - 1) ^ 3 ≤ 254 ^ 3 * |r| := by
        push_cast
        calc (2 * ((quantiseMagnitude |r| 127 : Rat) + 1) - 1) ^ 3 = (2 * (quantiseMagnitude |r| 127 : Rat) + 1) ^ 3 := by ring
          _ ≤ _ := hc
      have := quantiseMagnitude_greatest (top := 127) (by omega) this
      omega
  by_cases h0 : r = 0
  · subst h0; simp [QuantisedTo, quantise]; norm_num
  · unfold QuantisedTo quantise
    rw [if_neg h0]
    by_cases hp : 0 < r
    · rw [if_pos hp]
      refine ⟨fun _ => by positivity, fun hn => by linarith, ?_, ?_⟩
      · simpa using quantiseMagnitude_meets ha 127
      · simpa using bound
    · rw [if_neg hp]
      have : r < 0 := lt_of_le_of_ne (not_lt.mp hp) h0
      refine ⟨fun hn => by linarith, fun _ => by simp, ?_, ?_⟩
      · simpa using quantiseMagnitude_meets ha 127
      · simpa using bound

theorem quantise_bounds (r : Rat) : -127 ≤ quantise r ∧ quantise r ≤ 127 := by
  have := quantiseMagnitude_le |r| 127
  unfold quantise
  split
  · omega
  · split <;> omega

theorem quantise_one : quantise 1 = 127 := by
  have h := quantiseMagnitude_le |(1 : Rat)| 127
  have g : 127 ≤ quantiseMagnitude |(1 : Rat)| 127 := quantiseMagnitude_greatest le_rfl (by norm_num)
  have : quantiseMagnitude |(1 : Rat)| 127 = 127 := by omega
  simp only [quantise, this]; norm_num

theorem quantise_neg (r : Rat) : quantise (-r) = -quantise r := by
  unfold quantise
  by_cases h0 : r = 0
  · simp [h0]
  · rcases lt_or_gt_of_ne h0 with h | h
    · have h1 : ¬ 0 < r := by linarith
      have h2 : 0 < -r := by linarith
      simp [h0, h1, h]
    · have h1 : ¬ 0 < -r := by linarith
      have h2 : ¬ r < 0 := by linarith
      simp [h0, h, h2]

@[simp] theorem quantise_zero : quantise 0 = 0 := by simp [quantise]

/-- A quantised belief is stored and read back as itself. -/
theorem toInt_ofInt_quantise (r : Rat) : (BitVec.ofInt 8 (quantise r)).toInt = quantise r := by
  obtain ⟨h1, h2⟩ := quantise_bounds r
  rw [BitVec.toInt_ofInt]
  exact Int.bmod_eq_of_le (by norm_num; omega) (by norm_num; omega)

/-! ## The products of R170 -/

theorem prod_filter_range' (p : Nat → Bool) (f : Nat → Rat) (n : Nat) :
    (((List.range' 1 n).filter p).map f).prod = ∏ j ∈ (Finset.Icc 1 n).filter (fun j => p j = true), f j := by
  induction n with
  | zero => simp
  | succ n ih =>
    rw [List.range'_concat, List.filter_append, List.map_append, List.prod_append, ih,
      ← Finset.insert_Icc_right_eq_Icc_add_one (by omega), Finset.filter_insert]
    have e : 1 + 1 * n = n + 1 := by omega
    rw [e]
    by_cases h : p (n + 1) = true
    · rw [if_pos h, Finset.prod_insert (by simp)]; simp [h, mul_comm]
    · rw [if_neg h]; simp [h]

theorem prod_range (f : Nat → Rat) (n : Nat) : ((List.range n).map f).prod = ∏ k ∈ Finset.range n, f k := by
  induction n with
  | zero => simp
  | succ n ih => rw [List.range_succ, List.map_append, List.prod_append, ih, Finset.prod_range_succ]; simp

/-- The model's syndrome is that of R170. -/
theorem syndrome_eq (s : State) (k : Nat) : syndrome (prior s.hb) s.hammingLen k = s.specSyndrome k :=
  prod_filter_range' (fun j => j.testBit k) (prior s.hb) s.hammingLen

theorem length_syndromes (p : Nat → Rat) (len : Nat) : (syndromes p len).length = bitlen len := by simp [syndromes]

/-- The model's normalised syndromes, entry by entry (R170). -/
theorem getD_normalisedSyndromes (s : State) {k : Nat} (hk : k < bitlen s.hammingLen) :
    (normalisedSyndromes (prior s.hb) s.hammingLen).getD k 0 =
      normalise (maxMagnitude (syndromes (prior s.hb) s.hammingLen)) (s.specSyndrome k) := by
  simp [normalisedSyndromes, syndromes, List.getD_eq_getElem?_getD, hk, syndrome_eq]

/-- The model's belief is that of R170, for the model's largest syndrome magnitude. -/
theorem belief_eq (s : State) (j : Nat) :
    belief (prior s.hb) (normalisedSyndromes (prior s.hb) s.hammingLen) j =
      s.specBelief (maxMagnitude (syndromes (prior s.hb) s.hammingLen)) j := by
  have e : errorBelief (normalisedSyndromes (prior s.hb) s.hammingLen) j =
      s.specError (maxMagnitude (syndromes (prior s.hb) s.hammingLen)) j := by
    rw [errorBelief, State.specError, prod_range]
    have hl : (normalisedSyndromes (prior s.hb) s.hammingLen).length = bitlen s.hammingLen := by
      simp [normalisedSyndromes, length_syndromes]
    rw [hl, bitlen_eq_size]
    apply Finset.prod_congr rfl
    intro k hk
    rw [getD_normalisedSyndromes s (by rw [bitlen_eq_size]; exact Finset.mem_range.mp hk)]
    rfl
  rw [belief, State.specBelief, e]; rfl

/-- Entry `k` of the model's normalised beliefs belongs to position `k + 1` (R170). -/
theorem getD_normalisedBeliefs (s : State) {k : Nat} (hk : k < s.hammingLen) :
    (normalisedBeliefs (prior s.hb) s.hammingLen).getD k 0 =
      normalise (maxMagnitude (beliefs (prior s.hb) s.hammingLen))
        (s.specBelief (maxMagnitude (syndromes (prior s.hb) s.hammingLen)) (k + 1)) := by
  have : 1 + k = k + 1 := by omega
  simp [normalisedBeliefs, beliefs, positions, List.getD_eq_getElem?_getD, hk, belief_eq, this]

end Sys2Proof.Machine
end

