-- ==== Sys2Proof/Laws/Safety.lean ====
section
/-! SUPPORT. How the terms of the statements are met: a fault taken, an answer given, a register set, a word assembled. -/

namespace Sys2Proof.Machine

/-! ## What a command answers -/

/-- A command whose body fails a check takes that fault. -/
theorem takesFault_of {i : Instr} {s : State} {body : Except Raised State} {e : Raised} (hs : s.fstat = false)
    (h : exec i s = command i s body) (hb : body = .error e) : TakesFault i s e.cause.code e.info := by
  rw [TakesFault, h, hb, command_error hs, takeFault_eq hs]

/-- A command whose body makes a state answers it. -/
theorem answers_of {i : Instr} {s t : State} {body : Except Raised State} {post : State → Prop} (hs : s.fstat = false)
    (h : exec i s = command i s body) (hb : body = .ok t) (hp : post t) : Answers i s post :=
  ⟨t, by rw [h, hb, command_ok hs], hp⟩

/-! ## What a record update changes -/

theorem setsX_setX (s : State) (rd : XReg) (v : Word) : SetsX rd v s (s.setX rd v) :=
  ⟨getX_setX_same s rd v, fun _ h => getX_setX_of_ne s v h, rfl⟩

theorem setsXTo_setX (s : State) (rd : XReg) (v : Word) {post : Word → Prop} (h : post v) :
    SetsXTo rd post s (s.setX rd v) :=
  ⟨by rw [getX_setX_same]; exact h, fun _ h => getX_setX_of_ne s v h, rfl⟩

theorem setsP_setP (s : State) (pd : PReg) (q : Poly31) {c : Nat → F31} (h : ∀ k, k < 30 → coeff q k = c k) :
    SetsP pd c s (s.setP pd q) :=
  ⟨by rw [getP_setP_same]; exact h, fun _ h => getP_setP_of_ne s q h, rfl⟩

/-! ## Assembled words (R75) -/

theorem wordR_eq_assembled (op : BitVec 8) (a b c : BitVec 4) :
    wordR op a b c = assembled op.toNat a.toNat b.toNat c.toNat := by
  apply BitVec.eq_of_getLsbD_eq
  intro i hi
  have ho : ∀ j, op.toNat.testBit j = op.getLsbD j := fun _ => rfl
  have ha : ∀ j, a.toNat.testBit j = a.getLsbD j := fun _ => rfl
  have hb : ∀ j, b.toNat.testBit j = b.getLsbD j := fun _ => rfl
  have hc : ∀ j, c.toNat.testBit j = c.getLsbD j := fun _ => rfl
  simp only [wordR, assembled, BitVec.getLsbD_append, BitVec.getLsbD_ofNat, Nat.testBit_or, Nat.testBit_shiftLeft, ho, ha, hb, hc]
  interval_cases i <;> simp

theorem toNat_pfield (p : PReg) : (pfield p).toNat = p.toNat := by
  rw [pfield, BitVec.toNat_append]; simp

theorem wordI_eq_assembled (op : BitVec 8) (a : BitVec 4) (imm : Half) :
    wordI op a imm = BitVec.ofNat 32 (op.toNat ||| a.toNat <<< 8 ||| imm.toNat <<< 16) := by
  apply BitVec.eq_of_getLsbD_eq
  intro i hi
  have ho : ∀ j, op.toNat.testBit j = op.getLsbD j := fun _ => rfl
  have ha : ∀ j, a.toNat.testBit j = a.getLsbD j := fun _ => rfl
  have hc : ∀ j, imm.toNat.testBit j = imm.getLsbD j := fun _ => rfl
  simp only [wordI, BitVec.getLsbD_append, BitVec.getLsbD_ofNat, Nat.testBit_or, Nat.testBit_shiftLeft, ho, ha, hc]
  interval_cases i <;> simp

theorem wordC_eq_assembled (op : BitVec 8) (a b : BitVec 4) (csr : CsrNum) :
    wordC op a b csr = BitVec.ofNat 32 (op.toNat ||| a.toNat <<< 8 ||| b.toNat <<< 12 ||| csr.toNat <<< 16) := by
  apply BitVec.eq_of_getLsbD_eq
  intro i hi
  have ho : ∀ j, op.toNat.testBit j = op.getLsbD j := fun _ => rfl
  have ha : ∀ j, a.toNat.testBit j = a.getLsbD j := fun _ => rfl
  have hb : ∀ j, b.toNat.testBit j = b.getLsbD j := fun _ => rfl
  have hc : ∀ j, csr.toNat.testBit j = csr.getLsbD j := fun _ => rfl
  simp only [wordC, BitVec.getLsbD_append, BitVec.getLsbD_ofNat, Nat.testBit_or, Nat.testBit_shiftLeft, ho, ha, hb, hc]
  interval_cases i <;> simp

end Sys2Proof.Machine
end

