-- ==== Sys2Proof/Laws/System.lean ====
section
/-! SUPPORT. The control and status registers, said once: which are implemented, which are writable and what a write does. -/

namespace Sys2Proof.Machine

/-- The three writable CSRs: their largest value, and the one field a write changes (R26, R255). -/
theorem csrWritable_some {s : State} {csr : CsrNum} {top : Nat} {write : Half → State}
    (h : csrWritable s csr = some (top, write)) :
    (csr = 0x000 ∧ top = s.cfg.nmax.toNat ∧ write = fun v => { s with nlet := v }) ∨
      (csr = 0x001 ∧ top = 65535 ∧ write = fun v => { s with ccmult := v }) ∨
      (csr = 0x002 ∧ top = 65535 ∧ write = fun v => { s with ccbase := v }) := by
  unfold csrWritable at h
  split at h
  · rename_i e; cases h; exact Or.inl ⟨BitVec.eq_of_toNat_eq e, rfl, rfl⟩
  · rename_i e; cases h; exact Or.inr (Or.inl ⟨BitVec.eq_of_toNat_eq e, rfl, rfl⟩)
  · rename_i e; cases h; exact Or.inr (Or.inr ⟨BitVec.eq_of_toNat_eq e, rfl, rfl⟩)
  · exact absurd h (by simp)

/-- The numbers CSRW refuses (R255). -/
theorem csrWritable_none {s : State} {csr : CsrNum} (h : csr.toNat ∉ [0x000, 0x001, 0x002]) : csrWritable s csr = none := by
  simp only [List.mem_cons, List.not_mem_nil, or_false, not_or] at h
  unfold csrWritable
  split <;> simp_all

/-- The numbers CSRR refuses (R254). -/
theorem csrRead_none {s : State} {csr : CsrNum}
    (h : csr.toNat ∉ [0x000, 0x001, 0x002, 0x010, 0x020, 0x021, 0x022, 0x023, 0xF00, 0xF01, 0xF02]) : csrRead s csr = none := by
  simp only [List.mem_cons, List.not_mem_nil, or_false, not_or] at h
  unfold csrRead
  split <;> simp_all

end Sys2Proof.Machine
end

