-- ==== Sys2Proof/Tests/Slice0.lean ====
section
/-! SUPPORT. Tests on small states: ill-formed parameters refused, one written-out word per command, tables, single steps with the
results of 95_test_vectors.md, and a state that meets the hypotheses of each statement. -/

namespace Sys2Proof.Tests

open Sys2Proof Sys2Proof.Machine

/-! ## Small states -/

/-- The reset state with some operand registers set. -/
def regs (vs : List (XReg × Nat)) : State := vs.foldl (fun s v => s.setXNat v.1 v.2) State.reset

/-- The state after the next step, with the command word `w` presented. -/
def ran (w : Word) (s : State) : State :=
  match step (presentFirst w s) with
  | .next t => t
  | .fault _ => s
  | .refused _ => s

/-- The fault record of a state. -/
def record (s : State) : Bool × Nat × Nat × Nat := (s.fstat, s.fcause.toNat, s.fcmd.toNat, s.finfo.toNat)

/-- A polynomial from its low coefficients. -/
def poly (cs : List F31) : Poly31 := polyOf (fun k => cs.getD k 0)

/-- `s` with polynomial register 0 set. -/
def withP0 (s : State) (q : Poly31) : State := s.setP 0 q

/-- A memory from its low elements. -/
def mem {w : Nat} (vs : List (BitVec w)) : Memory w := Memory.fill [] 0 vs.length (fun k => vs.getD k 0)

/-- `s` with the block `vs` in HB. -/
def withBlock (s : State) (vs : List Byte) : State := { s with hb := mem vs, hlen := BitVec.ofNat 16 vs.length }

/-- `s` with N = 13, CCMULT = 2, CCBASE = 3 and letters in LA and LB. -/
def sized (s : State) (la lb : List Letter) : State := { s with nlet := 13, ccmult := 2, ccbase := 3, la := mem la, lb := mem lb }

/-- The block in HB as numbers. -/
def hbNats (s : State) : List Nat := (List.range s.hammingLen).map (fun k => (s.hb.read k).toNat)

/-- The first 13 letters of LA and of LB as numbers. -/
def laNats (s : State) : List Nat := (List.range 13).map (fun k => (s.la.read k).toNat)

/-- The first 13 letters of LB as numbers. -/
def lbNats (s : State) : List Nat := (List.range 13).map (fun k => (s.lb.read k).toNat)

/-- The low coefficients of polynomial register `p`. -/
def coeffs (s : State) (p : PReg) (n : Nat) : List Nat := (List.range n).map (fun k => (coeff (s.getP p) k).val)

/-- The reset state in the faulted state: cause 3, word 0x00021323, information 20 (program P4). -/
def faulted : State := { State.reset with fstat := true, fcause := 3, fcmd := 0x00021323, finfo := 20 }

/-! ## Ill-formed parameters are refused (R8) -/

theorem test_default_is_well_formed : Config.default.Wf := by decide

theorem test_nmax_12_is_refused : ¬ ({ Config.default with nmax := 12 }).NmaxOk := by decide

theorem test_nmax_13_is_accepted : ({ Config.default with nmax := 13 }).NmaxOk := by decide

theorem test_hcap_2_is_refused : ¬ ({ Config.default with hcap := 2 }).HcapOk := by decide

theorem test_hcap_3_is_accepted : ({ Config.default with hcap := 3 }).HcapOk := by decide

/-- A rotation of the five positions is no involution. -/
theorem test_rotation_is_refused :
    ¬ ({ Config.default with perm := Config.defaultPerm.set 7 #v[1, 2, 3, 4, 0] }).PermOk := by decide

/-- A table entry that is no permutation. -/
theorem test_constant_entry_is_refused :
    ¬ ({ Config.default with perm := Config.defaultPerm.set 0 #v[0, 0, 0, 0, 0] }).PermOk := by decide

/-! ## Decoding: each word written out from R71 and R75 -/

theorem test_decode_gf32 :
    decode 0x00021310 = .ok (.gfmul 3 1 2) ∧ decode 0x00001311 = .ok (.gfinv 3 1) ∧ decode 0x00001312 = .ok (.gfexp 3 1) ∧
      decode 0x00001313 = .ok (.gflog 3 1) := ⟨rfl, rfl, rfl, rfl⟩

theorem test_decode_f31 :
    decode 0x00021320 = .ok (.f31add 3 1 2) ∧ decode 0x00021321 = .ok (.f31sub 3 1 2) ∧
      decode 0x00021322 = .ok (.f31mul 3 1 2) ∧ decode 0x000CBA23 = .ok (.f31div 10 11 12) := ⟨rfl, rfl, rfl, rfl⟩

theorem test_decode_poly_one_source :
    decode 0x00000330 = .ok (.pzero 3) ∧ decode 0x00021031 = .ok (.psetc 0 1 2) ∧ decode 0x00050632 = .ok (.pgetc 6 0 5) ∧
      decode 0x00053633 = .ok (.peval 6 3 5) ∧ decode 0x00002134 = .ok (.pshift 1 2) := ⟨rfl, rfl, rfl, rfl, rfl⟩

theorem test_decode_poly_two_sources :
    decode 0x00010235 = .ok (.padd 2 0 1) ∧ decode 0x00010236 = .ok (.pmul 2 0 1) ∧ decode 0x000F2137 = .ok (.pscale 1 2 15) ∧
      decode 0x00001138 = .ok (.picpt 1 1) ∧ decode 0x00021139 = .ok (.pimp 1 1 2) := ⟨rfl, rfl, rfl, rfl, rfl⟩

theorem test_decode_hamming :
    decode 0x00000040 = .ok .hclr ∧ decode 0x00001041 = .ok (.hpush 1) ∧ decode 0x00001042 = .ok (.happ 1) ∧
      decode 0x00001243 = .ok (.hget 2 1) ∧ decode 0x00000044 = .ok .hprop ∧ decode 0x00001245 = .ok (.hdbits 2 1) ∧
      decode 0x00001046 = .ok (.hst 1) := ⟨rfl, rfl, rfl, rfl, rfl, rfl, rfl⟩

theorem test_decode_letters :
    decode 0x00001250 = .ok (.lda 2 1) ∧ decode 0x00021051 = .ok (.sta 1 2) ∧ decode 0x00001252 = .ok (.ldb 2 1) ∧
      decode 0x00021053 = .ok (.stb 1 2) ∧ decode 0x00000054 = .ok .xcross ∧ decode 0x00000055 = .ok .xuncross ∧
      decode 0x00021356 = .ok (.ccaddr 3 1 2) := ⟨rfl, rfl, rfl, rfl, rfl, rfl, rfl⟩

theorem test_decode_whitening :
    decode 0x00021360 = .ok (.whiten 3 1 2) ∧ decode 0x00021361 = .ok (.unwhiten 3 1 2) ∧ decode 0x00000062 = .ok .whitenb ∧
      decode 0x00000063 = .ok .unwhitenb ∧ decode 0x00021364 = .ok (.oddmul 3 1 2) ∧
      decode 0x00021365 = .ok (.odddiv 3 1 2) := ⟨rfl, rfl, rfl, rfl, rfl, rfl⟩

theorem test_decode_system :
    decode 0x00130170 = .ok (.li 1 19) ∧ decode 0xABCD0171 = .ok (.lih 1 0xABCD) ∧ decode 0x00001072 = .ok (.rd 1) ∧
      decode 0x00200273 = .ok (.csrr 2 0x020) ∧ decode 0x00005074 = .ok (.csrw 0x000 5) := ⟨rfl, rfl, rfl, rfl, rfl⟩

/-- One illegal word of each kind of R77: no opcode, a `zero` field, an unused field, a polynomial field above 3. -/
theorem test_decode_refuses :
    decode 0x00000000 = .error .unassignedOpcode ∧ decode 0xFFFFFFFF = .error .unassignedOpcode ∧
      decode 0x00100010 = .error .nonzeroZeroField ∧ decode 0x00001170 = .error .nonzeroZeroField ∧
      decode 0x10000073 = .error .nonzeroZeroField ∧ decode 0x00011311 = .error .nonzeroUnusedField ∧
      decode 0x00000144 = .error .nonzeroUnusedField ∧ decode 0x00000174 = .error .nonzeroUnusedField ∧
      decode 0x00000430 = .error .polyFieldAbove3 ∧ decode 0x00040235 = .error .polyFieldAbove3 :=
  ⟨rfl, rfl, rfl, rfl, rfl, rfl, rfl, rfl, rfl, rfl⟩

theorem test_decodeTableWord : decodeTableWord 32 0x00021310 = some (.gfmul 3 1 2) ∧ decodeTableWord 32 0x00000075 = none :=
  ⟨rfl, rfl⟩

/-- The bytes of a word on a channel of either order make the word again (R52). -/
theorem test_byte_orders :
    bytesOfWord .little 0x00021310 = [0x10, 0x13, 0x02, 0x00] ∧ bytesOfWord .big 0x00021310 = [0x00, 0x02, 0x13, 0x10] ∧
      wordOfBytes .little 0x10 0x13 0x02 0x00 = 0x00021310 ∧ wordOfBytes .big 0x00 0x02 0x13 0x10 = 0x00021310 := by decide

/-! ## Tables -/

/-- The construction of GF_EXP, and its period (R102). -/
theorem test_gfexp_recurrence :
    (List.range 31).all (fun i =>
      let t := (gfExp i).toNat * 2
      (gfExp ((i + 1) % 31)).toNat == if 32 ≤ t then t ^^^ 37 else t) = true := by decide

/-- GF_LOG is the inverse of GF_EXP (R103). -/
theorem test_gflog_inverts : (List.range 31).all (fun i => gfLog (gfExp i) == i) = true := by decide

/-- Row 19 of GF_MUL as R104 prints it. -/
theorem test_gfmul_row_19 :
    (List.range 32).map (fun b => (gfMul 19 (BitVec.ofNat 5 b)).toNat) =
      [0, 19, 3, 16, 6, 21, 5, 22, 12, 31, 15, 28, 10, 25, 9, 26, 24, 11, 27, 8, 30, 13, 29, 14, 20, 7, 23, 4, 18, 1, 17, 2] := by
  decide

/-- GF_INV as R105 prints it. -/
theorem test_gfinv_table :
    (List.range 32).map (fun a => (gfInv (BitVec.ofNat 5 a)).toNat) =
      [0, 1, 18, 28, 9, 23, 14, 12, 22, 4, 25, 16, 7, 15, 6, 13, 11, 24, 2, 29, 30, 26, 8, 5, 17, 10, 21, 31, 3, 19, 20, 27] := by
  decide

/-- ODDINV inverts every odd number (R229). -/
theorem test_oddinv : (List.range 32).all (fun b => oddmul (oddInvTable.getD b 0) (BitVec.ofNat 5 b) == 0) = true := by decide

/-- The worked bit permutation of R223. -/
theorem test_bit_permutation : permuteBits (selectedPerm Config.default 7) 0b00110 = 0b11000 := by decide

/-! ## GF(32) and F31 (95_test_vectors.md 2.1, 2.2) -/

theorem test_gfmul : (ran 0x00021310 (regs [(1, 19), (2, 7)])).xv 3 = 22 := by decide

theorem test_gfmul_one_register : (ran 0x00011110 (regs [(1, 3)])).xv 1 = 5 := by decide

theorem test_gfinv : (ran 0x00001311 (regs [(1, 19)])).xv 3 = 29 := by decide

theorem test_gfinv_32 : record (ran 0x00001311 (regs [(1, 32)])) = (true, 2, 0x00001311, 32) := by decide

theorem test_gfexp : (ran 0x00001312 (regs [(1, 30)])).xv 3 = 18 := by decide

theorem test_gfexp_31 : record (ran 0x00001312 (regs [(1, 31)])) = (true, 2, 0x00001312, 31) := by decide

theorem test_gflog : (ran 0x00001313 (regs [(1, 3)])).xv 3 = 18 := by decide

theorem test_gflog_0 : record (ran 0x00001313 (regs [])) = (true, 2, 0x00001313, 0) := by decide

theorem test_f31add : (ran 0x00021320 (regs [(1, 20), (2, 25)])).xv 3 = 14 := by decide

theorem test_f31sub : (ran 0x00021321 (regs [(1, 3), (2, 5)])).xv 3 = 29 := by decide

theorem test_f31mul : (ran 0x00021322 (regs [(1, 20), (2, 25)])).xv 3 = 4 := by decide

theorem test_f31div : (ran 0x00021323 (regs [(1, 20), (2, 25)])).xv 3 = 7 := by decide

/-- The operand check comes before the zero check. -/
theorem test_f31div_31_0 : record (ran 0x00021323 (regs [(1, 31), (2, 0)])) = (true, 2, 0x00021323, 31) := by decide

/-! ## Poly31 (2.3) -/

theorem test_pzero : coeffs (ran 0x00000030 (withP0 State.reset (poly [3, 0, 5]))) 0 3 = [0, 0, 0] := by decide

theorem test_psetc : (coeff ((ran 0x00021031 (regs [(1, 29), (2, 30)])).getP 0) 29).val = 30 := by decide

theorem test_psetc_30 : record (ran 0x00021031 (regs [(1, 30), (2, 5)])) = (true, 2, 0x00021031, 30) := by decide

theorem test_pgetc : (ran 0x00050632 (withP0 (regs [(5, 2)]) (poly [3, 0, 5]))).xv 6 = 5 := by decide

theorem test_peval : (ran 0x00050633 (withP0 (regs [(5, 30)]) (poly [3, 0, 5]))).xv 6 = 8 := by decide

theorem test_pshift : coeffs (ran 0x00000134 (withP0 State.reset (poly [3, 0, 5]))) 1 4 = [0, 3, 0, 5] := by decide

theorem test_padd : coeffs (ran 0x00000235 (withP0 State.reset (poly [30, 0, 5]))) 2 3 = [29, 0, 10] := by decide

theorem test_pmul :
    coeffs (ran 0x00010236 ((withP0 State.reset (poly [3, 0, 5])).setP 1 (poly [30, 1]))) 2 4 = [28, 3, 26, 5] := by decide

theorem test_pmul_overflow :
    record (ran 0x00000236 (withP0 State.reset (polyOf (fun k => if k = 15 then 1 else 0)))) = (true, 4, 0x00000236, 30) := by
  decide

theorem test_pscale : coeffs (ran 0x00030137 (withP0 (regs [(3, 4)]) (poly [3, 0, 5]))) 1 3 = [12, 0, 20] := by decide

theorem test_picpt : coeffs (ran 0x00001138 (regs [(1, 3)])) 1 3 = [28, 1, 0] := by decide

theorem test_pimp : coeffs (ran 0x00021139 (regs [(1, 0b1011), (2, 1)])) 1 4 = [0, 17, 15, 0] := by decide

theorem test_pimp_overflow : record (ran 0x00021139 (regs [(1, 0x7FFFFFFF)])) = (true, 4, 0x00021139, 30) := by decide

/-! ## Hamming (2.4, 2.5) -/

theorem test_hclr : (ran 0x00000040 (withBlock State.reset [1, 1, 1])).hammingLen = 0 := by decide

theorem test_hpush_first : hbNats (ran 0x00001041 (regs [(1, 1)])) = [1, 1, 1] := by decide

theorem test_hpush_seventh : hbNats (ran 0x00001041 (withBlock (regs [(1, 4)]) [3, 2, 1, 1, 2, 3])) = [7, 6, 1, 5, 2, 3, 4] := by
  decide

theorem test_happ : hbNats (ran 0x00001042 (withBlock (regs [(1, 0x81)]) [0x7F])) = [0x7F, 0x81] := by decide

theorem test_hget : (ran 0x00001243 (withBlock (regs [(1, 3)]) [7, 6, 1, 5, 2, 3, 4])).xv 2 = 5 := by decide

theorem test_hdbits : (ran 0x00001245 (regs [(1, 65535)])).xv 2 = 65519 := by decide

theorem test_hst : laNats (ran 0x00001046 (withBlock (sized (regs [(1, 6)]) [] []) [7, 6, 1, 5, 2, 3, 4])) =
    [0, 0, 0, 0, 0, 0, 7, 6, 1, 5, 2, 3, 4] := by decide

/-- The exact sum is compared, its low 32 bits are recorded. -/
theorem test_hst_far : record (ran 0x00001046 (withBlock (sized (regs [(1, 0xFFFFFFFF)]) [] []) [1, 1, 1])) =
    (true, 5, 0x00001046, 2) := by decide

/-- The worked line 100, 50, -20 of 2.5. -/
theorem test_hprop : hbNats (ran 0x00000044 (withBlock State.reset [100, 50, 0xEC])) = [0x7F, 0x7F, 0x4A] := by
  decide +kernel

theorem test_hprop_flip :
    hbNats (ran 0x00000044 (withBlock State.reset [0x7F, 0x7F, 0x81, 0x7F, 0x7F])) = [0x7F, 0x7F, 0x7F, 0x7F, 0x7F] := by
  decide +kernel

/-! ## Letter memories and criss-cross (2.6) -/

theorem test_lda : (ran 0x00001250 (sized (regs [(1, 2)]) [3, 10, 17] [])).xv 2 = 17 := by decide

theorem test_sta : laNats (ran 0x00021051 (sized (regs [(1, 12), (2, 31)]) [1] [])) = [1, 0, 0, 0, 0, 0, 0, 0, 0, 0, 0, 0, 31] := by
  decide

theorem test_ldb : (ran 0x00001252 (sized (regs [(1, 2)]) [] [3, 10, 17])).xv 2 = 17 := by decide

/-- The index is checked before the letter. -/
theorem test_stb_order : record (ran 0x00021053 (sized (regs [(1, 13), (2, 32)]) [] [])) = (true, 5, 0x00021053, 13) := by decide

theorem test_stb : lbNats (ran 0x00021053 (sized (regs [(1, 0), (2, 9)]) [] [1, 2])) = [9, 2, 0, 0, 0, 0, 0, 0, 0, 0, 0, 0, 0] := by
  decide

theorem test_xcross :
    lbNats (ran 0x00000054 (sized State.reset [3, 10, 17, 24, 31, 6, 13, 20, 27, 2, 9, 16, 23] [31, 31])) =
      [13, 15, 17, 18, 8, 26, 21, 3, 25, 18, 2, 4, 31] := by decide

theorem test_xuncross :
    laNats (ran 0x00000055 (sized State.reset [] [13, 15, 17, 18, 8, 26, 21, 3, 25, 18, 2, 4, 31])) =
      [3, 10, 17, 24, 31, 6, 13, 20, 27, 2, 9, 16, 23] := by decide

theorem test_ccaddr : (ran 0x00021356 (sized (regs [(1, 4), (2, 3)]) [] [])).xv 3 = 12 := by decide

/-! ## Whitening (2.7) -/

theorem test_whiten : (ran 0x00021360 (regs [(1, 7), (2, 0xFFFFFFFF)])).xv 3 = 24 := by decide

theorem test_unwhiten : (ran 0x00021361 (regs [(1, 29), (2, 7)])).xv 3 = 21 := by decide

theorem test_whitenb :
    lbNats (ran 0x00000062 (sized State.reset [] [13, 15, 17, 18, 8, 26, 21, 3, 25, 18, 2, 4, 31])) =
      [12, 21, 18, 2, 13, 26, 18, 1, 2, 24, 10, 8, 18] := by decide

theorem test_unwhitenb :
    lbNats (ran 0x00000063 (sized State.reset [] [12, 21, 18, 2, 13, 26, 18, 1, 2, 24, 10, 8, 18])) =
      [13, 15, 17, 18, 8, 26, 21, 3, 25, 18, 2, 4, 31] := by decide

theorem test_oddmul : (ran 0x00021364 (regs [(1, 3), (2, 5)])).xv 3 = 6 := by decide

theorem test_odddiv : (ran 0x00021365 (regs [(1, 20), (2, 31)])).xv 3 = 11 := by decide

/-! ## System (2.8, 3) -/

theorem test_li : (ran 0xFFFF0F70 State.reset).xv 15 = 0x0000FFFF := by decide

theorem test_lih : (ran 0xABCD0171 (regs [(1, 0x12345678)])).xv 1 = 0xABCD5678 := by decide

theorem test_rd : (ran 0x00001072 (regs [(1, 0xDEADBEEF)])).out = [0xDEADBEEF] := by decide

theorem test_csrr : (ran 0x0F000273 State.reset).xv 2 = 0x50434501 := by decide

theorem test_csrr_unimplemented : record (ran 0x0FFF0F73 State.reset) = (true, 1, 0x0FFF0F73, 4095) := by decide

theorem test_csrw : (ran 0x00001074 (regs [(1, 65535)])).letters = 65535 := by decide

/-- A fault cannot be cleared by writing FSTAT. -/
theorem test_csrw_read_only : record (ran 0x00201074 State.reset) = (true, 1, 0x00201074, 32) := by decide

/-- A word that is no command. -/
theorem test_illegal_word : record (ran 0xFFFFFFFF State.reset) = (true, 1, 0xFFFFFFFF, 0) := by decide

/-- In the faulted state a CSRR still runs and an LI does not (program P4). -/
theorem test_faulted : (ran 0x00230473 faulted).xv 4 = 20 ∧ (ran 0x00130170 faulted).xv 1 = 0 := by decide

/-- Reset is the one exit from the faulted state (R309). -/
theorem test_reset_clears_fault :
    step { faulted with input := [.reset] } = .next { faulted with fstat := false, fcause := 0, fcmd := 0, finfo := 0 } := rfl

/-- The first step after reset runs the word placed where step fetches. -/
theorem test_withFetchWord : step (State.reset.withFetchWord 32 0x00130170) = .next (regs [(1, 19)]) := rfl


/-- The worked values of R271 and R277. -/
theorem test_host_values :
    ndataLetters 1 = none ∧ ndataLetters 4 = some 55 ∧ ndataLetters 5 = some 85 ∧ crissCrossFactor 13 = some (2, 2) ∧
      crissCrossFactor 31 = some (2, 5) ∧ LegalPlan 31 18 [12, 12, 7] := by decide +kernel

/-! ## A state for the hypotheses of each statement, each clause at a boundary -/

/-- `s` with one input waiting. -/
def waiting (s : State) (i : HostInput) : State := { s with input := [i] }

/-- `s` on an instance whose HB holds `n` elements. -/
def withHcap (s : State) (n : Half) : State := { s with cfg := { s.cfg with hcap := n } }

/-- Setting registers leaves F alone, so every state below that `regs` makes has F = 0. -/
theorem regs_fstat (vs : List (XReg × Nat)) : (regs vs).fstat = false := by
  have : ∀ (vs : List (XReg × Nat)) (s : State), s.fstat = false →
      (vs.foldl (fun s v => s.setXNat v.1 v.2) s).fstat = false := by
    intro vs
    induction vs with
    | nil => exact fun _ h => h
    | cons v vs ih => exact fun s h => ih _ h
  exact this vs _ rfl

/-- The other helpers leave F alone. -/
theorem helpers_fstat (s : State) (q : Poly31) (vs : List Byte) (la lb : List Letter) (n : Half) :
    (withP0 s q).fstat = s.fstat ∧ (withBlock s vs).fstat = s.fstat ∧ (sized s la lb).fstat = s.fstat ∧
      (withHcap s n).fstat = s.fstat := ⟨rfl, rfl, rfl, rfl⟩

theorem five_is_no_power : ¬ IsPow2 5 := (isPow2_eq_false_iff 5).mp (by decide)

theorem three_is_no_power : ¬ IsPow2 3 := (isPow2_eq_false_iff 3).mp (by decide)

/-- A degree, checked coefficient by coefficient. -/
theorem hasDegree_of {q : Poly31} {d : Nat} (h : coeff q d ≠ 0)
    (g : (List.range 30).all (fun k => decide (k ≤ d) || decide (coeff q k = 0)) = true) : HasDegree q d := by
  refine ⟨h, fun k hk => ?_⟩
  by_cases h30 : k < 30
  · have := List.all_eq_true.mp g k (List.mem_range.mpr h30)
    simpa [Nat.not_le.mpr hk] using this
  · exact coeff_of_le q (Nat.not_lt.mp h30)

theorem witness_EncodeInvertsDecode : decode 0x00021310 = .ok (.gfmul 3 1 2) ∧ decode 0xF0001074 ≠ .ok (.csrw 0 1) :=
  ⟨rfl, by decide⟩

theorem witness_StepRunsDecodedCommand :
    (waiting State.reset (.command 0x00130170)).input = .command 0x00130170 :: [] ∧ decode 0x00130170 = .ok (.li 1 19) :=
  ⟨rfl, rfl⟩

theorem witness_StepFaultsOnIllegalWord :
    (waiting State.reset (.command 0xFFFFFFFF)).input = .command 0xFFFFFFFF :: [] ∧
      (waiting State.reset (.command 0xFFFFFFFF)).fstat = false ∧ (∀ r ∈ opcodeRows, ¬ r.Matches 0xFFFFFFFF) ∧
      (∀ r ∈ opcodeRows, ¬ r.Matches 0x00100010) := ⟨rfl, rfl, by decide, by decide⟩

theorem witness_ResetAloneRestoresTheEngine :
    (waiting faulted .reset).input = .reset :: [] ∧ faulted.input = [] ∧
      step (waiting faulted .reset) = .next State.reset ∧ (waiting faulted .reset).fstat = true ∧ State.reset.fstat = false :=
  ⟨rfl, rfl, rfl, rfl, rfl⟩

theorem reset_inv : State.reset.Inv :=
  ⟨by decide, by decide, by decide, by decide, by decide, by decide, by decide, by decide, by decide, by decide, by decide⟩

theorem witness_StepKeepsTheInvariantOfTheEngine :
    State.reset.Inv ∧ step State.reset = .next State.reset := ⟨reset_inv, rfl⟩

theorem witness_EachStateHasItsWriters :
    exec (.li 1 19) State.reset = .next (regs [(1, 19)]) ∧ (regs [(1, 19)]).x ≠ State.reset.x ∧
      (ran 0x00021031 (regs [(2, 7)])).p ≠ (regs [(2, 7)]).p ∧ (ran 0x00001042 (regs [(1, 7)])).hlen ≠ (regs [(1, 7)]).hlen ∧
      (ran 0x00001042 (regs [(1, 7)])).hb ≠ (regs [(1, 7)]).hb ∧
      (ran 0x00021051 (sized (regs [(2, 7)]) [] [])).la ≠ (sized (regs [(2, 7)]) [] []).la ∧
      (ran 0x00021053 (sized (regs [(2, 7)]) [] [])).lb ≠ (sized (regs [(2, 7)]) [] []).lb ∧
      (ran 0x00001074 (regs [(1, 13)])).nlet ≠ (regs [(1, 13)]).nlet ∧ (ran 0x00001072 State.reset).out ≠ State.reset.out :=
  ⟨rfl, by decide, by decide, by decide, by decide, by decide, by decide, by decide, by decide⟩

theorem witness_FaultsArePrecise :
    (regs [(1, 5)]).fstat = false ∧ exec (.f31div 3 1 2) (regs [(1, 5)]) = .next (ran 0x00021323 (regs [(1, 5)])) ∧
      (ran 0x00021323 (regs [(1, 5)])).fstat = true := ⟨rfl, rfl, by decide⟩

theorem witness_FaultCodesAreThoseOfTheTable :
    (regs [(1, 31)]).fstat = false ∧ exec (.f31div 3 1 2) (regs [(1, 31)]) = .next (ran 0x00021323 (regs [(1, 31)])) ∧
      (ran 0x00021323 (regs [(1, 31)])).fstat = true := ⟨rfl, rfl, by decide⟩

theorem witness_FaultedEngineDiscardsCommands :
    (waiting faulted (.command 0x00001072)).fstat = true ∧
      (waiting faulted (.command 0x00001072)).input = .command 0x00001072 :: [] ∧ decode 0x00001072 = .ok (.rd 1) ∧
      decode 0x00230473 = .ok (.csrr 4 0x023) ∧ csrRead faulted 0x023 = some 20 ∧
      decode 0x00FF0473 = .ok (.csrr 4 0x0FF) ∧ csrRead faulted 0x0FF = none ∧ decode 0xFFFFFFFF = .error .unassignedOpcode :=
  ⟨rfl, rfl, rfl, rfl, rfl, rfl, rfl, rfl⟩

theorem witness_FirstFaultWins :
    faulted.fstat = true ∧ csrRead faulted 0xFFF = none ∧ (∀ rest, faulted.input ≠ .reset :: rest) ∧
      step faulted = .next faulted := ⟨rfl, rfl, fun _ h => (by cases h), rfl⟩

theorem witness_GoodEndMeansNoFault :
    (∀ m, m < 1 → ∀ rest, ((waiting State.reset (.command 0x00130170)).after m).input ≠ .reset :: rest) ∧
      ((waiting State.reset (.command 0x00130170)).after 1).Good := by
  refine ⟨fun m hm rest h => ?_, rfl⟩
  obtain rfl : m = 0 := by omega
  cases h

theorem witness_GfmulIsTheFieldProduct :
    (regs [(1, 31), (2, 31)]).fstat = false ∧ (regs [(1, 31), (2, 31)]).xv 1 ≤ 31 ∧ (regs [(1, 31), (2, 31)]).xv 2 ≤ 31 ∧
      31 < (regs [(1, 32)]).xv 1 ∧ (regs [(1, 31), (2, 32)]).xv 1 ≤ 31 ∧ 31 < (regs [(1, 31), (2, 32)]).xv 2 := by decide

theorem witness_OddArithmetic :
    (regs [(1, 31), (2, 31)]).fstat = false ∧ (regs [(1, 31), (2, 31)]).xv 1 ≤ 31 ∧ (regs [(1, 31), (2, 31)]).xv 2 ≤ 31 ∧
      31 < (regs [(1, 32)]).xv 1 ∧ (regs [(1, 31), (2, 32)]).xv 1 ≤ 31 ∧ 31 < (regs [(1, 31), (2, 32)]).xv 2 := by decide

theorem witness_GfinvIsTheFieldInverse :
    (regs []).fstat = false ∧ (regs []).xv 1 = 0 ∧ (regs [(1, 31)]).xv 1 ≤ 31 ∧ (regs [(1, 31)]).xv 1 ≠ 0 ∧
      31 < (regs [(1, 32)]).xv 1 := by decide

theorem witness_GfexpIsThePowerOfX :
    (regs [(1, 30)]).fstat = false ∧ (regs [(1, 30)]).xv 1 ≤ 30 ∧ 30 < (regs [(1, 31)]).xv 1 := by decide

theorem witness_GflogIsTheLogarithm :
    (regs []).fstat = false ∧ (regs []).xv 1 = 0 ∧ 31 < (regs [(1, 32)]).xv 1 ∧ (regs [(1, 1)]).xv 1 ≠ 0 ∧
      (regs [(1, 31)]).xv 1 ≤ 31 := by decide

theorem witness_GfTablesFormAField : (1 : Letter) ≠ 0 ∧ 30 ≤ 30 := by decide

theorem witness_F31ArithmeticIsModulo31 :
    (regs [(1, 30), (2, 30)]).fstat = false ∧ (regs [(1, 30), (2, 30)]).xv 1 ≤ 30 ∧ (regs [(1, 30), (2, 30)]).xv 2 ≤ 30 ∧
      30 < (regs [(1, 31)]).xv 1 ∧ (regs [(1, 30), (2, 31)]).xv 1 ≤ 30 ∧ 30 < (regs [(1, 30), (2, 31)]).xv 2 := by decide

theorem witness_F31divIsTheQuotient :
    (regs [(1, 30)]).fstat = false ∧ (regs [(1, 30)]).xv 1 ≤ 30 ∧ (regs [(1, 30)]).xv 2 = 0 ∧
      (regs [(1, 30), (2, 30)]).xv 2 ≤ 30 ∧ (regs [(1, 30), (2, 1)]).xv 2 ≠ 0 ∧ 30 < (regs [(1, 31)]).xv 1 ∧
      30 < (regs [(1, 30), (2, 31)]).xv 2 := by decide

theorem witness_PolyCoefficientAccess :
    (regs [(1, 29), (2, 30)]).fstat = false ∧ (regs [(1, 29), (2, 30)]).xv 1 ≤ 29 ∧ (regs [(1, 29), (2, 30)]).xv 2 ≤ 30 ∧
      29 < (regs [(1, 30)]).xv 1 ∧ (regs [(1, 29), (2, 31)]).xv 1 ≤ 29 ∧ 30 < (regs [(1, 29), (2, 31)]).xv 2 ∧
      29 < (regs [(2, 30)]).xv 2 ∧ (regs [(2, 29)]).xv 2 ≤ 29 := by decide

theorem witness_PevalIsTheValueAtThePoint :
    (regs [(2, 30)]).fstat = false ∧ (regs [(2, 30)]).xv 2 ≤ 30 ∧ 30 < (regs [(2, 31)]).xv 2 := by decide

theorem witness_PolyLinearCommands :
    (regs [(1, 30), (2, 30)]).fstat = false ∧ coeff ((regs []).getP 0) 29 = 0 ∧
      coeff ((withP0 (regs []) (polyOf (fun k => if k = 29 then 1 else 0))).getP 0) 29 ≠ 0 ∧
      30 < (regs [(2, 31)]).xv 2 ∧ (regs [(2, 30)]).xv 2 ≤ 30 ∧ 30 < (regs [(1, 31)]).xv 1 ∧ (regs [(1, 30)]).xv 1 ≤ 30 := by
  decide

/-- Register 0 holds X^15 or X^29. -/
def power (n : Nat) : State := withP0 State.reset (polyOf (fun k => if k = n then 1 else 0))

theorem witness_PmulIsTheExactProduct :
    (power 15).fstat = false ∧ specProduct ((power 15).getP 0) ((power 15).getP 0) 30 ≠ 0 ∧
      (∀ k, 30 < k → k ≤ 58 → specProduct ((power 15).getP 0) ((power 15).getP 0) k = 0) ∧
      specProduct ((power 29).getP 0) ((power 29).getP 0) 58 ≠ 0 ∧
      (∀ k, 58 < k → k ≤ 58 → specProduct ((power 29).getP 0) ((power 29).getP 0) k = 0) ∧
      (∀ k, 30 ≤ k → k ≤ 58 → specProduct ((power 14).getP 0) ((power 14).getP 0) k = 0) := by
  refine ⟨rfl, by decide +kernel, fun k h1 h2 => ?_, by decide +kernel, fun k h1 h2 => by omega, fun k h1 h2 => ?_⟩
  · interval_cases k <;> decide +kernel
  · interval_cases k <;> decide +kernel

theorem witness_PmulOverflowsByDegree :
    (power 15).fstat = false ∧ HasDegree ((power 15).getP 0) 15 ∧ 29 < 15 + 15 ∧ HasDegree ((power 14).getP 0) 14 ∧
      14 + 14 ≤ 29 ∧ HasDegree (((power 14).setP 1 (power 15 |>.getP 0)).getP 1) 15 ∧ 14 + 15 ≤ 29 ∧
      (∀ k, coeff (State.reset.getP 0) k = 0) := by
  refine ⟨rfl, hasDegree_of (by decide) (by decide), by decide, hasDegree_of (by decide) (by decide), by decide,
    hasDegree_of (by decide) (by decide), by decide, fun k => ?_⟩
  by_cases h : k < 30
  · simp [coeff, h, State.reset]
  · exact coeff_of_le _ (Nat.not_lt.mp h)

theorem witness_PmulMultipliesValues :
    (power 14).fstat = false ∧ exec (.pmul 2 0 0) (power 14) = .next (ran 0x00000236 (power 14)) ∧
      (ran 0x00000236 (power 14)).fstat = false ∧ 30 ≤ 30 := ⟨rfl, rfl, by decide, le_refl _⟩

theorem witness_PimpIsTheImpulse :
    (regs []).fstat = false ∧ ((regs [(1, 0x80000000)]).getX 1).getLsbD 31 = true ∧
      (((regs [(1, 0b1011), (2, 31)]).getX 1).getLsbD 31 = false ∧ 30 < (regs [(1, 0b1011), (2, 31)]).xv 2) ∧
      (((regs [(1, 0x3FFFFFFF), (2, 30)]).getX 1).getLsbD 31 = false ∧ (regs [(1, 0x3FFFFFFF), (2, 30)]).xv 2 ≤ 30 ∧
        29 < otherPoints ((regs [(1, 0x3FFFFFFF), (2, 30)]).getX 1) 30) ∧
      (((regs [(1, 0x3FFFFFFF)]).getX 1).getLsbD 31 = false ∧ otherPoints ((regs [(1, 0x3FFFFFFF)]).getX 1) 0 ≤ 29 ∧
        ((regs [(1, 0x3FFFFFFF)]).getX 1).getLsbD 29 = true) := by decide +kernel

theorem witness_HammingBufferAccess :
    (regs [(1, 255)]).fstat = false ∧ 255 < (regs [(1, 256)]).xv 1 ∧ (regs [(1, 255)]).xv 1 ≤ 255 ∧
      (withHcap (withBlock (regs [(1, 5)]) [1, 1, 1]) 3).cfg.hcap.toNat <
        (withHcap (withBlock (regs [(1, 5)]) [1, 1, 1]) 3).hammingLen + 1 ∧
      (withHcap (withBlock (regs [(1, 5)]) [1, 1, 1]) 4).hammingLen + 1 ≤
        (withHcap (withBlock (regs [(1, 5)]) [1, 1, 1]) 4).cfg.hcap.toNat ∧
      (withBlock (regs [(1, 3)]) [1, 1, 1]).hammingLen ≤ (withBlock (regs [(1, 3)]) [1, 1, 1]).xv 1 ∧
      (withBlock (regs [(1, 2)]) [1, 1, 1]).xv 1 < (withBlock (regs [(1, 2)]) [1, 1, 1]).hammingLen := by decide

theorem witness_HpushBuildsTheCode :
    (withBlock (regs [(1, 255)]) [1, 1, 1]).fstat = false ∧ (withBlock (regs [(1, 255)]) [1, 1, 1]).xv 1 ≤ 255 ∧
      255 < (regs [(1, 256)]).xv 1 ∧ (withBlock (regs [(1, 255)]) [1, 1, 1]).hammingLen < 5 ∧ ¬ IsPow2 5 ∧
      (∀ q, (withBlock (regs [(1, 255)]) [1, 1, 1]).hammingLen < q → q < 5 → IsPow2 q) ∧
      (withHcap (withBlock (regs [(1, 255)]) [1, 1, 1]) 4).cfg.hcap.toNat < 5 ∧
      5 ≤ (withHcap (withBlock (regs [(1, 255)]) [1, 1, 1]) 5).cfg.hcap.toNat := by
  refine ⟨rfl, by decide, by decide, by decide, five_is_no_power, fun q h1 h2 => ⟨2, ?_⟩, by decide, by decide⟩
  have : (withBlock (regs [(1, 255)]) [1, 1, 1]).hammingLen = 3 := rfl
  omega

theorem witness_HpushKeepsParityChecks :
    (withBlock (regs [(1, 2)]) [1, 1, 1]).fstat = false ∧
      exec (.hpush 1) (withBlock (regs [(1, 2)]) [1, 1, 1]) = .next (ran 0x00001041 (withBlock (regs [(1, 2)]) [1, 1, 1])) ∧
      (ran 0x00001041 (withBlock (regs [(1, 2)]) [1, 1, 1])).fstat = false ∧
      ParityChecksHold (withBlock (regs [(1, 2)]) [1, 1, 1]) := by
  refine ⟨rfl, rfl, by decide, fun k hk => ?_⟩
  have h3 : 2 ^ k ≤ 3 := hk
  have : k < 2 := by
    by_contra h
    have := Nat.pow_le_pow_right (n := 2) (by decide) (Nat.not_lt.mp h)
    omega
  interval_cases k <;> decide

theorem witness_HpushKeepsPlanesApart :
    (regs [(1, 3)]).fstat = false ∧ (regs [(1, 1)]).fstat = false ∧ (regs [(1, 3)]).hlen = (regs [(1, 1)]).hlen ∧
      (regs [(1, 3)]).cfg.hcap = (regs [(1, 1)]).cfg.hcap ∧ (regs [(1, 3)]).xv 1 ≤ 255 ∧ (regs [(1, 1)]).xv 1 ≤ 255 ∧
      ((regs [(1, 3)]).getX 1).getLsbD 0 = ((regs [(1, 1)]).getX 1).getLsbD 0 ∧
      (∀ k, k < (regs [(1, 3)]).hammingLen → ((regs [(1, 3)]).hb.read k).getLsbD 0 = ((regs [(1, 1)]).hb.read k).getLsbD 0) ∧
      exec (.hpush 1) (regs [(1, 3)]) = .next (ran 0x00001041 (regs [(1, 3)])) ∧
      exec (.hpush 1) (regs [(1, 1)]) = .next (ran 0x00001041 (regs [(1, 1)])) :=
  ⟨rfl, rfl, rfl, rfl, by decide, by decide, by decide, by decide, rfl, rfl⟩

theorem witness_HdbitsCountsDataSymbols :
    (regs [(1, 65535)]).fstat = false ∧ (regs [(1, 65535)]).xv 1 ≤ 65535 ∧ 65535 < (regs [(1, 65536)]).xv 1 := by decide

theorem witness_HstStoresTheBlock :
    (withBlock (sized (regs [(1, 10)]) [] []) [31, 1, 1]).fstat = false ∧ State.reset.letters = 0 ∧
      (withBlock (sized (regs [(1, 10)]) [] []) [31, 1, 1]).letters ≠ 0 ∧
      (withBlock (sized (regs [(1, 11)]) [] []) [1, 1, 1]).letters < (withBlock (sized (regs [(1, 11)]) [] []) [1, 1, 1]).xv 1 + 3 ∧
      (withBlock (sized (regs [(1, 10)]) [] []) [31, 1, 1]).xv 1 + 3 ≤
        (withBlock (sized (regs [(1, 10)]) [] []) [31, 1, 1]).letters ∧
      (∀ k, k < 3 → ((withBlock (sized (regs [(1, 10)]) [] []) [31, 1, 1]).hb.read k).toNat ≤ 31) ∧
      31 < ((withBlock (sized (regs [(1, 10)]) [] []) [1, 32, 40]).hb.read 1).toNat ∧
      (∀ j, j < 1 → ((withBlock (sized (regs [(1, 10)]) [] []) [1, 32, 40]).hb.read j).toNat ≤ 31) := by decide

/-- A block of three certain bits. -/
def certain (a b c : Byte) : State := withBlock State.reset [a, b, c]

theorem certain_legal (a b c : Byte) : (certain a b c).LegalBlock := ⟨le_refl 3, three_is_no_power⟩

theorem witness_HpropIsOneExactRound :
    (certain 100 50 0xEC).fstat = false ∧ (certain 100 50 0xEC).LegalBlock ∧
      (∀ k, k < (certain 100 50 0xEC).hammingLen → (certain 100 50 0xEC).hb.read k ≠ 0x80) ∧
      ¬ (withBlock State.reset [127, 127]).LegalBlock ∧ ¬ (withBlock State.reset [127, 127, 127, 127]).LegalBlock ∧
      (certain 127 0x80 0x80).hb.read 1 = 0x80 ∧ (∀ j, j < 1 → (certain 127 0x80 0x80).hb.read j ≠ 0x80) :=
  ⟨rfl, certain_legal _ _ _, by decide, fun h => absurd h.1 (by decide), fun h => h.2 ⟨2, rfl⟩, by decide, by decide⟩

theorem certain_checks (a b c : Byte) (h : (certain a b c).CertainBits)
    (h0 : ((List.range' 1 3).filter (fun j => j.testBit 0 && decide ((certain a b c).softBit j = -127))).length % 2 = 0)
    (h1 : ((List.range' 1 3).filter (fun j => j.testBit 1 && decide ((certain a b c).softBit j = -127))).length % 2 = 0) :
    (certain a b c).CertainBits ∧ (certain a b c).CertainChecksHold := by
  refine ⟨h, fun k hk => ?_⟩
  have h3 : 2 ^ k ≤ 3 := hk
  have : k < 2 := by
    by_contra h
    have := Nat.pow_le_pow_right (n := 2) (by decide) (Nat.not_lt.mp h)
    omega
  interval_cases k
  · exact h0
  · exact h1

theorem certain_81 : (certain 0x81 0x81 0x81).CertainBits := by
  intro j h1 h2
  have : j ≤ 3 := h2
  interval_cases j <;> decide

theorem witness_HpropKeepsCodewords :
    (certain 0x81 0x81 0x81).fstat = false ∧ (certain 0x81 0x81 0x81).LegalBlock ∧ (certain 0x81 0x81 0x81).CertainBits ∧
      (certain 0x81 0x81 0x81).CertainChecksHold :=
  ⟨rfl, certain_legal _ _ _, certain_checks _ _ _ certain_81 (by decide) (by decide)⟩

theorem witness_HpropCorrectsOneFlip :
    (certain 0x81 0x81 0x81).LegalBlock ∧ (certain 0x81 0x81 0x81).CertainBits ∧ (certain 0x81 0x81 0x81).CertainChecksHold ∧
      3 ≤ (certain 0x81 0x81 0x81).hammingLen ∧ (certain 0x81 0x81 127).fstat = false ∧
      (certain 0x81 0x81 127).hlen = (certain 0x81 0x81 0x81).hlen ∧
      (certain 0x81 0x81 127).softBit 3 = -(certain 0x81 0x81 0x81).softBit 3 ∧
      (∀ a, a + 1 ≠ 3 → (certain 0x81 0x81 127).hb.read a = (certain 0x81 0x81 0x81).hb.read a) := by
  refine ⟨certain_legal _ _ _, certain_81, (certain_checks _ _ _ certain_81 (by decide) (by decide)).2, by decide, rfl, rfl,
    by decide, fun a ha => ?_⟩
  by_cases h : a < 3
  · interval_cases a
    · decide
    · decide
    · exact absurd rfl ha
  · simp only [certain, withBlock, mem, read_fill, List.length_cons, List.length_nil]
    rw [if_neg (by omega), if_neg (by omega)]

theorem witness_HpropErasuresAndPeak :
    (certain 127 0 127).fstat = false ∧ (certain 127 0 127).LegalBlock ∧
      (∀ k, k < (certain 127 0 127).hammingLen → (certain 127 0 127).hb.read k ≠ 0x80) ∧ (certain 127 0 127).softBit 2 = 0 :=
  ⟨rfl, certain_legal _ _ _, by decide, by decide⟩

theorem witness_LettersAreRead :
    (sized (regs [(1, 12)]) [] []).fstat = false ∧ State.reset.letters = 0 ∧ (sized (regs [(1, 13)]) [] []).letters ≠ 0 ∧
      (sized (regs [(1, 13)]) [] []).letters ≤ (sized (regs [(1, 13)]) [] []).xv 1 ∧
      (sized (regs [(1, 12)]) [] []).xv 1 < (sized (regs [(1, 12)]) [] []).letters := by decide

theorem witness_LettersAreWritten :
    (sized (regs [(1, 12), (2, 31)]) [] []).fstat = false ∧ State.reset.letters = 0 ∧
      (sized (regs [(1, 13)]) [] []).letters ≤ (sized (regs [(1, 13)]) [] []).xv 1 ∧
      (sized (regs [(1, 12), (2, 31)]) [] []).xv 1 < (sized (regs [(1, 12), (2, 31)]) [] []).letters ∧
      (sized (regs [(1, 12), (2, 31)]) [] []).xv 2 ≤ 31 ∧ 31 < (sized (regs [(1, 12), (2, 32)]) [] []).xv 2 := by decide

theorem witness_CcaddrIsTheAddressLaw :
    (sized (regs [(1, 12), (2, 4)]) [] []).fstat = false ∧ State.reset.letters = 0 ∧
      (sized (regs [(1, 13)]) [] []).letters ≤ (sized (regs [(1, 13)]) [] []).xv 1 ∧
      (sized (regs [(1, 12), (2, 4)]) [] []).xv 1 < (sized (regs [(1, 12), (2, 4)]) [] []).letters ∧
      (sized (regs [(1, 12), (2, 4)]) [] []).xv 2 = ((4 : Fin 5) : Nat) ∧ 4 < (sized (regs [(1, 12), (2, 5)]) [] []).xv 2 := by decide

theorem witness_XcrossScattersThePlanes :
    (sized State.reset [] []).fstat = false ∧ (sized State.reset [] []).letters ≠ 0 ∧ State.reset.letters = 0 := by decide

theorem witness_XuncrossGathersThePlanes :
    (sized State.reset [] []).fstat = false ∧ (sized State.reset [] []).letters ≠ 0 ∧ State.reset.letters = 0 := by decide

theorem witness_CrissCrossRoundTrip :
    (sized State.reset [] []).fstat = false ∧ (sized State.reset [] []).letters ≠ 0 ∧
      (∀ j : Fin 5, Nat.Coprime ((sized State.reset [] []).ccbase.toNat * (sized State.reset [] []).ccmult.toNat ^ (j : Nat) %
        (sized State.reset [] []).letters) (sized State.reset [] []).letters) := by decide

theorem witness_WhitenPermutesThenKeys :
    (regs [(1, 31), (2, 0xFFFFFFFF)]).fstat = false ∧ (regs [(1, 31)]).cfg.PermOk ∧ (regs [(1, 31)]).xv 1 ≤ 31 ∧
      31 < (regs [(1, 32)]).xv 1 := by decide

theorem witness_WhitenRoundTrip : Config.default.PermOk := by decide

theorem witness_WhitenbActsLetterByLetter :
    (sized State.reset [] []).fstat = false ∧ (sized State.reset [] []).cfg.PermOk ∧ (sized State.reset [] []).letters ≠ 0 ∧
      State.reset.letters = 0 := by decide

theorem witness_UnwhitenbRestoresLb :
    (sized State.reset [] []).fstat = false ∧ (sized State.reset [] []).cfg.PermOk ∧ (sized State.reset [] []).letters ≠ 0 := by
  decide

theorem witness_ImmediatesAreLoaded : State.reset.fstat = false := rfl

theorem witness_CsrrReadsTheRegisterList :
    State.reset.fstat = false ∧
      (0x003 : CsrNum).toNat ∉ [0x000, 0x001, 0x002, 0x010, 0x020, 0x021, 0x022, 0x023, 0xF00, 0xF01, 0xF02] ∧
      (0xFFF : CsrNum).toNat ∉ [0x000, 0x001, 0x002, 0x010, 0x020, 0x021, 0x022, 0x023, 0xF00, 0xF01, 0xF02] := by decide

theorem witness_CsrwWritesTheThree :
    (regs [(1, 65535)]).fstat = false ∧ (0x003 : CsrNum).toNat ∉ [0x000, 0x001, 0x002] ∧ (regs [(1, 65535)]).xv 1 ≤ 65535 ∧
      65535 < (regs [(1, 65536)]).xv 1 ∧ (regs [(1, 65535)]).xv 1 ≤ (regs [(1, 65535)]).cfg.nmax.toNat ∧
      (regs [(1, 65536)]).cfg.nmax.toNat < (regs [(1, 65536)]).xv 1 := by decide

theorem witness_DataLettersGrowWithTheSize : 2 ≤ 2 ∧ 30 < 31 ∧ ndataLetters 30 = some 2785 ∧ ndataLetters 31 = some 2970 := by
  decide

end Sys2Proof.Tests
end

section
/-! PROOFS. The invariant of the engine: what every kind of state update owes it, and that every step keeps it (O10). -/

namespace Sys2Proof.Machine

/-! ## What a passed check says -/

/-- A number stored in `w` bits, modulo 2^w, is at most itself. -/
theorem toNat_ofNat_le (w n : Nat) : (BitVec.ofNat w n).toNat ≤ n := by
  rw [BitVec.toNat_ofNat]
  exact Nat.mod_le _ _

theorem raiseIf_eq_ok {c : Prop} [Decidable c] {k : Cause} {n : Nat} {u : Unit} (h : raiseIf c k n = .ok u) : ¬ c := by
  intro hc
  rw [raiseIf_of hc] at h
  cases h

theorem boundedOperand_eq_ok {top n : Nat} {v : Word} (h : boundedOperand top v = .ok n) : n = v.toNat ∧ n ≤ top := by
  rcases Nat.lt_or_ge top v.toNat with hv | hv
  · rw [boundedOperand_bad hv] at h; cases h
  · rw [boundedOperand_ok hv] at h; cases h; exact ⟨rfl, hv⟩

theorem sizedOperand_eq_ok {s : State} {n : Nat} (h : sizedOperand s = .ok n) : n = s.letters ∧ s.letters ≠ 0 := by
  by_cases hs : s.letters = 0
  · rw [sizedOperand_unsized hs] at h; cases h
  · rw [sizedOperand_ok hs] at h; cases h; exact ⟨rfl, hs⟩

theorem indexOperand_eq_ok {n k : Nat} {v : Word} (h : indexOperand n v = .ok k) : k = v.toNat ∧ k < n := by
  rcases Nat.lt_or_ge v.toNat n with hv | hv
  · rw [indexOperand_ok hv] at h; cases h; exact ⟨rfl, hv⟩
  · rw [indexOperand_bad hv] at h; cases h

/-! ## What the body of a command makes -/

/-- Every state the body of a command makes, its checks passed, meets `post`. -/
def Makes (post : State → Prop) (body : Except Raised State) : Prop := ∀ u, body = .ok u → post u

theorem makes_ok {post : State → Prop} {u : State} (h : post u) : Makes post (.ok u) := by
  rintro _ ⟨⟩
  exact h

theorem makes_error {post : State → Prop} (e : Raised) : Makes post (.error e) := by
  rintro _ ⟨⟩

/-- A check before the rest of a body: the rest may use that the check passed. -/
theorem makes_bind {α : Type} {post : State → Prop} {c : Except Raised α} {f : α → Except Raised State}
    (h : ∀ a, c = .ok a → Makes post (f a)) : Makes post (c >>= f) := by
  intro u hu
  obtain ⟨a, ha, hf⟩ := bind_eq_ok hu
  exact h a ha u hf

/-! ## The invariant and the state's updates -/

namespace State.Inv

variable {s : State}

theorem setX (h : s.Inv) (r : XReg) (v : Word) : (s.setX r v).Inv := { h with }

theorem setXNat (h : s.Inv) (r : XReg) (n : Nat) : (s.setXNat r n).Inv := h.setX r _

theorem setP (h : s.Inv) (r : PReg) (q : Poly31) : (s.setP r q).Inv := { h with }

theorem emit (h : s.Inv) (v : Word) : (s.emit v).Inv := { h with }

theorem setInput (h : s.Inv) (l : List HostInput) : State.Inv { s with input := l } := { h with }

theorem setCcmult (h : s.Inv) (v : Half) : State.Inv { s with ccmult := v } := { h with }

theorem setCcbase (h : s.Inv) (v : Half) : State.Inv { s with ccbase := v } := { h with }

theorem setNlet (h : s.Inv) {v : Half} (hv : v.toNat ≤ s.cfg.nmax.toNat) : State.Inv { s with nlet := v } :=
  { h with nlet_le := hv }

theorem setLa (h : s.Inv) {m : Memory 5} (hw : m.wf) (hb : ∀ c ∈ m, c.1 < s.cfg.nmax.toNat) : State.Inv { s with la := m } :=
  { h with la_wf := hw, la_bounded := hb }

theorem setLb (h : s.Inv) {m : Memory 5} (hw : m.wf) (hb : ∀ c ∈ m, c.1 < s.cfg.nmax.toNat) : State.Inv { s with lb := m } :=
  { h with lb_wf := hw, lb_bounded := hb }

theorem setHb (h : s.Inv) {m : Memory 8} (hw : m.wf) (hb : ∀ c ∈ m, c.1 < s.cfg.hcap.toNat) : State.Inv { s with hb := m } :=
  { h with hb_wf := hw, hb_bounded := hb }

theorem setHlen (h : s.Inv) {n : Nat} (hn : n ≤ s.cfg.hcap.toNat) : State.Inv { s with hlen := BitVec.ofNat 16 n } :=
  { h with hlen_le := le_trans (toNat_ofNat_le _ _) hn }

theorem letters_le (h : s.Inv) : s.letters ≤ s.cfg.nmax.toNat := h.nlet_le

theorem hammingLen_le (h : s.Inv) : s.hammingLen ≤ s.cfg.hcap.toNat := h.hlen_le

/-! Elements written inside the live range of a memory (R50) stay below its capacity. -/

theorem writeLa (h : s.Inv) {k : Nat} (hk : k < s.letters) (v : Letter) : State.Inv { s with la := s.la.write k v } :=
  h.setLa (wf_write _ _ _ h.la_wf) (bounded_write _ _ _ _ (lt_of_lt_of_le hk h.letters_le) h.la_bounded)

theorem writeLb (h : s.Inv) {k : Nat} (hk : k < s.letters) (v : Letter) : State.Inv { s with lb := s.lb.write k v } :=
  h.setLb (wf_write _ _ _ h.lb_wf) (bounded_write _ _ _ _ (lt_of_lt_of_le hk h.letters_le) h.lb_bounded)

theorem fillLa (h : s.Inv) {off n : Nat} (hn : off + n ≤ s.letters) (f : Nat → Letter) :
    State.Inv { s with la := s.la.fill off n f } :=
  h.setLa (wf_fill _ _ _ _ h.la_wf) (bounded_fill _ _ _ _ _ (le_trans hn h.letters_le) h.la_bounded)

theorem fillLb (h : s.Inv) {off n : Nat} (hn : off + n ≤ s.letters) (f : Nat → Letter) :
    State.Inv { s with lb := s.lb.fill off n f } :=
  h.setLb (wf_fill _ _ _ _ h.lb_wf) (bounded_fill _ _ _ _ _ (le_trans hn h.letters_le) h.lb_bounded)

theorem fillHb (h : s.Inv) {off n : Nat} (hn : off + n ≤ s.hammingLen) (f : Nat → Byte) :
    State.Inv { s with hb := s.hb.fill off n f } :=
  h.setHb (wf_fill _ _ _ _ h.hb_wf) (bounded_fill _ _ _ _ _ (le_trans hn h.hammingLen_le) h.hb_bounded)

end State.Inv

/-! ## Faults and reset -/

/-- The codes of R301, as FCAUSE records them. -/
theorem cause_code_range (c : Cause) : 1 ≤ (BitVec.ofNat 32 c.code).toNat ∧ (BitVec.ofNat 32 c.code).toNat ≤ 8 := by
  cases c <;> decide

/-- Fault entry keeps the invariant: it fills the record of a clear engine and leaves that of a faulted one (R305, R307). -/
theorem takeFault_inv {s : State} (h : s.Inv) (w : Word) (e : Raised) : (takeFault w e s).Inv := by
  cases hf : s.fstat with
  | true => rw [takeFault_faulted hf]; exact h
  | false =>
    rw [takeFault_eq hf]
    exact { h with record_clear := nofun, record_code := fun _ => cause_code_range e.cause }

theorem resetOf_inv {c : Config} (h : c.Wf) : (State.resetOf c).Inv where
  cfg_wf := h
  hb_wf := wf_nil
  la_wf := wf_nil
  lb_wf := wf_nil
  hb_bounded := List.forall_mem_nil _
  la_bounded := List.forall_mem_nil _
  lb_bounded := List.forall_mem_nil _
  hlen_le := Nat.zero_le _
  nlet_le := Nat.zero_le _
  record_clear := fun _ => ⟨rfl, rfl, rfl⟩
  record_code := nofun

/-! ## Commands -/

/-- A command keeps the invariant when every state its body makes meets it. -/
theorem command_inv {i : Instr} {s t : State} {b : Except Raised State} (h : s.Inv) (ht : command i s b = .next t)
    (hb : Makes State.Inv b) : t.Inv := by
  obtain ⟨-, rfl⟩ | ⟨-, hu⟩ | ⟨-, e, -, rfl⟩ := command_next ht
  · exact h
  · exact hb t hu
  · exact takeFault_inv h _ e

theorem commandAlways_inv {i : Instr} {s t : State} {b : Except Raised State} (h : s.Inv)
    (ht : commandAlways i s b = .next t) (hb : Makes State.Inv b) : t.Inv := by
  obtain hu | ⟨e, -, rfl⟩ := commandAlways_next ht
  · exact hb t hu
  · exact takeFault_inv h _ e

section Commands

variable {s t : State}

theorem execPmul_inv (h : s.Inv) (pd ps1 ps2 : PReg) (ht : execPmul pd ps1 ps2 s = .next t) : t.Inv := by
  refine command_inv h ht ?_
  split
  · exact makes_error _
  · exact makes_ok (h.setP _ _)

theorem execHpush_inv (h : s.Inv) {rs1 : XReg} (ht : execHpush rs1 s = .next t) : t.Inv := by
  refine command_inv h ht (makes_bind fun d _ => makes_bind fun _ hc => makes_ok ?_)
  have hp : pushPosition s.hammingLen ≤ s.cfg.hcap.toNat := Nat.not_lt.mp (raiseIf_eq_ok hc)
  exact (h.setHb (wf_pushSymbol _ _ d h.hb_wf) (bounded_pushSymbol _ _ _ d hp h.hb_bounded)).setHlen hp

theorem execHapp_inv (h : s.Inv) {rs1 : XReg} (ht : execHapp rs1 s = .next t) : t.Inv := by
  refine command_inv h ht (makes_bind fun d _ => makes_bind fun _ hc => makes_ok ?_)
  have hn : s.hammingLen + 1 ≤ s.cfg.hcap.toNat := Nat.not_lt.mp (raiseIf_eq_ok hc)
  exact (h.setHb (wf_write _ _ d h.hb_wf) (bounded_write _ _ _ d hn h.hb_bounded)).setHlen hn

theorem execHprop_inv (h : s.Inv) (ht : execHprop s = .next t) : t.Inv := by
  refine command_inv h ht (makes_bind fun _ _ => ?_)
  split
  · exact makes_error _
  · exact makes_ok (h.fillHb (Nat.zero_add _).le _)

theorem execHst_inv (h : s.Inv) {rs1 : XReg} (ht : execHst rs1 s = .next t) : t.Inv := by
  refine command_inv h ht (makes_bind fun n hn => makes_bind fun _ hc => ?_)
  obtain ⟨rfl, -⟩ := sizedOperand_eq_ok hn
  split
  · exact makes_error _
  · exact makes_ok (h.fillLa (Nat.not_lt.mp (raiseIf_eq_ok hc)) _)

theorem execSta_inv (h : s.Inv) {rs1 rs2 : XReg} (ht : execSta rs1 rs2 s = .next t) : t.Inv := by
  refine command_inv h ht (makes_bind fun n hn => makes_bind fun k hk => makes_bind fun v _ => makes_ok ?_)
  obtain ⟨rfl, -⟩ := sizedOperand_eq_ok hn
  exact h.writeLa (indexOperand_eq_ok hk).2 v

theorem execStb_inv (h : s.Inv) {rs1 rs2 : XReg} (ht : execStb rs1 rs2 s = .next t) : t.Inv := by
  refine command_inv h ht (makes_bind fun n hn => makes_bind fun k hk => makes_bind fun v _ => makes_ok ?_)
  obtain ⟨rfl, -⟩ := sizedOperand_eq_ok hn
  exact h.writeLb (indexOperand_eq_ok hk).2 v

theorem execXcross_inv (h : s.Inv) (ht : execXcross s = .next t) : t.Inv := by
  refine command_inv h ht (makes_bind fun n hn => makes_ok ?_)
  obtain ⟨-, h0⟩ := sizedOperand_eq_ok hn
  exact h.setLb (wf_interleaved s h.lb_wf) (bounded_interleaved s _ h0 h.letters_le h.lb_bounded)

theorem execXuncross_inv (h : s.Inv) (ht : execXuncross s = .next t) : t.Inv := by
  refine command_inv h ht (makes_bind fun n hn => makes_ok ?_)
  obtain ⟨rfl, -⟩ := sizedOperand_eq_ok hn
  exact h.fillLa (Nat.zero_add _).le _

theorem execWhitenb_inv (h : s.Inv) (ht : execWhitenb s = .next t) : t.Inv := by
  refine command_inv h ht (makes_bind fun n hn => makes_ok ?_)
  obtain ⟨rfl, -⟩ := sizedOperand_eq_ok hn
  exact h.fillLb (Nat.zero_add _).le _

theorem execUnwhitenb_inv (h : s.Inv) (ht : execUnwhitenb s = .next t) : t.Inv := by
  refine command_inv h ht (makes_bind fun n hn => makes_ok ?_)
  obtain ⟨rfl, -⟩ := sizedOperand_eq_ok hn
  exact h.fillLb (Nat.zero_add _).le _

theorem execCsrr_inv (h : s.Inv) {rd : XReg} {csr : CsrNum} (ht : execCsrr rd csr s = .next t) : t.Inv := by
  refine commandAlways_inv h ht ?_
  split
  · exact makes_ok (h.setX _ _)
  · exact makes_error _

/-- The bound of the one CSR the invariant speaks of, NLET, is the bound CSRW checks (R27, R255). -/
theorem execCsrw_inv (h : s.Inv) {csr : CsrNum} {rs1 : XReg} (ht : execCsrw csr rs1 s = .next t) : t.Inv := by
  refine command_inv h ht ?_
  split
  · exact makes_error _
  · next top write hw =>
    refine makes_bind fun v hv => makes_ok ?_
    obtain ⟨-, hle⟩ := boundedOperand_eq_ok hv
    obtain ⟨-, rfl, rfl⟩ | ⟨-, -, rfl⟩ | ⟨-, -, rfl⟩ := csrWritable_some hw
    · exact h.setNlet (le_trans (toNat_ofNat_le _ _) hle)
    · exact h.setCcmult _
    · exact h.setCcbase _

/-- Every command keeps the invariant. The commands that write only registers, sorted by how many checks they make, owe it
nothing; each of the others has its lemma above. -/
theorem exec_inv (h : s.Inv) {i : Instr} (ht : exec i s = .next t) : t.Inv := by
  cases i with
  | li | lih => exact command_inv h ht (makes_ok (h.setX _ _))
  | pzero | padd => exact command_inv h ht (makes_ok (h.setP _ _))
  | hget => exact command_inv h ht (makes_bind fun _ _ => makes_ok (h.setX _ _))
  | gfinv | gfexp | pgetc | peval | hdbits | whiten | unwhiten =>
    exact command_inv h ht (makes_bind fun _ _ => makes_ok (h.setXNat _ _))
  | pshift | pscale | picpt => exact command_inv h ht (makes_bind fun _ _ => makes_ok (h.setP _ _))
  | lda | ldb => exact command_inv h ht (makes_bind fun _ _ => makes_bind fun _ _ => makes_ok (h.setX _ _))
  | gfmul | gflog | f31add | f31sub | f31mul | oddmul | odddiv =>
    exact command_inv h ht (makes_bind fun _ _ => makes_bind fun _ _ => makes_ok (h.setXNat _ _))
  | psetc => exact command_inv h ht (makes_bind fun _ _ => makes_bind fun _ _ => makes_ok (h.setP _ _))
  | f31div | ccaddr =>
    exact command_inv h ht
      (makes_bind fun _ _ => makes_bind fun _ _ => makes_bind fun _ _ => makes_ok (h.setXNat _ _))
  | pimp =>
    exact command_inv h ht
      (makes_bind fun _ _ => makes_bind fun _ _ => makes_bind fun _ _ => makes_ok (h.setP _ _))
  | rd => exact commandAlways_inv h ht (makes_ok (h.emit _))
  | hclr => exact command_inv h ht (makes_ok (h.setHlen (Nat.zero_le _)))
  | pmul pd ps1 ps2 => exact execPmul_inv h pd ps1 ps2 ht
  | hpush => exact execHpush_inv h ht
  | happ => exact execHapp_inv h ht
  | hprop => exact execHprop_inv h ht
  | hst => exact execHst_inv h ht
  | sta => exact execSta_inv h ht
  | stb => exact execStb_inv h ht
  | xcross => exact execXcross_inv h ht
  | xuncross => exact execXuncross_inv h ht
  | whitenb => exact execWhitenb_inv h ht
  | unwhitenb => exact execUnwhitenb_inv h ht
  | csrr => exact execCsrr_inv h ht
  | csrw => exact execCsrw_inv h ht

end Commands

/-! ## Steps -/

/-- Everything a step can do: nothing, a reset, one command, or the fault of an illegal word. -/
theorem step_next {s t : State} (h : step s = .next t) :
    (s.input = [] ∧ t = s) ∨ (∃ rest, s.input = .reset :: rest ∧ t = resetEvent rest s) ∨
      ∃ w rest, s.input = .command w :: rest ∧
        ((∃ i, decode w = .ok i ∧ exec i { s with input := rest } = .next t) ∨
          ∃ e, decode w = .error e ∧ t = illegalWord w { s with input := rest }) := by
  unfold step at h
  cases hi : s.input with
  | nil =>
    rw [nextEvent_idle hi] at h
    cases h
    exact .inl ⟨rfl, rfl⟩
  | cons ev rest =>
    cases ev with
    | reset =>
      rw [nextEvent_reset hi] at h
      cases h
      exact .inr (.inl ⟨rest, rfl, rfl⟩)
    | command w =>
      rw [nextEvent_word hi] at h
      refine .inr (.inr ⟨w, rest, rfl, ?_⟩)
      dsimp only at h
      split at h
      · next i hd => exact .inl ⟨i, hd, h⟩
      · next e hd => cases h; exact .inr ⟨e, hd, rfl⟩

theorem step_inv {s t : State} (h : s.Inv) (ht : step s = .next t) : t.Inv := by
  obtain ⟨-, rfl⟩ | ⟨rest, -, rfl⟩ | ⟨w, rest, -, ⟨i, -, hx⟩ | ⟨-, -, rfl⟩⟩ := step_next ht
  · exact h
  · exact (resetOf_inv h.cfg_wf).setInput rest
  · exact exec_inv (h.setInput rest) hx
  · exact takeFault_inv (h.setInput rest) w _

/-- Settles O10: a fault, a reset and every command each keep the invariant, and a step is one of them or nothing. -/
theorem stepKeepsTheInvariantOfTheEngine : Obligations.StepKeepsTheInvariantOfTheEngine :=
  fun _ _ h ht => step_inv h ht

end Sys2Proof.Machine
end

section
/-! PROOFS. What each command writes, said once (O12), the step of a waiting command (O5), and the state after reset (O7, O9). -/

namespace Sys2Proof.Machine

/-! ## Steps -/

theorem step_command {s : State} {w : Word} {rest : List HostInput} {i : Instr} (hs : s.input = .command w :: rest)
    (hd : decode w = .ok i) : step s = exec i { s with input := rest } := by
  simp only [step, nextEvent_word hs, hd]

/-- Settles O5: the oldest input is the command word, and the word decodes to `i`. -/
theorem stepRunsDecodedCommand : Obligations.StepRunsDecodedCommand :=
  fun _ _ _ _ hs hd => step_command hs hd

/-! ## The state after reset -/

@[simp] theorem coeff_replicate_zero (k : Nat) : coeff (Vector.replicate 30 0) k = 0 := by
  simp [coeff]

theorem resetOf_atReset (c : Config) : (State.resetOf c).AtReset :=
  ⟨resetOf_getX c, fun r k => by rw [resetOf_getP, coeff_replicate_zero], rfl, read_nil, read_nil,
    rfl, rfl, rfl, rfl, rfl, rfl, rfl, rfl, rfl⟩

/-- ENGID, CAPN and CAPH read the same constants in every state of an engine (R26). -/
theorem csrRead_constants (s : State) :
    csrRead s 0xF00 = some 0x50434501 ∧ csrRead s 0xF01 = some (s.cfg.nmax.setWidth 32) ∧
      csrRead s 0xF02 = some (s.cfg.hcap.setWidth 32) :=
  ⟨rfl, rfl, rfl⟩

/-- Settles O7: the reset values field by field, and the three constants, which no state changes. -/
theorem resetStateIsTheSpecs : Obligations.ResetStateIsTheSpecs :=
  ⟨rfl, fun c => ⟨resetOf_atReset c, csrRead_constants (State.resetOf c)⟩⟩

/-- Settles O9: the reset state of every engine with legal parameters meets the invariant, and the default ones are legal. -/
theorem resetMeetsTheInvariantOfTheEngine : Obligations.ResetMeetsTheInvariantOfTheEngine :=
  resetOf_inv (by decide : Config.default.Wf)

/-! ## What a command writes -/

/-- The pieces of state a command that completes can write. HPUSH and HAPP write HB and HLEN together: the `block`. -/
inductive Target where
  | x | p | hb | hlen | block | la | lb | csrs | out

/-- `t` differs from `s` in the given piece of state at most. -/
def Target.Frame (s t : State) : Target → Prop
  | .x => ∃ v, t = { s with x := v }
  | .p => ∃ v, t = { s with p := v }
  | .hb => ∃ m, t = { s with hb := m }
  | .hlen => ∃ n, t = { s with hlen := n }
  | .block => ∃ m n, t = { s with hb := m, hlen := n }
  | .la => ∃ m, t = { s with la := m }
  | .lb => ∃ m, t = { s with lb := m }
  | .csrs => ∃ n m b, t = { s with nlet := n, ccmult := m, ccbase := b }
  | .out => ∃ l, t = { s with out := l }

/-- The commands that write a piece of state, by mnemonic (R29, R32, R34, R37, R255). -/
def Target.writers : Target → List String
  | .x => ["GFMUL", "GFINV", "GFEXP", "GFLOG", "F31ADD", "F31SUB", "F31MUL", "F31DIV", "PGETC", "PEVAL", "HGET", "HDBITS",
      "LDA", "LDB", "CCADDR", "WHITEN", "UNWHITEN", "ODDMUL", "ODDDIV", "LI", "LIH", "CSRR"]
  | .p => ["PZERO", "PSETC", "PSHIFT", "PADD", "PMUL", "PSCALE", "PICPT", "PIMP"]
  | .hb => ["HPROP"]
  | .hlen => ["HCLR"]
  | .block => ["HPUSH", "HAPP"]
  | .la => ["STA", "HST", "XUNCROSS"]
  | .lb => ["STB", "XCROSS", "WHITENB", "UNWHITENB"]
  | .csrs => ["CSRW"]
  | .out => ["RD"]

/-- The piece of state a command writes when it completes. -/
def targetOf : Instr → Target
  | .gfmul .. | .gfinv .. | .gfexp .. | .gflog .. => .x
  | .f31add .. | .f31sub .. | .f31mul .. | .f31div .. => .x
  | .pgetc .. | .peval .. => .x
  | .pzero .. | .psetc .. | .pshift .. | .padd .. | .pmul .. | .pscale .. | .picpt .. | .pimp .. => .p
  | .hclr => .hlen
  | .hpush .. | .happ .. => .block
  | .hprop => .hb
  | .hget .. | .hdbits .. => .x
  | .sta .. | .hst .. | .xuncross => .la
  | .stb .. | .xcross | .whitenb | .unwhitenb => .lb
  | .lda .. | .ldb .. | .ccaddr .. => .x
  | .whiten .. | .unwhiten .. | .oddmul .. | .odddiv .. => .x
  | .li .. | .lih .. | .csrr .. => .x
  | .rd .. => .out
  | .csrw .. => .csrs

theorem mnemonic_mem_writers (i : Instr) : i.mnemonic ∈ (targetOf i).writers := by
  cases i <;> simp [Instr.mnemonic, targetOf, Target.writers]

/-! Each kind of state update stays within its target. -/

section Frames

variable (s : State)

theorem frame_setX (r : XReg) (v : Word) : Target.x.Frame s (s.setX r v) := ⟨_, rfl⟩

theorem frame_setP (r : PReg) (q : Poly31) : Target.p.Frame s (s.setP r q) := ⟨_, rfl⟩

theorem frame_emit (v : Word) : Target.out.Frame s (s.emit v) := ⟨_, rfl⟩

theorem frame_hb (m : Memory 8) : Target.hb.Frame s { s with hb := m } := ⟨_, rfl⟩

theorem frame_hlen (n : Half) : Target.hlen.Frame s { s with hlen := n } := ⟨_, rfl⟩

theorem frame_block (m : Memory 8) (n : Half) : Target.block.Frame s { s with hb := m, hlen := n } := ⟨_, _, rfl⟩

theorem frame_la (m : Memory 5) : Target.la.Frame s { s with la := m } := ⟨_, rfl⟩

theorem frame_lb (m : Memory 5) : Target.lb.Frame s { s with lb := m } := ⟨_, rfl⟩

theorem frame_csrWritable {csr : CsrNum} {top : Nat} {write : Half → State} (h : csrWritable s csr = some (top, write))
    (v : Half) : Target.csrs.Frame s (write v) := by
  obtain ⟨-, -, rfl⟩ | ⟨-, -, rfl⟩ | ⟨-, -, rfl⟩ := csrWritable_some h <;> exact ⟨_, _, _, rfl⟩

end Frames

/-- A piece of state that changed is the target, and nothing targets the parameters or the waiting input. -/
theorem changed_is_target {d : Target} {s t : State} (h : d.Frame s t) :
    t.cfg = s.cfg ∧ t.input = s.input ∧ (t.x ≠ s.x → d = .x) ∧ (t.p ≠ s.p → d = .p) ∧
      (t.hlen ≠ s.hlen → d = .hlen ∨ d = .block) ∧ (t.hb ≠ s.hb → d = .block ∨ d = .hb) ∧ (t.la ≠ s.la → d = .la) ∧
      (t.lb ≠ s.lb → d = .lb) ∧ (t.nlet ≠ s.nlet ∨ t.ccmult ≠ s.ccmult ∨ t.ccbase ≠ s.ccbase → d = .csrs) ∧
      (t.out ≠ s.out → d = .out) := by
  cases d with
  | x | p | hb | hlen | la | lb | out => obtain ⟨_, rfl⟩ := h; simp
  | block => obtain ⟨_, _, rfl⟩ := h; simp
  | csrs => obtain ⟨_, _, _, rfl⟩ := h; simp

/-- What a command may have done: nothing, a write of its target, or fault entry. -/
def Touches (i : Instr) (s t : State) : Prop :=
  t = s ∨ (targetOf i).Frame s t ∨ ∃ e, t = takeFault (encode i) e s

theorem command_touches {i : Instr} {s t : State} {b : Except Raised State} (ht : command i s b = .next t)
    (hb : Makes ((targetOf i).Frame s) b) : Touches i s t := by
  obtain ⟨-, rfl⟩ | ⟨-, hu⟩ | ⟨-, e, -, rfl⟩ := command_next ht
  · exact .inl rfl
  · exact .inr (.inl (hb t hu))
  · exact .inr (.inr ⟨e, rfl⟩)

theorem commandAlways_touches {i : Instr} {s t : State} {b : Except Raised State} (ht : commandAlways i s b = .next t)
    (hb : Makes ((targetOf i).Frame s) b) : Touches i s t := by
  obtain hu | ⟨e, -, rfl⟩ := commandAlways_next ht
  · exact .inr (.inl (hb t hu))
  · exact .inr (.inr ⟨e, rfl⟩)

/-- Everything a command can do to the state. The cases are sorted by the target and by how many checks come before the write. -/
theorem exec_touches {i : Instr} {s t : State} (ht : exec i s = .next t) : Touches i s t := by
  cases i with
  | li | lih => exact command_touches ht (makes_ok (frame_setX _ _ _))
  | gfinv | gfexp | pgetc | peval | hget | hdbits | whiten | unwhiten =>
    exact command_touches ht (makes_bind fun _ _ => makes_ok (frame_setX _ _ _))
  | gfmul | gflog | f31add | f31sub | f31mul | lda | ldb | oddmul | odddiv =>
    exact command_touches ht (makes_bind fun _ _ => makes_bind fun _ _ => makes_ok (frame_setX _ _ _))
  | f31div | ccaddr =>
    exact command_touches ht
      (makes_bind fun _ _ => makes_bind fun _ _ => makes_bind fun _ _ => makes_ok (frame_setX _ _ _))
  | csrr =>
    refine commandAlways_touches ht ?_
    split
    · exact makes_ok (frame_setX _ _ _)
    · exact makes_error _
  | pzero | padd => exact command_touches ht (makes_ok (frame_setP _ _ _))
  | pshift | pscale | picpt => exact command_touches ht (makes_bind fun _ _ => makes_ok (frame_setP _ _ _))
  | psetc => exact command_touches ht (makes_bind fun _ _ => makes_bind fun _ _ => makes_ok (frame_setP _ _ _))
  | pimp =>
    exact command_touches ht
      (makes_bind fun _ _ => makes_bind fun _ _ => makes_bind fun _ _ => makes_ok (frame_setP _ _ _))
  | pmul =>
    refine command_touches ht ?_
    split
    · exact makes_error _
    · exact makes_ok (frame_setP _ _ _)
  | hclr => exact command_touches ht (makes_ok (frame_hlen _ _))
  | hpush | happ => exact command_touches ht (makes_bind fun _ _ => makes_bind fun _ _ => makes_ok (frame_block _ _ _))
  | hprop =>
    refine command_touches ht (makes_bind fun _ _ => ?_)
    split
    · exact makes_error _
    · exact makes_ok (frame_hb _ _)
  | hst =>
    refine command_touches ht (makes_bind fun _ _ => makes_bind fun _ _ => ?_)
    split
    · exact makes_error _
    · exact makes_ok (frame_la _ _)
  | sta =>
    exact command_touches ht
      (makes_bind fun _ _ => makes_bind fun _ _ => makes_bind fun _ _ => makes_ok (frame_la _ _))
  | xuncross => exact command_touches ht (makes_bind fun _ _ => makes_ok (frame_la _ _))
  | stb =>
    exact command_touches ht
      (makes_bind fun _ _ => makes_bind fun _ _ => makes_bind fun _ _ => makes_ok (frame_lb _ _))
  | xcross | whitenb | unwhitenb => exact command_touches ht (makes_bind fun _ _ => makes_ok (frame_lb _ _))
  | rd => exact commandAlways_touches ht (makes_ok (frame_emit _ _))
  | csrw =>
    refine command_touches ht ?_
    split
    · exact makes_error _
    · next hw => exact makes_bind fun _ _ => makes_ok (frame_csrWritable _ hw _)

/-- Settles O12: what a command changed is its target, and its mnemonic is among the target's writers; a fault changes none of
these pieces. -/
theorem eachStateHasItsWriters : Obligations.EachStateHasItsWriters := by
  intro i s t ht
  obtain rfl | hframe | ⟨e, rfl⟩ := exec_touches ht
  · simp
  · have hw : ∀ d, targetOf i = d → i.mnemonic ∈ d.writers := by
      rintro _ rfl
      exact mnemonic_mem_writers i
    obtain ⟨hcfg, hinput, hx, hp, hhlen, hhb, hla, hlb, hcsrs, hout⟩ := changed_is_target hframe
    exact ⟨hcfg, hinput, fun h => hw _ (hx h), fun h => hw _ (hp h),
      fun h => List.mem_append (s := Target.hlen.writers) (t := Target.block.writers) |>.mpr ((hhlen h).imp (hw _) (hw _)),
      fun h => List.mem_append (s := Target.block.writers) (t := Target.hb.writers) |>.mpr ((hhb h).imp (hw _) (hw _)),
      fun h => hw _ (hla h), fun h => hw _ (hlb h), fun h => List.mem_singleton.mp (hw _ (hcsrs h)),
      fun h => List.mem_singleton.mp (hw _ (hout h))⟩
  · simp

end Sys2Proof.Machine
end

section
/-! PROOFS. The decoder, the encoder and the match and mask columns are three readings of one table, R75. The table stands here
with its format and field columns, the model's three readings are tied to it row by row, and the round trips (O1, O2), the match
rule (O3), the worked encodings (O4) and the illegal word (O6) follow for every row at once. -/

namespace Sys2Proof.Laws

/-! ## The columns of R75 -/

/-- What a column `a`, `b` or `c` of R75 says of its field: how it is read, how it is written, and the bits that must be 0. -/
structure Column (α : Type) where
  read : BitVec 4 → Except DecodeError α
  write : α → BitVec 4
  mask : BitVec 4
  read_eq_ok : ∀ f v, read f = .ok v ↔ f = write v
  masked_iff : ∀ f, f &&& mask = 0 ↔ ∃ v, f = write v

/-- Column kind `x`: every field names an operand register. -/
def Column.x : Column XReg where
  read := readX
  write := id
  mask := 0x0
  read_eq_ok f v := by simp
  masked_iff f := by simp

/-- Column kind `p`: the upper two bits are 0 (R72). -/
def Column.p : Column PReg where
  read := readP
  write := pfield
  mask := 0xC
  read_eq_ok := by decide
  masked_iff := by decide

/-- Column kind `-`: the field is 0 (R72). -/
def Column.unused : Column Unit where
  read := readNone
  write _ := 0
  mask := 0xF
  read_eq_ok := by decide
  masked_iff := by decide

/-- The format and the columns of a row, and the command that its fields make. -/
inductive Layout : Type 1
  | regs {α β γ : Type} (a : Column α) (b : Column β) (c : Column γ) (make : α → β → γ → Instr)
  | imm (make : XReg → Half → Instr)
  | csr {α β : Type} (a : Column α) (b : Column β) (make : α → β → CsrNum → Instr)

/-- The model's decoder of the format, at the columns of the row. -/
def Layout.decode (w : Word) : Layout → Except DecodeError Instr
  | .regs a b c make => formatR w a.read b.read c.read make
  | .imm make => formatI w make
  | .csr a b make => formatC w a.read b.read make

/-- The word with the given bits 31:16, fields `b` and `a` and opcode; the formats differ in what bits 31:16 hold (R71). -/
def joinFields (high : BitVec 16) (b a : BitVec 4) (op : BitVec 8) : Word := high ++ b ++ a ++ op

/-- The mask covers the opcode, the `zero` field and what each column covers (R75). -/
def Layout.mask : Layout → Word
  | .regs a b c _ => joinFields (0xFFF#12 ++ c.mask) b.mask a.mask 0xFF
  | .imm _ => joinFields 0 0xF 0 0xFF
  | .csr a b _ => joinFields (0xF#4 ++ 0#12) b.mask a.mask 0xFF

/-- `w` is the word, and `i` the command, of some operands of the row with this layout and opcode. -/
def Layout.Makes (op : Nat) (w : Word) (i : Instr) : Layout → Prop
  | .regs a b c make =>
    ∃ x y z, wordR (BitVec.ofNat 8 op) (a.write x) (b.write y) (c.write z) = w ∧ make x y z = i
  | .imm make => ∃ x v, wordI (BitVec.ofNat 8 op) x v = w ∧ make x v = i
  | .csr a b make => ∃ x y n, wordC (BitVec.ofNat 8 op) (a.write x) (b.write y) n = w ∧ make x y n = i

/-- A row of R75 but for its opcode. -/
structure TableRow where
  mnemonic : String
  layout : Layout

/-- The row of each opcode (R75); none where R77 assigns no command. -/
def rowAt : Nat → Option TableRow
  | 0x10 => some ⟨"GFMUL", .regs .x .x .x .gfmul⟩
  | 0x11 => some ⟨"GFINV", .regs .x .x .unused fun rd rs1 _ => .gfinv rd rs1⟩
  | 0x12 => some ⟨"GFEXP", .regs .x .x .unused fun rd rs1 _ => .gfexp rd rs1⟩
  | 0x13 => some ⟨"GFLOG", .regs .x .x .unused fun rd rs1 _ => .gflog rd rs1⟩
  | 0x20 => some ⟨"F31ADD", .regs .x .x .x .f31add⟩
  | 0x21 => some ⟨"F31SUB", .regs .x .x .x .f31sub⟩
  | 0x22 => some ⟨"F31MUL", .regs .x .x .x .f31mul⟩
  | 0x23 => some ⟨"F31DIV", .regs .x .x .x .f31div⟩
  | 0x30 => some ⟨"PZERO", .regs .p .unused .unused fun pd _ _ => .pzero pd⟩
  | 0x31 => some ⟨"PSETC", .regs .p .x .x .psetc⟩
  | 0x32 => some ⟨"PGETC", .regs .x .p .x .pgetc⟩
  | 0x33 => some ⟨"PEVAL", .regs .x .p .x .peval⟩
  | 0x34 => some ⟨"PSHIFT", .regs .p .p .unused fun pd ps1 _ => .pshift pd ps1⟩
  | 0x35 => some ⟨"PADD", .regs .p .p .p .padd⟩
  | 0x36 => some ⟨"PMUL", .regs .p .p .p .pmul⟩
  | 0x37 => some ⟨"PSCALE", .regs .p .p .x .pscale⟩
  | 0x38 => some ⟨"PICPT", .regs .p .x .unused fun pd rs1 _ => .picpt pd rs1⟩
  | 0x39 => some ⟨"PIMP", .regs .p .x .x .pimp⟩
  | 0x40 => some ⟨"HCLR", .regs .unused .unused .unused fun _ _ _ => .hclr⟩
  | 0x41 => some ⟨"HPUSH", .regs .unused .x .unused fun _ rs1 _ => .hpush rs1⟩
  | 0x42 => some ⟨"HAPP", .regs .unused .x .unused fun _ rs1 _ => .happ rs1⟩
  | 0x43 => some ⟨"HGET", .regs .x .x .unused fun rd rs1 _ => .hget rd rs1⟩
  | 0x44 => some ⟨"HPROP", .regs .unused .unused .unused fun _ _ _ => .hprop⟩
  | 0x45 => some ⟨"HDBITS", .regs .x .x .unused fun rd rs1 _ => .hdbits rd rs1⟩
  | 0x46 => some ⟨"HST", .regs .unused .x .unused fun _ rs1 _ => .hst rs1⟩
  | 0x50 => some ⟨"LDA", .regs .x .x .unused fun rd rs1 _ => .lda rd rs1⟩
  | 0x51 => some ⟨"STA", .regs .unused .x .x fun _ rs1 rs2 => .sta rs1 rs2⟩
  | 0x52 => some ⟨"LDB", .regs .x .x .unused fun rd rs1 _ => .ldb rd rs1⟩
  | 0x53 => some ⟨"STB", .regs .unused .x .x fun _ rs1 rs2 => .stb rs1 rs2⟩
  | 0x54 => some ⟨"XCROSS", .regs .unused .unused .unused fun _ _ _ => .xcross⟩
  | 0x55 => some ⟨"XUNCROSS", .regs .unused .unused .unused fun _ _ _ => .xuncross⟩
  | 0x56 => some ⟨"CCADDR", .regs .x .x .x .ccaddr⟩
  | 0x60 => some ⟨"WHITEN", .regs .x .x .x .whiten⟩
  | 0x61 => some ⟨"UNWHITEN", .regs .x .x .x .unwhiten⟩
  | 0x62 => some ⟨"WHITENB", .regs .unused .unused .unused fun _ _ _ => .whitenb⟩
  | 0x63 => some ⟨"UNWHITENB", .regs .unused .unused .unused fun _ _ _ => .unwhitenb⟩
  | 0x64 => some ⟨"ODDMUL", .regs .x .x .x .oddmul⟩
  | 0x65 => some ⟨"ODDDIV", .regs .x .x .x .odddiv⟩
  | 0x70 => some ⟨"LI", .imm .li⟩
  | 0x71 => some ⟨"LIH", .imm .lih⟩
  | 0x72 => some ⟨"RD", .regs .unused .x .unused fun _ rs1 _ => .rd rs1⟩
  | 0x73 => some ⟨"CSRR", .csr .x .unused fun rd _ csr => .csrr rd csr⟩
  | 0x74 => some ⟨"CSRW", .csr .unused .x fun _ rs1 csr => .csrw csr rs1⟩
  | _ => none

/-- The opcodes that hold a command, family by family (R74). -/
def assignedOpcodes : List Nat :=
  List.range' 0x10 4 ++ List.range' 0x20 4 ++ List.range' 0x30 10 ++ List.range' 0x40 7 ++ List.range' 0x50 7 ++
    List.range' 0x60 6 ++ List.range' 0x70 5

/-- The row of R75 with its match and mask columns filled in. -/
def TableRow.opcodeRow (op : Nat) (r : TableRow) : OpcodeRow :=
  ⟨r.mnemonic, wordR (BitVec.ofNat 8 op) 0 0 0, r.layout.mask⟩

/-! ## The model reads this table -/

/-- The decoder picks the row of the opcode and decodes at its layout. -/
theorem decode_eq_rowAt (w : Word) :
    decode w = (rowAt (fieldOp w).toNat).elim (.error .unassignedOpcode) (·.layout.decode w) := by
  unfold decode
  generalize (fieldOp w).toNat = op
  split
  case h_44 => simp [rowAt, *]
  all_goals rfl

/-- The 43 rows with their match and mask columns are those of the assigned opcodes, in their order. -/
theorem opcodeRows_eq_filterMap :
    opcodeRows = assignedOpcodes.filterMap fun op => (rowAt op).map (·.opcodeRow op) := by
  rfl

/-- An opcode that has a row is one of the assigned ones. -/
theorem mem_assignedOpcodes {op : Nat} {r : TableRow} (hr : rowAt op = some r) : op ∈ assignedOpcodes := by
  unfold rowAt at hr
  split at hr
  case h_44 => cases hr
  all_goals decide

/-- A row makes a command of its mnemonic, with the word the encoder gives it. -/
theorem encode_mnemonic_of_makes {op : Nat} {r : TableRow} {w : Word} {i : Instr} (hr : rowAt op = some r)
    (h : r.layout.Makes op w i) : encode i = w ∧ i.mnemonic = r.mnemonic := by
  unfold rowAt at hr
  split at hr
  all_goals cases hr
  case h_39 | h_40 => -- LI and LIH, the two rows of format I
    obtain ⟨_, _, rfl, rfl⟩ := h
    exact ⟨rfl, rfl⟩
  all_goals
    obtain ⟨_, _, _, rfl, rfl⟩ := h
    exact ⟨rfl, rfl⟩

/-- Every command stands in the row of its opcode. -/
theorem exists_row_makes (i : Instr) :
    ∃ r, rowAt (opcodeOf i).toNat = some r ∧ r.layout.Makes (opcodeOf i).toNat (encode i) i := by
  cases i with
  | gfmul a b c | f31add a b c | f31sub a b c | f31mul a b c | f31div a b c | psetc a b c | pgetc a b c | peval a b c
  | padd a b c | pmul a b c | pscale a b c | pimp a b c | ccaddr a b c | whiten a b c | unwhiten a b c | oddmul a b c
  | odddiv a b c => exact ⟨_, rfl, a, b, c, rfl, rfl⟩
  | gfinv a b | gfexp a b | gflog a b | pshift a b | picpt a b | hget a b | hdbits a b | lda a b | ldb a b =>
    exact ⟨_, rfl, a, b, (), rfl, rfl⟩
  | sta b c | stb b c => exact ⟨_, rfl, (), b, c, rfl, rfl⟩
  | pzero a => exact ⟨_, rfl, a, (), (), rfl, rfl⟩
  | hpush b | happ b | hst b | rd b => exact ⟨_, rfl, (), b, (), rfl, rfl⟩
  | hclr | hprop | xcross | xuncross | whitenb | unwhitenb => exact ⟨_, rfl, (), (), (), rfl, rfl⟩
  | li a imm | lih a imm => exact ⟨_, rfl, a, imm, rfl, rfl⟩
  | csrr a csr => exact ⟨_, rfl, a, (), csr, rfl, rfl⟩
  | csrw csr b => exact ⟨_, rfl, (), b, csr, rfl, rfl⟩

/-! ## The fields of a word -/

theorem append_eq_append_iff {n m : Nat} {a c : BitVec n} {b d : BitVec m} : a ++ b = c ++ d ↔ a = c ∧ b = d := by
  constructor
  · intro h
    have hhigh := congrArg (BitVec.extractLsb' m n) h
    have hlow := congrArg (BitVec.extractLsb' 0 m) h
    simp only [BitVec.extractLsb'_append_eq_left, BitVec.extractLsb'_append_eq_right] at hhigh hlow
    exact ⟨hhigh, hlow⟩
  · rintro ⟨rfl, rfl⟩
    rfl

/-- Every word is the join of its own fields. -/
theorem joinFields_fields (w : Word) : joinFields (fieldImm w) (fieldB w) (fieldA w) (fieldOp w) = w := by
  have hb : fieldImm w ++ fieldB w = w.extractLsb' 12 20 := BitVec.extractLsb'_append_extractLsb'_eq_extractLsb' rfl
  have ha : w.extractLsb' 12 20 ++ fieldA w = w.extractLsb' 8 24 := BitVec.extractLsb'_append_extractLsb'_eq_extractLsb' rfl
  have hop : w.extractLsb' 8 24 ++ fieldOp w = w.extractLsb' 0 32 := BitVec.extractLsb'_append_extractLsb'_eq_extractLsb' rfl
  rw [joinFields, hb, ha, hop, BitVec.extractLsb'_eq_self]

theorem fieldZeroR_append_fieldC (w : Word) : fieldZeroR w ++ fieldC w = fieldImm w :=
  BitVec.extractLsb'_append_extractLsb'_eq_extractLsb' rfl

theorem fieldZeroC_append_fieldCsr (w : Word) : fieldZeroC w ++ fieldCsr w = fieldImm w :=
  BitVec.extractLsb'_append_extractLsb'_eq_extractLsb' rfl

theorem joinFields_inj {h h' : BitVec 16} {b b' a a' : BitVec 4} {op op' : BitVec 8} :
    joinFields h b a op = joinFields h' b' a' op' ↔ h = h' ∧ b = b' ∧ a = a' ∧ op = op' := by
  refine append_eq_append_iff.trans ?_
  rw [append_eq_append_iff, append_eq_append_iff, and_assoc, and_assoc]

/-- A join of fields is the word that has these fields. -/
theorem joinFields_eq_iff {h : BitVec 16} {b a : BitVec 4} {op : BitVec 8} {w : Word} :
    joinFields h b a op = w ↔ h = fieldImm w ∧ b = fieldB w ∧ a = fieldA w ∧ op = fieldOp w := by
  rw [← joinFields_inj, joinFields_fields]

theorem wordR_eq_iff {op : BitVec 8} {a b c : BitVec 4} {w : Word} :
    wordR op a b c = w ↔ fieldOp w = op ∧ fieldZeroR w = 0 ∧ fieldA w = a ∧ fieldB w = b ∧ fieldC w = c := by
  have hjoin : wordR op a b c = joinFields (0#12 ++ c) b a op := rfl
  rw [hjoin, joinFields_eq_iff, ← fieldZeroR_append_fieldC, append_eq_append_iff]
  tauto

theorem wordI_eq_iff {op : BitVec 8} {a : BitVec 4} {imm : Half} {w : Word} :
    wordI op a imm = w ↔ fieldOp w = op ∧ fieldB w = 0 ∧ fieldA w = a ∧ fieldImm w = imm := by
  have hjoin : wordI op a imm = joinFields imm 0 a op := rfl
  rw [hjoin, joinFields_eq_iff]
  tauto

theorem wordC_eq_iff {op : BitVec 8} {a b : BitVec 4} {csr : CsrNum} {w : Word} :
    wordC op a b csr = w ↔ fieldOp w = op ∧ fieldZeroC w = 0 ∧ fieldA w = a ∧ fieldB w = b ∧ fieldCsr w = csr := by
  have hjoin : wordC op a b csr = joinFields (0#4 ++ csr) b a op := rfl
  rw [hjoin, joinFields_eq_iff, ← fieldZeroC_append_fieldCsr, append_eq_append_iff]
  tauto

/-! ## Masks act field by field -/

theorem and_joinFields (h h' : BitVec 16) (b b' a a' : BitVec 4) (op op' : BitVec 8) :
    joinFields h b a op &&& joinFields h' b' a' op' = joinFields (h &&& h') (b &&& b') (a &&& a') (op &&& op') := by
  simp only [joinFields, ← BitVec.and_append]

/-- A mask that covers the opcode leaves a `match` word exactly when the opcode is its and the other masked bits are 0. -/
theorem and_mask_eq_iff {h : BitVec 16} {b a : BitVec 4} {op : BitVec 8} {w : Word} :
    w &&& joinFields h b a 0xFF = wordR op 0 0 0 ↔
      fieldImm w &&& h = 0 ∧ fieldB w &&& b = 0 ∧ fieldA w &&& a = 0 ∧ fieldOp w = op := by
  have hand : w &&& joinFields h b a 0xFF =
      joinFields (fieldImm w &&& h) (fieldB w &&& b) (fieldA w &&& a) (fieldOp w &&& 0xFF) := by
    rw [← and_joinFields, joinFields_fields]
  have hop : fieldOp w &&& 0xFF = fieldOp w := BitVec.and_allOnes
  have hmatch : wordR op 0 0 0 = joinFields 0 0 0 op := rfl
  rw [hand, hop, hmatch, joinFields_inj]

theorem and_maskR_eq_zero {w : Word} {m : BitVec 4} :
    fieldImm w &&& (0xFFF#12 ++ m) = 0 ↔ fieldZeroR w = 0 ∧ fieldC w &&& m = 0 := by
  have hones : fieldZeroR w &&& 0xFFF#12 = fieldZeroR w := BitVec.and_allOnes
  have hzero : (0 : BitVec 16) = 0#12 ++ 0#4 := rfl
  rw [← fieldZeroR_append_fieldC, BitVec.and_append, hones, hzero, append_eq_append_iff]
  rfl

theorem and_maskC_eq_zero {w : Word} : fieldImm w &&& (0xF#4 ++ 0#12) = 0 ↔ fieldZeroC w = 0 := by
  have hones : fieldZeroC w &&& 0xF#4 = fieldZeroC w := BitVec.and_allOnes
  have hzero : (0 : BitVec 16) = 0#4 ++ 0#12 := rfl
  rw [← fieldZeroC_append_fieldCsr, BitVec.and_append, hones, hzero, append_eq_append_iff, BitVec.and_zero]
  exact and_iff_left rfl

/-! ## What a layout reads and what its mask admits -/

theorem bind_eq_ok_iff {ε α β : Type} {c : Except ε α} {f : α → Except ε β} {b : β} :
    (c >>= f) = .ok b ↔ ∃ a, c = .ok a ∧ f a = .ok b := by
  cases c with
  | error e => exact ⟨fun h => (nomatch h), fun ⟨_, h, _⟩ => (nomatch h)⟩
  | ok a => exact ⟨fun h => ⟨a, rfl, h⟩, fun ⟨_, rfl, h⟩ => h⟩

theorem pure_eq_ok_iff {ε α : Type} {a b : α} : (pure a : Except ε α) = .ok b ↔ a = b :=
  Iff.of_eq (Except.ok.injEq a b)

theorem readZero_eq_ok {n : Nat} {f : BitVec n} {u : Unit} : readZero f = .ok u ↔ f = 0 := by
  simp [readZero]

/-- A word decodes at a layout to the commands whose word it is. -/
theorem Layout.decode_eq_ok {l : Layout} {w : Word} {i : Instr} :
    l.decode w = .ok i ↔ l.Makes (fieldOp w).toNat w i := by
  cases l with
  | regs a b c make =>
    simp only [Layout.decode, Layout.Makes, formatR, bind_eq_ok_iff, pure_eq_ok_iff, readZero_eq_ok, a.read_eq_ok,
      b.read_eq_ok, c.read_eq_ok, wordR_eq_iff, BitVec.ofNat_toNat, BitVec.setWidth_eq, true_and]
    constructor
    · rintro ⟨-, hzero, x, hx, y, hy, z, hz, hmake⟩
      exact ⟨x, y, z, ⟨hzero, hx, hy, hz⟩, hmake⟩
    · rintro ⟨x, y, z, ⟨hzero, hx, hy, hz⟩, hmake⟩
      exact ⟨(), hzero, x, hx, y, hy, z, hz, hmake⟩
  | imm make =>
    simp only [Layout.decode, Layout.Makes, formatI, bind_eq_ok_iff, pure_eq_ok_iff, readZero_eq_ok, wordI_eq_iff,
      BitVec.ofNat_toNat, BitVec.setWidth_eq, true_and]
    constructor
    · rintro ⟨-, hzero, hmake⟩
      exact ⟨_, _, ⟨hzero, rfl, rfl⟩, hmake⟩
    · rintro ⟨_, _, ⟨hzero, rfl, rfl⟩, hmake⟩
      exact ⟨(), hzero, hmake⟩
  | csr a b make =>
    simp only [Layout.decode, Layout.Makes, formatC, bind_eq_ok_iff, pure_eq_ok_iff, readZero_eq_ok, a.read_eq_ok,
      b.read_eq_ok, wordC_eq_iff, BitVec.ofNat_toNat, BitVec.setWidth_eq, true_and]
    constructor
    · rintro ⟨-, hzero, x, hx, y, hy, hmake⟩
      exact ⟨x, y, _, ⟨hzero, hx, hy, rfl⟩, hmake⟩
    · rintro ⟨x, y, _, ⟨hzero, hx, hy, rfl⟩, hmake⟩
      exact ⟨(), hzero, x, hx, y, hy, hmake⟩

theorem Layout.fieldOp_of_makes {l : Layout} {op : Nat} {w : Word} {i : Instr} (h : l.Makes op w i) :
    fieldOp w = BitVec.ofNat 8 op := by
  cases l with
  | regs => obtain ⟨_, _, _, rfl, -⟩ := h; exact fieldOp_wordR _ _ _ _
  | imm => obtain ⟨_, _, rfl, -⟩ := h; exact fieldOp_wordI _ _ _
  | csr => obtain ⟨_, _, _, rfl, -⟩ := h; exact fieldOp_wordC _ _ _ _

/-- The mask admits exactly the words of the row's commands (R75). -/
theorem Layout.masked_iff {l : Layout} {op : Nat} {w : Word} :
    w &&& l.mask = wordR (BitVec.ofNat 8 op) 0 0 0 ↔ ∃ i, l.Makes op w i := by
  cases l with
  | regs a b c make =>
    simp only [Layout.mask, Layout.Makes, and_mask_eq_iff, and_maskR_eq_zero, a.masked_iff, b.masked_iff,
      c.masked_iff, wordR_eq_iff]
    constructor
    · rintro ⟨⟨hzero, z, hz⟩, ⟨y, hy⟩, ⟨x, hx⟩, hop⟩
      exact ⟨_, x, y, z, ⟨hop, hzero, hx, hy, hz⟩, rfl⟩
    · rintro ⟨-, x, y, z, ⟨hop, hzero, hx, hy, hz⟩, -⟩
      exact ⟨⟨hzero, z, hz⟩, ⟨y, hy⟩, ⟨x, hx⟩, hop⟩
  | imm make =>
    have hones : fieldB w &&& 0xF = fieldB w := BitVec.and_allOnes
    simp only [Layout.mask, Layout.Makes, and_mask_eq_iff, wordI_eq_iff, hones]
    constructor
    · rintro ⟨-, hzero, -, hop⟩
      exact ⟨_, _, _, ⟨hop, hzero, rfl, rfl⟩, rfl⟩
    · rintro ⟨-, _, _, ⟨hop, hzero, -, -⟩, -⟩
      exact ⟨BitVec.and_zero, hzero, BitVec.and_zero, hop⟩
  | csr a b make =>
    simp only [Layout.mask, Layout.Makes, and_mask_eq_iff, and_maskC_eq_zero, a.masked_iff, b.masked_iff,
      wordC_eq_iff]
    constructor
    · rintro ⟨hzero, ⟨y, hy⟩, ⟨x, hx⟩, hop⟩
      exact ⟨_, x, y, _, ⟨hop, hzero, hx, hy, rfl⟩, rfl⟩
    · rintro ⟨-, x, y, _, ⟨hop, hzero, hx, hy, -⟩, -⟩
      exact ⟨hzero, ⟨y, hy⟩, ⟨x, hx⟩, hop⟩

/-! ## The round trips -/

/-- A word decodes to a command exactly when the row of its opcode makes the command from it. -/
theorem decode_eq_ok {w : Word} {i : Instr} :
    decode w = .ok i ↔ ∃ r, rowAt (fieldOp w).toNat = some r ∧ r.layout.Makes (fieldOp w).toNat w i := by
  rw [decode_eq_rowAt]
  cases rowAt (fieldOp w).toNat with
  | none => simp
  | some r => simp [Layout.decode_eq_ok]

theorem decode_encode (i : Instr) : decode (encode i) = .ok i := by
  obtain ⟨r, hr, hmakes⟩ := exists_row_makes i
  have hop : fieldOp (encode i) = opcodeOf i := by simpa using Layout.fieldOp_of_makes hmakes
  rw [← hop] at hr hmakes
  exact decode_eq_ok.mpr ⟨r, hr, hmakes⟩

/-- Settles O1: every command stands in the row of its opcode, and that is the row the decoder reads. -/
theorem decodeInvertsEncode : Obligations.DecodeInvertsEncode :=
  decode_encode

/-- Settles O2: the row that the decoder reads makes the command from the encoder's word. -/
theorem encodeInvertsDecode : Obligations.EncodeInvertsDecode := by
  intro w i hd
  obtain ⟨r, hr, hmakes⟩ := decode_eq_ok.mp hd
  exact (encode_mnemonic_of_makes hr hmakes).1

/-- Settles O4: the words are computed by the encoder, and decoding gives the command back by the round trip. -/
theorem workedEncodings : Obligations.WorkedEncodings :=
  ⟨⟨rfl, rfl, decode_encode (.gfmul 3 1 2)⟩, ⟨rfl, rfl, decode_encode (.li 1 19)⟩,
    ⟨rfl, rfl, decode_encode (.csrw 0x000 5)⟩, ⟨rfl, rfl, decode_encode (.csrr 2 0x020)⟩,
    ⟨rfl, rfl, decode_encode (.pmul 2 0 1)⟩⟩

/-! ## Match and mask -/

theorem mem_opcodeRows {r : OpcodeRow} : r ∈ opcodeRows ↔ ∃ op t, rowAt op = some t ∧ r = t.opcodeRow op := by
  rw [opcodeRows_eq_filterMap, List.mem_filterMap]
  constructor
  · rintro ⟨op, -, h⟩
    obtain ⟨t, ht, rfl⟩ := Option.map_eq_some_iff.mp h
    exact ⟨op, t, ht, rfl⟩
  · rintro ⟨op, t, ht, rfl⟩
    exact ⟨op, mem_assignedOpcodes ht, by rw [ht]; rfl⟩

/-- A row is known by its mnemonic. -/
theorem opcodeRow_eq_of_mnemonic {r r' : OpcodeRow} (h : r ∈ opcodeRows) (h' : r' ∈ opcodeRows)
    (hm : r.mnemonic = r'.mnemonic) : r = r' :=
  List.inj_on_of_nodup_map (by decide : (opcodeRows.map (·.mnemonic)).Nodup) h h' hm

/-- A word that meets the match and mask of a row decodes to a command of the row. -/
theorem decode_of_matches {w : Word} {r : OpcodeRow} (hr : r ∈ opcodeRows) (hw : r.Matches w) :
    ∃ i, decode w = .ok i ∧ i.mnemonic = r.mnemonic := by
  obtain ⟨op, t, ht, rfl⟩ := mem_opcodeRows.mp hr
  obtain ⟨i, hmakes⟩ := Layout.masked_iff.mp hw
  obtain ⟨rfl, hm⟩ := encode_mnemonic_of_makes ht hmakes
  exact ⟨i, decode_encode i, hm⟩

/-- A word that decodes to a command meets the match and mask of a row with its mnemonic. -/
theorem matches_of_decode {w : Word} {i : Instr} (hd : decode w = .ok i) :
    ∃ r ∈ opcodeRows, r.Matches w ∧ i.mnemonic = r.mnemonic := by
  obtain ⟨t, ht, hmakes⟩ := decode_eq_ok.mp hd
  refine ⟨t.opcodeRow (fieldOp w).toNat, mem_opcodeRows.mpr ⟨_, t, ht, rfl⟩, ?_,
    (encode_mnemonic_of_makes ht hmakes).2⟩
  exact Layout.masked_iff.mpr ⟨i, hmakes⟩

/-- Settles O3: the row that a decoded word meets is the one with its mnemonic. -/
theorem wordIsCommandExactlyWhenItMatches : Obligations.WordIsCommandExactlyWhenItMatches := by
  intro w r hr
  refine ⟨decode_of_matches hr, ?_⟩
  rintro ⟨i, hd, hm⟩
  obtain ⟨r', hr', hw, hm'⟩ := matches_of_decode hd
  obtain rfl := opcodeRow_eq_of_mnemonic hr hr' (hm.symm.trans hm')
  exact hw

/-! ## Illegal words -/

/-- A word that meets no row of R75 is no command (R77). -/
theorem decode_error_of_no_match {w : Word} (h : ∀ r ∈ opcodeRows, ¬ r.Matches w) : ∃ e, decode w = .error e := by
  cases hd : decode w with
  | error e => exact ⟨e, rfl⟩
  | ok i =>
    obtain ⟨r, hr, hw, -⟩ := matches_of_decode hd
    exact absurd hw (h r hr)

end Sys2Proof.Laws

namespace Sys2Proof.Machine

theorem step_illegal {s : State} {w : Word} {rest : List HostInput} {e : DecodeError}
    (hs : s.input = .command w :: rest) (hd : decode w = .error e) :
    step s = .next (illegalWord w { s with input := rest }) := by
  simp only [step, nextEvent_word hs, hd]

/-- Settles O6: the word decodes to no command, and fault entry from F = 0 writes the four CSRs. -/
theorem stepFaultsOnIllegalWord : Obligations.StepFaultsOnIllegalWord := by
  intro s w rest hs hf hw
  obtain ⟨e, hd⟩ := Laws.decode_error_of_no_match hw
  have hfault := takeFault_eq (s := { s with input := rest }) hf w ⟨.illegalCommand, 0⟩
  rw [step_illegal hs hd, illegalWord, hfault]
  rfl

end Sys2Proof.Machine
end

section
/-! PROOFS. The GF(32) unit (40_gf32.md). Multiplying by the tables is repeated multiplication by the element x, which is linear
over XOR. So it distributes over XOR (O22) and agrees with the product by shift, XOR and reduction; the four commands (O18 to
O21) read their results off that. -/

namespace Sys2Proof.Machine

/-! ## Commands that write a number, and letter operands -/

section Operands

variable {i : Instr} {s : State} {b : Except Raised State}

theorem takesFault_badOperand {n : Nat} (hf : s.fstat = false) (hi : exec i s = command i s b)
    (hb : b = .error ⟨.badOperand, n⟩) : TakesFault i s 2 n :=
  takesFault_of hf hi hb

theorem answers_setsX {rd : XReg} {n : Nat} (hf : s.fstat = false) (hi : exec i s = command i s b)
    (hb : b = .ok (s.setXNat rd n)) : Answers i s (SetsX rd (BitVec.ofNat 32 n) s) :=
  answers_of hf hi hb (setsX_setX s rd _)

theorem answers_setsXTo {rd : XReg} {n : Nat} {post : Word → Prop} (hf : s.fstat = false)
    (hi : exec i s = command i s b) (hb : b = .ok (s.setXNat rd n)) (hp : post (BitVec.ofNat 32 n)) :
    Answers i s (SetsXTo rd post s) :=
  answers_of hf hi hb (setsXTo_setX s rd _ hp)

/-- A command that reads a letter before all else refuses a value above 31. -/
theorem takesFault_letter {v : Word} {f : Letter → Except Raised State} (hf : s.fstat = false)
    (hi : exec i s = command i s (letterOperand v >>= f)) (hv : 31 < v.toNat) : TakesFault i s 2 v.toNat :=
  takesFault_badOperand hf hi (by rw [letterOperand_bad hv, error_bind_eq])

/-- A command that reads two letters before all else makes their checks in that order (R308). -/
theorem checksLetters_of {v w : Word} {f : Letter → Letter → Except Raised State} (hf : s.fstat = false)
    (hi : exec i s = command i s (letterOperand v >>= fun a => letterOperand w >>= f a)) :
    ChecksLetters i s v.toNat w.toNat := by
  refine ⟨takesFault_letter hf hi, fun hv hw => takesFault_badOperand hf hi ?_⟩
  rw [letterOperand_ok hv, ok_bind_eq, letterOperand_bad hw, error_bind_eq]

end Operands

/-- The letter read from an operand is 0 exactly when the operand is. -/
theorem letter_eq_zero_iff {v : Word} (h : v.toNat ≤ 31) : v.setWidth 5 = (0 : Letter) ↔ v.toNat = 0 := by
  rw [← letter_toNat h]
  exact BitVec.toNat_inj.symm

/-- A number below 2^32 is kept when it is written to an operand register. -/
theorem toNat_ofNat_word {n : Nat} (h : n < 2 ^ 32) : (BitVec.ofNat 32 n).toNat = n := by
  rw [BitVec.toNat_ofNat, Nat.mod_eq_of_lt h]

theorem letter_toNat_lt (a : Letter) : a.toNat < 2 ^ 32 :=
  a.isLt.trans (by decide)

/-! ## The two tables are inverse -/

theorem gfLog_lt (a : Letter) : gfLog a < 31 := by
  revert a; decide

theorem gfExp_gfLog {a : Letter} : a ≠ 0 → gfExp (gfLog a) = a := by
  revert a; decide

theorem gfLog_gfExp {i : Nat} : i < 31 → gfLog (gfExp i) = i := by
  revert i; decide

theorem gfExp_ne_zero {i : Nat} : i < 31 → gfExp i ≠ 0 := by
  revert i; decide

/-! ## Products by the tables -/

@[simp] theorem gfMul_zero_left (b : Letter) : gfMul 0#5 b = 0#5 :=
  if_pos (.inl rfl)

@[simp] theorem gfMul_zero_right (a : Letter) : gfMul a 0#5 = 0#5 :=
  if_pos (.inr rfl)

theorem gfMul_of_ne_zero {a b : Letter} (ha : a ≠ 0) (hb : b ≠ 0) : gfMul a b = gfExp ((gfLog a + gfLog b) % 31) :=
  if_neg (not_or.mpr ⟨ha, hb⟩)

theorem gfMul_ne_zero {a b : Letter} (ha : a ≠ 0) (hb : b ≠ 0) : gfMul a b ≠ 0 := by
  rw [gfMul_of_ne_zero ha hb]
  exact gfExp_ne_zero (Nat.mod_lt _ (by decide))

theorem gfMul_eq_zero {a b : Letter} : gfMul a b = 0 ↔ a = 0 ∨ b = 0 := by
  constructor
  · intro h
    by_contra hab
    obtain ⟨ha, hb⟩ := not_or.mp hab
    exact gfMul_ne_zero ha hb h
  · rintro (rfl | rfl)
    · exact gfMul_zero_left b
    · exact gfMul_zero_right a

theorem gfLog_gfMul {a b : Letter} (ha : a ≠ 0) (hb : b ≠ 0) : gfLog (gfMul a b) = (gfLog a + gfLog b) % 31 := by
  rw [gfMul_of_ne_zero ha hb, gfLog_gfExp (Nat.mod_lt _ (by decide))]

theorem gfMul_gfExp {i j : Nat} (hi : i < 31) (hj : j < 31) : gfMul (gfExp i) (gfExp j) = gfExp ((i + j) % 31) := by
  rw [gfMul_of_ne_zero (gfExp_ne_zero hi) (gfExp_ne_zero hj), gfLog_gfExp hi, gfLog_gfExp hj]

theorem gfMul_comm (a b : Letter) : gfMul a b = gfMul b a := by
  simp only [gfMul, or_comm, Nat.add_comm]

theorem gfMul_assoc (a b c : Letter) : gfMul a (gfMul b c) = gfMul (gfMul a b) c := by
  by_cases ha : a = 0
  · simp [ha]
  by_cases hb : b = 0
  · simp [hb]
  by_cases hc : c = 0
  · simp [hc]
  rw [gfMul_of_ne_zero ha (gfMul_ne_zero hb hc), gfMul_of_ne_zero (gfMul_ne_zero ha hb) hc, gfLog_gfMul hb hc,
    gfLog_gfMul ha hb, Nat.add_mod_mod, Nat.mod_add_mod, Nat.add_assoc]

theorem gfMul_one (a : Letter) : gfMul a 1 = a := by
  obtain rfl | ha := eq_or_ne a 0
  · exact gfMul_zero_left 1
  have hone : gfLog 1 = 0 := rfl
  rw [gfMul_of_ne_zero ha (by decide), hone, Nat.add_zero, Nat.mod_eq_of_lt (gfLog_lt a), gfExp_gfLog ha]

theorem gfInv_zero : gfInv 0 = 0 := rfl

theorem gfInv_of_ne_zero {a : Letter} (ha : a ≠ 0) : gfInv a = gfExp ((31 - gfLog a) % 31) :=
  if_neg ha

theorem gfMul_gfInv {a : Letter} (ha : a ≠ 0) : gfMul a (gfInv a) = 1 := by
  have hlog := gfLog_lt a
  have hsum : (gfLog a + (31 - gfLog a) % 31) % 31 = 0 := by omega
  calc gfMul a (gfInv a) = gfMul (gfExp (gfLog a)) (gfExp ((31 - gfLog a) % 31)) := by
        rw [gfExp_gfLog ha, gfInv_of_ne_zero ha]
    _ = gfExp 0 := by rw [gfMul_gfExp hlog (Nat.mod_lt _ (by decide)), hsum]
    _ = 1 := rfl

/-- Multiplying by a nonzero letter is undone by multiplying by its inverse. -/
theorem gfMul_bijective {b : Letter} (hb : b ≠ 0) : Function.Bijective (fun a => gfMul a b) := by
  refine Function.bijective_iff_has_inverse.mpr ⟨fun c => gfMul c (gfInv b), fun a => ?_, fun c => ?_⟩
  · change gfMul (gfMul a b) (gfInv b) = a
    rw [← gfMul_assoc, gfMul_gfInv hb, gfMul_one]
  · change gfMul (gfMul c (gfInv b)) b = c
    rw [← gfMul_assoc, gfMul_comm (gfInv b), gfMul_gfInv hb, gfMul_one]

/-! ## XOR passes through shift and reduction -/

/-- A conditional XOR with a fixed value is linear over XOR in the condition and the value it acts on together. -/
theorem xor_if_linear (c d : Bool) (r q v : Nat) :
    (if (c ^^ d) = true then r ^^^ q ^^^ v else r ^^^ q) =
      (if c = true then r ^^^ v else r) ^^^ (if d = true then q ^^^ v else q) := by
  have hcancel : r ^^^ q = r ^^^ v ^^^ (q ^^^ v) := by
    rw [Nat.xor_comm q v, Nat.xor_assoc, Nat.xor_xor_cancel_left]
  cases c <;> cases d
  · rfl
  · exact Nat.xor_assoc r q v
  · exact Nat.xor_right_comm r q v
  · exact hcancel

theorem reduceGf32_xor (u v : Nat) : reduceGf32 (u ^^^ v) = reduceGf32 u ^^^ reduceGf32 v := by
  simp only [reduceGf32, List.foldl_cons, List.foldl_nil, Nat.testBit_xor, xor_if_linear]

theorem shiftXorProduct_xor_left (a a' b : Nat) :
    shiftXorProduct (a ^^^ a') b = shiftXorProduct a b ^^^ shiftXorProduct a' b := by
  have hrange : List.range 5 = [0, 1, 2, 3, 4] := rfl
  change (List.range 5).foldl (fun r i => if (a ^^^ a').testBit i then r ^^^ (b <<< i) else r) (0 ^^^ 0) = _
  simp only [shiftXorProduct, hrange, List.foldl_cons, List.foldl_nil, Nat.testBit_xor, xor_if_linear]

theorem fieldProduct_zero_left (b : Nat) : fieldProduct 0 b = 0 := by
  simp [fieldProduct, shiftXorProduct, reduceGf32]

theorem fieldProduct_xor_left (a a' b : Nat) : fieldProduct (a ^^^ a') b = fieldProduct a b ^^^ fieldProduct a' b := by
  simp only [fieldProduct, shiftXorProduct_xor_left, reduceGf32_xor]

/-! ## Multiplication by the element x -/

/-- The letter times the element x: shifted by one bit, then reduced (R100). -/
def timesX (a : Letter) : Letter := BitVec.ofNat 5 (reduceGf32 (a.toNat <<< 1))

theorem timesX_xor (a b : Letter) : timesX (a ^^^ b) = timesX a ^^^ timesX b := by
  simp only [timesX, BitVec.toNat_xor, Nat.shiftLeft_xor_distrib, reduceGf32_xor, BitVec.ofNat_xor]

theorem iterate_timesX_xor (n : Nat) (a b : Letter) : timesX^[n] (a ^^^ b) = timesX^[n] a ^^^ timesX^[n] b := by
  induction n with
  | zero => rfl
  | succ n ih => simp only [Function.iterate_succ_apply', ih, timesX_xor]

/-- GF_EXP is the cycle that multiplication by x runs through (R102). -/
theorem timesX_gfExp {i : Nat} : i < 31 → timesX (gfExp i) = gfExp ((i + 1) % 31) := by
  revert i; decide

theorem iterate_timesX_gfExp {i : Nat} (hi : i < 31) (n : Nat) : timesX^[n] (gfExp i) = gfExp ((n + i) % 31) := by
  induction n with
  | zero => simp [Nat.mod_eq_of_lt hi]
  | succ n ih =>
    rw [Function.iterate_succ_apply', ih, timesX_gfExp (Nat.mod_lt _ (by decide)), Nat.mod_add_mod, Nat.add_right_comm]

theorem iterate_timesX_zero (n : Nat) : timesX^[n] 0 = 0 :=
  Function.iterate_fixed rfl n

/-- Multiplying by a nonzero letter is multiplying by x as often as its logarithm says. -/
theorem gfMul_eq_iterate {a : Letter} (ha : a ≠ 0) (b : Letter) : gfMul a b = timesX^[gfLog a] b := by
  obtain rfl | hb := eq_or_ne b 0
  · exact (gfMul_zero_right a).trans (iterate_timesX_zero _).symm
  calc gfMul a b = gfExp ((gfLog a + gfLog b) % 31) := gfMul_of_ne_zero ha hb
    _ = timesX^[gfLog a] (gfExp (gfLog b)) := (iterate_timesX_gfExp (gfLog_lt b) _).symm
    _ = timesX^[gfLog a] b := by rw [gfExp_gfLog hb]

theorem gfMul_xor (a b c : Letter) : gfMul a (b ^^^ c) = gfMul a b ^^^ gfMul a c := by
  by_cases ha : a = 0
  · simp [ha]
  · simp only [gfMul_eq_iterate ha, iterate_timesX_xor]

/-- Settles O22: the laws of R110, each by its lemma above. -/
theorem gfTablesFormAField : Obligations.GfTablesFormAField :=
  ⟨gfMul_comm, gfMul_assoc, gfMul_xor, gfMul_one, fun _ _ => gfMul_eq_zero, fun _ => gfMul_gfInv, fun _ => gfExp_gfLog,
    fun _ hi => gfLog_gfExp (Nat.lt_succ_of_le hi), fun _ => gfMul_bijective⟩

/-! ## The tables compute the field's product and powers -/

/-- The power of x that bit `i` of a letter stands for, or 0 when the bit is not set (R100). -/
def bitPart (a : Letter) (i : Fin 5) : Letter := if a.getLsbD i then 1#5 <<< (i : Nat) else 0

theorem letter_eq_xor_bitParts (a : Letter) : a = (List.finRange 5).foldl (fun r i => r ^^^ bitPart a i) 0 := by
  revert a; decide

/-- What holds of 0 and of the single bits and passes through XOR holds of every letter. -/
theorem letter_induction {P : Letter → Prop} (zero : P 0) (bit : ∀ i : Fin 5, P (1#5 <<< (i : Nat)))
    (xor : ∀ a b, P a → P b → P (a ^^^ b)) (a : Letter) : P a := by
  have hpart (i : Fin 5) : P (bitPart a i) := by
    unfold bitPart
    split
    · exact bit i
    · exact zero
  rw [letter_eq_xor_bitParts a]
  exact List.foldlRecOn _ _ zero fun r hr i _ => xor r _ hr (hpart i)

/-- A product with a single bit, which is a power of x, agrees. -/
theorem fieldProduct_bit (i : Fin 5) (b : Letter) :
    fieldProduct (1#5 <<< (i : Nat)).toNat b.toNat = (gfMul (1#5 <<< (i : Nat)) b).toNat := by
  revert i b; decide

/-- Both products distribute over XOR in the first factor, so they agree because they agree on single bits. -/
theorem fieldProduct_eq_gfMul (a b : Letter) : fieldProduct a.toNat b.toNat = (gfMul a b).toNat := by
  induction a using letter_induction with
  | zero => exact (fieldProduct_zero_left _).trans (congrArg BitVec.toNat (gfMul_zero_left b)).symm
  | bit i => exact fieldProduct_bit i b
  | xor a a' ha ha' =>
    rw [BitVec.toNat_xor, fieldProduct_xor_left, ha, ha', gfMul_comm (a ^^^ a'), gfMul_xor, BitVec.toNat_xor,
      gfMul_comm b, gfMul_comm b]

theorem fieldPower_eq_gfExp {i : Nat} (hi : i < 31) : fieldPower i = (gfExp i).toNat := by
  induction i with
  | zero => rfl
  | succ i ih =>
    have hx : gfMul 2 (gfExp i) = gfExp (i + 1) := by
      have h := gfMul_gfExp (i := 1) (by decide) (Nat.lt_of_succ_lt hi)
      rwa [Nat.add_comm, Nat.mod_eq_of_lt hi] at h
    calc fieldPower (i + 1) = fieldProduct 2 (gfExp i).toNat := by rw [fieldPower, ih (Nat.lt_of_succ_lt hi)]
      _ = (gfMul 2 (gfExp i)).toNat := fieldProduct_eq_gfMul 2 (gfExp i)
      _ = (gfExp (i + 1)).toNat := by rw [hx]

/-! ## The four commands -/

/-- Settles O18: the product by the tables is the field's product. -/
theorem gfmulIsTheFieldProduct : Obligations.GfmulIsTheFieldProduct := by
  intro rd rs1 rs2 s hf
  refine ⟨wordR_eq_assembled _ _ _ _, checksLetters_of hf rfl, fun h1 h2 => ?_⟩
  refine answers_setsX hf rfl ?_
  rw [letterOperand_ok h1, ok_bind_eq, letterOperand_ok h2, ok_bind_eq, pure_eq_ok, ← fieldProduct_eq_gfMul,
    letter_toNat h1, letter_toNat h2]

/-- Settles O19: the inverse by the tables is the letter whose field product with the operand is 1, and 0 for 0. -/
theorem gfinvIsTheFieldInverse : Obligations.GfinvIsTheFieldInverse := by
  intro rd rs1 s hf
  refine ⟨wordR_eq_assembled _ _ _ _, takesFault_letter hf rfl, fun h1 => ?_⟩
  refine answers_setsXTo hf rfl (by rw [letterOperand_ok h1, ok_bind_eq, pure_eq_ok]) ?_
  rw [toNat_ofNat_word (letter_toNat_lt _)]
  refine ⟨Nat.le_of_lt_succ (gfInv _).isLt, fun h0 => ?_, fun h0 => ?_⟩
  · rw [(letter_eq_zero_iff h1).mpr h0, gfInv_zero]
    rfl
  · rw [State.xv, ← letter_toNat h1, fieldProduct_eq_gfMul, gfMul_gfInv (mt (letter_eq_zero_iff h1).mp h0)]
    rfl

/-- Settles O20: GF_EXP lists the powers of x. -/
theorem gfexpIsThePowerOfX : Obligations.GfexpIsThePowerOfX := by
  intro rd rs1 s hf
  refine ⟨wordR_eq_assembled _ _ _ _, fun h => takesFault_badOperand hf rfl ?_, fun h => ?_⟩
  · rw [boundedOperand_bad h, error_bind_eq]
  · rw [fieldPower_eq_gfExp (Nat.lt_succ_of_le h)]
    exact answers_setsX hf rfl (by rw [boundedOperand_ok h, ok_bind_eq, pure_eq_ok])

/-- GFLOG refuses 0 and a value above 31, each with the value itself. -/
theorem gflog_takesFault {rd rs1 : XReg} {s : State} (hf : s.fstat = false) (h : s.xv rs1 = 0 ∨ 31 < s.xv rs1) :
    TakesFault (.gflog rd rs1) s 2 (s.xv rs1) := by
  refine takesFault_badOperand hf rfl ?_
  obtain h0 | h31 := h
  · rw [raiseIf_of (BitVec.eq_of_toNat_eq h0), error_bind_eq, h0]
  · have hne : ¬ s.getX rs1 = 0 := fun h => by simp [State.xv, h] at h31
    rw [raiseIf_of_not hne, ok_bind_eq, letterOperand_bad h31, error_bind_eq]

/-- Settles O21: GF_LOG gives the exponent at which GF_EXP, which lists the powers of x, holds the letter. -/
theorem gflogIsTheLogarithm : Obligations.GflogIsTheLogarithm := by
  intro rd rs1 s hf
  refine ⟨wordR_eq_assembled _ _ _ _, gflog_takesFault hf, fun h0 h1 => ?_⟩
  have hne : ¬ s.getX rs1 = 0 := mt (congrArg BitVec.toNat) h0
  have hlog := gfLog_lt ((s.getX rs1).setWidth 5)
  refine answers_setsXTo hf rfl (by rw [raiseIf_of_not hne, ok_bind_eq, letterOperand_ok h1, ok_bind_eq, pure_eq_ok]) ?_
  rw [toNat_ofNat_word (by omega)]
  refine ⟨Nat.le_of_lt_succ hlog, ?_⟩
  rw [fieldPower_eq_gfExp hlog, gfExp_gfLog (mt (letter_eq_zero_iff h1).mp h0), letter_toNat h1]

end Sys2Proof.Machine
end

section
/-! PROOFS. The F31 unit and the polynomial registers (41_f31.md). A polynomial register is read as a Mathlib polynomial over
`ZMod 31`, so that what R120, R138 and R141 say of degrees, products and values are facts about polynomials over a field; the
commands (O23 to O31) read their results off that. -/

namespace Sys2Proof.Machine

/-! ## The unit's operands, results and words -/

section Operands

variable {i : Instr} {s : State} {b : Except Raised State}

theorem f31_ofNat_val {n : Nat} (h : n ≤ 30) : (Fin.ofNat 31 n).val = n :=
  Nat.mod_eq_of_lt (Nat.lt_succ_of_le h)

theorem int31Operand_of_le {v : Word} (h : v.toNat ≤ 30) : int31Operand v = .ok (Fin.ofNat 31 v.toNat) := by
  rw [int31Operand_ok (Nat.lt_succ_of_le h)]
  exact congrArg Except.ok (Fin.ext (f31_ofNat_val h).symm)

/-- A command that reads an Int31 before all else refuses a value above 30. -/
theorem takesFault_int31 {v : Word} {f : F31 → Except Raised State} (hf : s.fstat = false)
    (hi : exec i s = command i s (int31Operand v >>= f)) (hv : 30 < v.toNat) : TakesFault i s 2 v.toNat :=
  takesFault_badOperand hf hi (by rw [int31Operand_bad hv, error_bind_eq])

/-- A command that reads two Int31 values before all else makes their checks in that order (R308). -/
theorem checksInt31s_of {v w : Word} {f : F31 → F31 → Except Raised State} (hf : s.fstat = false)
    (hi : exec i s = command i s (int31Operand v >>= fun a => int31Operand w >>= f a)) :
    ChecksInt31s i s v.toNat w.toNat := by
  refine ⟨takesFault_int31 hf hi, fun hv hw => takesFault_badOperand hf hi ?_⟩
  rw [int31Operand_of_le hv, ok_bind_eq, int31Operand_bad hw, error_bind_eq]

theorem int31Operands_of_le {v w : Word} (f : F31 → F31 → Except Raised State) (hv : v.toNat ≤ 30) (hw : w.toNat ≤ 30) :
    (int31Operand v >>= fun a => int31Operand w >>= f a) = f (Fin.ofNat 31 v.toNat) (Fin.ofNat 31 w.toNat) := by
  rw [int31Operand_of_le hv, ok_bind_eq, int31Operand_of_le hw, ok_bind_eq]

/-- A command that writes a function of two Int31 values and has no other check (R122, R123, R124). -/
theorem int31Binary_spec {rd : XReg} {v w : Word} {g : F31 → F31 → F31} {n : Nat} (hf : s.fstat = false)
    (hi : exec i s = command i s
      (int31Operand v >>= fun a => int31Operand w >>= fun b => pure (s.setXNat rd (g a b).val)))
    (hn : w.toNat ≤ 30 → (g (Fin.ofNat 31 v.toNat) (Fin.ofNat 31 w.toNat)).val = n) :
    ChecksInt31s i s v.toNat w.toNat ∧
      (v.toNat ≤ 30 → w.toNat ≤ 30 → Answers i s (SetsX rd (BitVec.ofNat 32 n) s)) := by
  refine ⟨checksInt31s_of hf hi, fun hv hw => answers_setsX hf hi ?_⟩
  rw [int31Operands_of_le _ hv hw, hn hw, pure_eq_ok]

theorem answers_setsP {pd : PReg} {q : Poly31} {c : Nat → F31} (hf : s.fstat = false) (hi : exec i s = command i s b)
    (hb : b = .ok (s.setP pd q)) (hq : ∀ k, k < 30 → coeff q k = c k) : Answers i s (SetsP pd c s) :=
  answers_of hf hi hb (setsP_setP s pd q hq)

/-- A word of format R is the assembly of its fields, a polynomial register's field included (R71, R72). -/
theorem hasWord_of_fields {op : BitVec 8} {a b c : BitVec 4} {no na nb nc : Nat} (hi : encode i = wordR op a b c)
    (ho : op.toNat = no) (ha : a.toNat = na) (hb : b.toNat = nb) (hc : c.toNat = nc) : HasWord i no na nb nc := by
  rw [HasWord, hi, wordR_eq_assembled, ho, ha, hb, hc]

end Operands

/-! ## The scalar commands -/

theorem toField_ofNat (n : Nat) : toField (Fin.ofNat 31 n) = n :=
  ZMod.natCast_mod n 31

theorem f31_ofNat_val_self (a : F31) : Fin.ofNat 31 a.val = a :=
  toField_injective (toField_ofNat _)

theorem natCast_sub_31 {n : Nat} (m : Nat) (h : n ≤ 30) : ((m + 31 - n : Nat) : ZMod 31) = m - n := by
  have hzero : ((31 : Nat) : ZMod 31) = 0 := rfl
  rw [Nat.cast_sub (by omega), Nat.cast_add, hzero, add_zero]

theorem f31_ofNat_add_val (m n : Nat) : (Fin.ofNat 31 m + Fin.ofNat 31 n).val = (m + n) % 31 :=
  val_eq_of_toField (by rw [toField_add, toField_ofNat, toField_ofNat, Nat.cast_add])

theorem f31_ofNat_sub_val (m : Nat) {n : Nat} (h : n ≤ 30) : (Fin.ofNat 31 m - Fin.ofNat 31 n).val = (m + 31 - n) % 31 :=
  val_eq_of_toField (by rw [toField_sub, toField_ofNat, toField_ofNat, natCast_sub_31 m h])

theorem f31_ofNat_mul_val (m n : Nat) : (Fin.ofNat 31 m * Fin.ofNat 31 n).val = m * n % 31 :=
  val_eq_of_toField (by rw [toField_mul, toField_ofNat, toField_ofNat, Nat.cast_mul])

theorem f31_neg_ofNat {n : Nat} (h : n ≤ 30) : -Fin.ofNat 31 n = Fin.ofNat 31 (31 - n) := by
  have hsub := natCast_sub_31 0 h
  rw [zero_add, Nat.cast_zero, zero_sub] at hsub
  exact toField_injective (by rw [toField_neg, toField_ofNat, toField_ofNat, hsub])

/-- Settles O23: each command is the field's operation on the numbers its operands hold. -/
theorem f31ArithmeticIsModulo31 : Obligations.F31ArithmeticIsModulo31 := by
  intro rd rs1 rs2 s hf
  exact ⟨⟨wordR_eq_assembled _ _ _ _, int31Binary_spec hf rfl fun _ => f31_ofNat_add_val _ _⟩,
    ⟨wordR_eq_assembled _ _ _ _, int31Binary_spec hf rfl fun h2 => f31_ofNat_sub_val _ h2⟩,
    ⟨wordR_eq_assembled _ _ _ _, int31Binary_spec hf rfl fun _ => f31_ofNat_mul_val _ _⟩⟩

/-- Multiplying the quotient by the divisor gives the dividend back. -/
theorem f31_quotient_mul (a : F31) {b : F31} (hb : b ≠ 0) : (a * f31Inv b).val * b.val % 31 = a.val := by
  refine (val_eq_of_toField ?_).symm
  calc toField a = toField a * (toField (f31Inv b) * toField b) := by rw [toField_f31Inv hb, mul_one]
    _ = toField (a * f31Inv b) * toField b := by rw [toField_mul, mul_assoc]
    _ = (((a * f31Inv b).val * b.val : Nat) : ZMod 31) := (Nat.cast_mul _ _).symm

/-- Settles O24: the ranges, then the zero divisor, then the quotient of `f31_quotient_mul`. -/
theorem f31divIsTheQuotient : Obligations.F31divIsTheQuotient := by
  intro rd rs1 rs2 s hf
  refine ⟨wordR_eq_assembled _ _ _ _, checksInt31s_of hf rfl, fun h1 h0 => ?_, fun h1 h2 h0 => ?_⟩
  · refine takesFault_of (e := ⟨.divisionByZero, s.xv rs1⟩) hf rfl ?_
    have hb : Fin.ofNat 31 (s.xv rs2) = 0 := by rw [h0]; rfl
    rw [int31Operands_of_le _ h1 (h0.trans_le (Nat.zero_le _)), raiseIf_of hb, error_bind_eq, f31_ofNat_val h1]
  · have hb : Fin.ofNat 31 (s.xv rs2) ≠ 0 := fun h => h0 (by rw [← f31_ofNat_val h2, h]; rfl)
    refine answers_setsXTo hf rfl (by rw [int31Operands_of_le _ h1 h2, raiseIf_of_not hb, ok_bind_eq, pure_eq_ok]) ?_
    have hquot := f31_quotient_mul (Fin.ofNat 31 (s.xv rs1)) hb
    rw [f31_ofNat_val h1, f31_ofNat_val h2] at hquot
    rw [toNat_ofNat_word (lt_trans (Fin.isLt _) (by decide))]
    exact ⟨Nat.le_of_lt_succ (Fin.isLt _), hquot⟩

/-! ## Commands on the coefficients -/

/-- Settles O25: each command's checks, then the coefficient it writes or reads. -/
theorem polyCoefficientAccess : Obligations.PolyCoefficientAccess := by
  intro rd rs1 rs2 pd ps1 s hf
  refine ⟨⟨?_, ?_⟩, ⟨?_, fun h1 => ?_, fun h1 h2 => ?_, fun h1 h2 => ?_⟩, ⟨?_, fun h2 => ?_, fun h2 => ?_⟩⟩
  · exact hasWord_of_fields rfl rfl (toNat_pfield _) rfl rfl
  · exact answers_setsP hf rfl rfl fun _ hk => coeff_polyOf_of_lt _ hk
  · exact hasWord_of_fields rfl rfl (toNat_pfield _) rfl rfl
  · exact takesFault_badOperand hf rfl (by rw [boundedOperand_bad h1, error_bind_eq])
  · refine takesFault_badOperand hf rfl ?_
    rw [boundedOperand_ok h1, ok_bind_eq, int31Operand_bad h2, error_bind_eq]
  · refine answers_setsP hf rfl ?_ fun _ hk => coeff_polyOf_of_lt _ hk
    rw [boundedOperand_ok h1, ok_bind_eq, int31Operand_of_le h2, ok_bind_eq, pure_eq_ok]
  · exact hasWord_of_fields rfl rfl rfl (toNat_pfield _) rfl
  · exact takesFault_badOperand hf rfl (by rw [boundedOperand_bad h2, error_bind_eq])
  · exact answers_setsX hf rfl (by rw [boundedOperand_ok h2, ok_bind_eq, pure_eq_ok])

/-- Settles O27: each command's check, then its coefficients one by one. -/
theorem polyLinearCommands : Obligations.PolyLinearCommands := by
  intro rs1 rs2 pd ps1 ps2 s hf
  refine ⟨⟨?_, fun h => ?_, fun h => ?_⟩, ⟨?_, ?_⟩, ⟨?_, takesFault_int31 hf rfl, fun h2 => ?_⟩,
    ⟨?_, takesFault_int31 hf rfl, fun h1 => ?_⟩⟩
  · exact hasWord_of_fields rfl rfl (toNat_pfield _) (toNat_pfield _) rfl
  · exact takesFault_of (e := ⟨.polyOverflow, 30⟩) hf rfl (by rw [raiseIf_of h, error_bind_eq])
  · refine answers_setsP hf rfl ?_ fun _ hk => coeff_polyOf_of_lt _ hk
    rw [raiseIf_of_not (not_not.mpr h), ok_bind_eq, pure_eq_ok]
  · exact hasWord_of_fields rfl rfl (toNat_pfield _) (toNat_pfield _) (toNat_pfield _)
  · refine answers_setsP hf rfl rfl fun k hk => ?_
    rw [coeff_polyOf_of_lt _ hk]
    rfl
  · exact hasWord_of_fields rfl rfl (toNat_pfield _) (toNat_pfield _) rfl
  · refine answers_setsP hf rfl (by rw [int31Operand_of_le h2, ok_bind_eq, pure_eq_ok]) fun k hk => ?_
    rw [polyScale, coeff_polyOf_of_lt _ hk]
    exact toField_injective (by rw [toField_mul, toField_ofNat, toField_ofNat, Nat.cast_mul, toField])
  · exact hasWord_of_fields rfl rfl (toNat_pfield _) rfl rfl
  · refine answers_setsP hf rfl (by rw [int31Operand_of_le h1, ok_bind_eq, pure_eq_ok]) fun k hk => ?_
    rw [coeff_polyOf_of_lt _ hk, f31_neg_ofNat h1]

/-! ## A polynomial register as a polynomial over the field -/

/-- 31 is prime, so `ZMod 31` is a field. -/
theorem fact_prime_31 : Fact (Nat.Prime 31) := ⟨by norm_num⟩

/-- The polynomial over `ZMod 31` with the register's coefficients (R130). -/
noncomputable def asPolynomial (q : Poly31) : Polynomial (ZMod 31) :=
  ∑ k ∈ Finset.range 30, Polynomial.monomial k (toField (coeff q k))

@[simp] theorem coeff_asPolynomial (q : Poly31) (k : Nat) : (asPolynomial q).coeff k = toField (coeff q k) := by
  rw [asPolynomial, Polynomial.finsetSum_coeff]
  simp only [Polynomial.coeff_monomial, Finset.sum_ite_eq', Finset.mem_range]
  split
  · rfl
  · rw [coeff_of_le q (by omega), toField_zero]

theorem eval_asPolynomial (q : Poly31) (t : ZMod 31) : (asPolynomial q).eval t = evalZ q t := by
  simp only [asPolynomial, Polynomial.eval_finsetSum, Polynomial.eval_monomial, evalZ]

/-- The degree of R13 is the polynomial's degree. -/
theorem hasDegree_iff {q : Poly31} {d : Nat} : HasDegree q d ↔ (asPolynomial q).degree = d := by
  constructor
  · rintro ⟨hd, habove⟩
    refine Polynomial.degree_eq_of_le_of_coeff_ne_zero ((Polynomial.degree_le_iff_coeff_zero _ _).mpr fun k hk => ?_) ?_
    · rw [coeff_asPolynomial, habove k (WithBot.coe_lt_coe.mp hk), toField_zero]
    · rw [coeff_asPolynomial]
      exact mt toField_eq_zero.mp hd
  · intro h
    refine ⟨fun hd => ?_, fun k hk => ?_⟩
    · exact Polynomial.coeff_ne_zero_of_eq_degree h (by rw [coeff_asPolynomial, hd, toField_zero])
    · rw [← toField_eq_zero, ← coeff_asPolynomial]
      exact Polynomial.coeff_eq_zero_of_degree_lt (h.trans_lt (WithBot.coe_lt_coe.mpr hk))

theorem HasDegree.le_29 {q : Poly31} {d : Nat} (h : HasDegree q d) : d ≤ 29 := by
  by_contra hd
  exact h.1 (coeff_of_le q (by omega))

/-! ## Values -/

theorem natCast_sum_eq_eval (q : Poly31) (t : Nat) :
    ((∑ k ∈ Finset.range 30, (coeff q k).val * t ^ k : Nat) : ZMod 31) = (asPolynomial q).eval (t : ZMod 31) := by
  rw [eval_asPolynomial, evalZ]
  push_cast
  rfl

/-- The value R120 speaks of is the number of the polynomial's value in the field. -/
theorem specEval_eq_mod {q : Poly31} {t n : Nat} (h : (asPolynomial q).eval (t : ZMod 31) = n) : specEval q t = n % 31 :=
  (ZMod.natCast_eq_natCast_iff' _ _ _).mp ((natCast_sum_eq_eval q t).trans h)

theorem specEval_cast (q : Poly31) (t : Nat) : (specEval q t : ZMod 31) = (asPolynomial q).eval (t : ZMod 31) := by
  rw [specEval, ZMod.natCast_mod, natCast_sum_eq_eval]

theorem specEval_eq_polyEval (q : Poly31) (t : Nat) : specEval q t = (polyEval q (Fin.ofNat 31 t)).val := by
  refine (val_eq_of_toField ?_).symm
  rw [toField_polyEval, toField_ofNat, natCast_sum_eq_eval, eval_asPolynomial]

/-- Settles O26: Horner's scheme computes the sum. -/
theorem pevalIsTheValueAtThePoint : Obligations.PevalIsTheValueAtThePoint := by
  intro rd rs2 ps1 s hf
  refine ⟨hasWord_of_fields rfl rfl rfl (toNat_pfield _) rfl, takesFault_int31 hf rfl, fun h => ?_⟩
  rw [specEval_eq_polyEval]
  exact answers_setsX hf rfl (by rw [int31Operand_of_le h, ok_bind_eq, pure_eq_ok])

/-! ## Products -/

theorem toField_productCoeff_eq_coeff (q r : Poly31) (k : Nat) :
    toField (productCoeff q r k) = (asPolynomial q * asPolynomial r).coeff k := by
  rw [toField_productCoeff, Polynomial.coeff_mul, Finset.Nat.sum_antidiagonal_eq_sum_range_succ_mk]
  simp only [coeff_asPolynomial]

/-- The double sum of R138 is the product's coefficient. -/
theorem specProduct_eq (q r : Poly31) (k : Nat) : specProduct q r k = (productCoeff q r k).val := by
  refine (val_eq_of_toField ?_).symm
  rw [toField_productCoeff_eq_coeff, asPolynomial, asPolynomial, Finset.sum_mul_sum, Polynomial.finsetSum_coeff]
  push_cast
  refine Finset.sum_congr rfl fun i _ => ?_
  rw [Polynomial.finsetSum_coeff]
  refine Finset.sum_congr rfl fun j _ => ?_
  rw [Polynomial.monomial_mul_monomial, Polynomial.coeff_monomial]
  rfl

theorem specProduct_eq_zero {q r : Poly31} {k : Nat} : specProduct q r k = 0 ↔ productCoeff q r k = 0 := by
  rw [specProduct_eq, Fin.val_eq_zero_iff]

/-- The product has no power above X^58 (R138). -/
theorem productCoeff_of_lt (q r : Poly31) {k : Nat} (hk : 58 < k) : productCoeff q r k = 0 := by
  rw [← toField_eq_zero, toField_productCoeff]
  refine Finset.sum_eq_zero fun i _ => ?_
  obtain hi | hi := Nat.lt_or_ge i 30
  · rw [coeff_of_le r (by omega), toField_zero, mul_zero]
  · rw [coeff_of_le q hi, toField_zero, zero_mul]

/-- Without overflow the 30 coefficients PMUL keeps are the whole product. -/
theorem asPolynomial_product {q r : Poly31} (h : productOverflow q r = none) :
    asPolynomial (polyOf (productCoeff q r)) = asPolynomial q * asPolynomial r := by
  ext k
  rw [coeff_asPolynomial, coeff_polyOf, ← toField_productCoeff_eq_coeff]
  split
  · rfl
  · obtain hk | hk := Nat.lt_or_ge 58 k
    · rw [productCoeff_of_lt q r hk]
    · rw [productOverflow_eq_none.mp h k (by omega) hk]

section Pmul

variable {pd ps1 ps2 : PReg} {s : State}

theorem pmul_overflow {d : Nat} (hf : s.fstat = false) (h : productOverflow (s.getP ps1) (s.getP ps2) = some d) :
    TakesFault (.pmul pd ps1 ps2) s 4 d :=
  takesFault_of (e := ⟨.polyOverflow, d⟩) hf rfl (by rw [h])

theorem pmul_completes (hf : s.fstat = false) (h : productOverflow (s.getP ps1) (s.getP ps2) = none) :
    exec (.pmul pd ps1 ps2) s = .next (s.setP pd (polyOf (productCoeff (s.getP ps1) (s.getP ps2)))) := by
  change execPmul pd ps1 ps2 s = _
  rw [execPmul, h, command_ok hf]

end Pmul

/-- Settles O28: the double sum is the product's coefficient, and the search finds the largest k at which it is not 0. -/
theorem pmulIsTheExactProduct : Obligations.PmulIsTheExactProduct := by
  intro pd ps1 ps2 s hf
  simp only [ne_eq, specProduct_eq_zero]
  refine ⟨hasWord_of_fields rfl rfl (toNat_pfield _) (toNat_pfield _) (toNat_pfield _), fun d h30 h58 hd habove => ?_,
    fun hzero => ?_⟩
  · exact pmul_overflow hf (productOverflow_eq_some h30 h58 hd habove)
  · refine ⟨_, pmul_completes hf (productOverflow_eq_none.mpr hzero), setsP_setP _ _ _ fun k hk => ?_⟩
    rw [coeff_polyOf_of_lt _ hk, specProduct_eq, f31_ofNat_val_self]

/-- Over a field the degrees of the factors add up (R138). -/
theorem degree_asPolynomial_mul {q r : Poly31} {d e : Nat} (hd : HasDegree q d) (he : HasDegree r e) :
    (asPolynomial q * asPolynomial r).degree = (d + e : Nat) := by
  have := fact_prime_31
  rw [Polynomial.degree_mul, hasDegree_iff.mp hd, hasDegree_iff.mp he, Nat.cast_add]

theorem productCoeff_ne_zero_of_degree {q r : Poly31} {d e : Nat} (hd : HasDegree q d) (he : HasDegree r e) :
    productCoeff q r (d + e) ≠ 0 := by
  rw [ne_eq, ← toField_eq_zero, toField_productCoeff_eq_coeff]
  exact Polynomial.coeff_ne_zero_of_eq_degree (degree_asPolynomial_mul hd he)

theorem productCoeff_eq_zero_of_degree_lt {q r : Poly31} {d e k : Nat} (hd : HasDegree q d) (he : HasDegree r e)
    (hk : d + e < k) : productCoeff q r k = 0 := by
  rw [← toField_eq_zero, toField_productCoeff_eq_coeff]
  exact Polynomial.coeff_eq_zero_of_degree_lt
    ((degree_asPolynomial_mul hd he).trans_lt (WithBot.coe_lt_coe.mpr hk))

theorem productCoeff_eq_zero_of_zero_factor {q r : Poly31} (h : (∀ k, coeff q k = 0) ∨ ∀ k, coeff r k = 0) (k : Nat) :
    productCoeff q r k = 0 := by
  rw [← toField_eq_zero, toField_productCoeff]
  refine Finset.sum_eq_zero fun i _ => ?_
  obtain hq | hr := h
  · rw [hq, toField_zero, zero_mul]
  · rw [hr, toField_zero, mul_zero]

/-- Settles O29: the product's degree is the sum of the degrees, so it overflows exactly when that is above 29. -/
theorem pmulOverflowsByDegree : Obligations.PmulOverflowsByDegree := by
  intro pd ps1 ps2 s hf
  refine ⟨fun d e hd he h29 => ?_, fun d e hd he h29 => ?_, fun hzero => ?_⟩
  · have h58 : d + e ≤ 58 := Nat.add_le_add hd.le_29 he.le_29
    exact pmul_overflow hf (productOverflow_eq_some h29 h58 (productCoeff_ne_zero_of_degree hd he)
      fun k hk _ => productCoeff_eq_zero_of_degree_lt hd he hk)
  · have hnone := productOverflow_eq_none.mpr fun k hk _ => productCoeff_eq_zero_of_degree_lt hd he (h29.trans_lt hk)
    refine ⟨_, pmul_completes hf hnone, hasDegree_iff.mpr ?_⟩
    rw [getP_setP_same, asPolynomial_product hnone, degree_asPolynomial_mul hd he]
  · have hcoeff := productCoeff_eq_zero_of_zero_factor hzero
    refine ⟨_, pmul_completes hf (productOverflow_eq_none.mpr fun k _ _ => hcoeff k), setsP_setP _ _ _ fun k hk => ?_⟩
    rw [coeff_polyOf_of_lt _ hk, hcoeff]

/-- Settles O30: a command that did not fault left the whole product, and evaluation is multiplicative. -/
theorem pmulMultipliesValues : Obligations.PmulMultipliesValues := by
  intro pd ps1 ps2 s t hf ht htf a _
  cases hover : productOverflow (s.getP ps1) (s.getP ps2) with
  | some d =>
    rw [show exec (.pmul pd ps1 ps2) s = _ from pmul_overflow hf hover] at ht
    cases ht
    cases htf
  | none =>
    rw [pmul_completes hf hover] at ht
    cases ht
    rw [getP_setP_same]
    refine specEval_eq_mod ?_
    rw [asPolynomial_product hover, Polynomial.eval_mul, Nat.cast_mul, specEval_cast, specEval_cast]

/-! ## The impulse polynomial -/

/-- The product of `X - i` over the points, as a polynomial over the field (R141). -/
noncomputable def pointsPolynomial (points : List F31) : Polynomial (ZMod 31) :=
  (points.map fun i => Polynomial.X - Polynomial.C (toField i)).prod

theorem pointsPolynomial_cons (i : F31) (points : List F31) :
    pointsPolynomial (i :: points) = (Polynomial.X - Polynomial.C (toField i)) * pointsPolynomial points :=
  List.prod_cons

theorem degree_pointsPolynomial (points : List F31) : (pointsPolynomial points).degree = points.length := by
  have := fact_prime_31
  induction points with
  | nil => exact Polynomial.degree_one
  | cons i points ih =>
    rw [pointsPolynomial_cons, Polynomial.degree_mul, Polynomial.degree_X_sub_C, ih, List.length_cons, Nat.cast_succ, add_comm]

theorem eval_pointsPolynomial_eq_zero {points : List F31} {t : F31} :
    (pointsPolynomial points).eval (toField t) = 0 ↔ t ∈ points := by
  have := fact_prime_31
  induction points with
  | nil => simp [pointsPolynomial]
  | cons i points ih =>
    rw [pointsPolynomial_cons, Polynomial.eval_mul, mul_eq_zero, Polynomial.eval_sub, Polynomial.eval_X,
      Polynomial.eval_C, sub_eq_zero, List.mem_cons]
    exact or_congr ⟨toField_injective, congrArg toField⟩ ih

/-- `v` of R141 is the value of the product at the point. -/
theorem toField_interceptorValue (points : List F31) (t : F31) :
    toField (interceptorValue points t) = (pointsPolynomial points).eval (toField t) := by
  have hfold (v : F31) : toField (points.foldl (fun v i => v * (t - i)) v) =
      toField v * (pointsPolynomial points).eval (toField t) := by
    induction points generalizing v with
    | nil => simp [pointsPolynomial]
    | cons i points ih =>
      rw [List.foldl_cons, ih, toField_mul, toField_sub, pointsPolynomial_cons, Polynomial.eval_mul, Polynomial.eval_sub,
        Polynomial.eval_X, Polynomial.eval_C, mul_assoc]
  rw [interceptorValue, hfold, toField_one, one_mul]

/-- With the top coefficient 0, multiplying by `X - i` loses nothing. -/
theorem asPolynomial_timesInterceptor {q : Poly31} (h : coeff q 29 = 0) (i : F31) :
    asPolynomial (timesInterceptor q i) = asPolynomial q * (Polynomial.X - Polynomial.C (toField i)) := by
  ext k
  rw [coeff_asPolynomial, timesInterceptor, coeff_polyOf, mul_sub, Polynomial.coeff_sub, Polynomial.coeff_mul_C,
    coeff_asPolynomial]
  cases k with
  | zero => rw [Polynomial.coeff_mul_X_zero]; simp [mul_comm]
  | succ k =>
    rw [Polynomial.coeff_mul_X, coeff_asPolynomial]
    split
    · simp [mul_comm]
    · have hk : coeff q k = 0 := by
        obtain rfl | hk := Nat.eq_or_lt_of_le (show 29 ≤ k by omega)
        · exact h
        · exact coeff_of_le q hk
      rw [hk, coeff_of_le q (show 30 ≤ k + 1 by omega)]
      simp

theorem asPolynomial_foldl_timesInterceptor (points : List F31) {q : Poly31} {d : Nat} (hq : HasDegree q d)
    (hd : d + points.length ≤ 29) :
    asPolynomial (points.foldl timesInterceptor q) = asPolynomial q * pointsPolynomial points := by
  induction points generalizing q d with
  | nil => simp [pointsPolynomial]
  | cons i points ih =>
    have := fact_prime_31
    rw [List.length_cons] at hd
    have hstep := asPolynomial_timesInterceptor (hq.2 29 (by omega)) i
    have hdegree : HasDegree (timesInterceptor q i) (d + 1) := by
      rw [hasDegree_iff, hstep, Polynomial.degree_mul, hasDegree_iff.mp hq, Polynomial.degree_X_sub_C, Nat.cast_succ]
    rw [List.foldl_cons, ih hdegree (by omega), hstep, pointsPolynomial_cons, mul_assoc]

theorem asPolynomial_one : asPolynomial (polyOf fun k => if k = 0 then 1 else 0) = 1 := by
  ext k
  rw [coeff_asPolynomial, coeff_polyOf, Polynomial.coeff_one]
  cases k with
  | zero => simp
  | succ k => simp

theorem asPolynomial_interceptorProduct {points : List F31} (h : points.length ≤ 29) :
    asPolynomial (interceptorProduct points) = pointsPolynomial points := by
  have hone : HasDegree (polyOf fun k => if k = 0 then 1 else 0) 0 := by
    have := fact_prime_31
    rw [hasDegree_iff, asPolynomial_one, Polynomial.degree_one, Nat.cast_zero]
  rw [interceptorProduct, asPolynomial_foldl_timesInterceptor points hone (by omega), asPolynomial_one, one_mul]

theorem asPolynomial_polyScale (q : Poly31) (c : F31) :
    asPolynomial (polyScale q c) = Polynomial.C (toField c) * asPolynomial q := by
  ext k
  rw [Polynomial.coeff_C_mul, coeff_asPolynomial, coeff_asPolynomial, polyScale, coeff_polyOf]
  split
  · rw [toField_mul, mul_comm]
  · rw [coeff_of_le q (by omega), toField_zero, mul_zero]

section Impulse

variable {points : List F31} {t : F31}

theorem asPolynomial_impulse (h : points.length ≤ 29) :
    asPolynomial (impulse points t) =
      Polynomial.C (toField (f31Inv (interceptorValue points t))) * pointsPolynomial points := by
  rw [impulse, asPolynomial_polyScale, asPolynomial_interceptorProduct h]

/-- The scaling factor of R141 is defined: no `X - i` vanishes at a point that is not among the points. -/
theorem toField_f31Inv_interceptorValue (ht : t ∉ points) :
    toField (f31Inv (interceptorValue points t)) * (pointsPolynomial points).eval (toField t) = 1 := by
  rw [← toField_interceptorValue]
  refine toField_f31Inv fun hv => ht ?_
  rw [← eval_pointsPolynomial_eq_zero, ← toField_interceptorValue, hv, toField_zero]

theorem eval_impulse_self (h : points.length ≤ 29) (ht : t ∉ points) :
    (asPolynomial (impulse points t)).eval (toField t) = 1 := by
  rw [asPolynomial_impulse h, Polynomial.eval_mul, Polynomial.eval_C, toField_f31Inv_interceptorValue ht]

theorem eval_impulse_of_mem (h : points.length ≤ 29) {i : F31} (hi : i ∈ points) :
    (asPolynomial (impulse points t)).eval (toField i) = 0 := by
  rw [asPolynomial_impulse h, Polynomial.eval_mul, eval_pointsPolynomial_eq_zero.mpr hi, mul_zero]

theorem impulse_hasDegree (h : points.length ≤ 29) (ht : t ∉ points) : HasDegree (impulse points t) points.length := by
  have hunit := IsUnit.of_mul_eq_one _ (toField_f31Inv_interceptorValue ht)
  rw [hasDegree_iff, asPolynomial_impulse h, Polynomial.degree_C_mul_of_isUnit hunit, degree_pointsPolynomial]

end Impulse

theorem mem_impulsePoints {mask : Word} {t i : F31} : i ∈ impulsePoints mask t ↔ mask.getLsbD i.val = true ∧ i ≠ t := by
  simp [impulsePoints]

theorem self_notMem_impulsePoints (mask : Word) (t : F31) : t ∉ impulsePoints mask t :=
  fun h => (mem_impulsePoints.mp h).2 rfl

/-- The list of points has as many members as R141's set. -/
theorem length_impulsePoints (mask : Word) (t : F31) : (impulsePoints mask t).length = otherPoints mask t.val := by
  have hnodup : ((impulsePoints mask t).map Fin.val).Nodup :=
    ((List.nodup_finRange 31).filter _).map Fin.val_injective
  rw [otherPoints, ← List.length_map (f := Fin.val), ← List.toFinset_card_of_nodup hnodup]
  congr 1
  ext n
  simp only [List.mem_toFinset, List.mem_map, mem_impulsePoints, Finset.mem_filter, Finset.mem_range, ne_eq, Fin.ext_iff]
  constructor
  · rintro ⟨i, ⟨hbit, hne⟩, rfl⟩
    exact ⟨i.isLt, hbit, hne⟩
  · rintro ⟨hn, hbit, hne⟩
    exact ⟨⟨n, hn⟩, ⟨hbit, hne⟩, rfl⟩

/-- PIMP with bit 31 of the mask clear: the point and the number of points are still to be checked (R141). -/
theorem exec_pimp_of_bit31_clear {pd : PReg} {rs1 rs2 : XReg} {s : State} (h : (s.getX rs1).getLsbD 31 = false) :
    exec (.pimp pd rs1 rs2) s = command (.pimp pd rs1 rs2) s (int31Operand (s.getX rs2) >>= fun t =>
      raiseIf (29 < otherPoints (s.getX rs1) t.val) .polyOverflow (otherPoints (s.getX rs1) t.val) >>= fun _ =>
        .ok (s.setP pd (impulse (impulsePoints (s.getX rs1) t) t))) := by
  change execPimp pd rs1 rs2 s = _
  simp only [execPimp, h, length_impulsePoints, raiseIf_of_not Bool.false_ne_true, ok_bind_eq, pure_eq_ok]

/-- Settles O31: the checks in their order, then the values and the degree of the impulse polynomial. -/
theorem pimpIsTheImpulse : Obligations.PimpIsTheImpulse := by
  intro pd rs1 rs2 s hf
  refine ⟨hasWord_of_fields rfl rfl (toNat_pfield _) rfl rfl, fun h31 => ?_,
    fun h31 => takesFault_int31 hf (exec_pimp_of_bit31_clear h31), fun h31 h2 hmany => ?_, fun h31 h2 hfew => ?_⟩
  · refine takesFault_badOperand hf rfl ?_
    change (raiseIf _ _ _ >>= _) = _
    rw [raiseIf_of h31, error_bind_eq]
  · refine takesFault_of (e := ⟨.polyOverflow, otherPoints (s.getX rs1) (s.xv rs2)⟩) hf (exec_pimp_of_bit31_clear h31) ?_
    rw [int31Operand_of_le h2, ok_bind_eq, f31_ofNat_val h2, raiseIf_of hmany, error_bind_eq]
  · refine answers_of hf (exec_pimp_of_bit31_clear h31)
      (by rw [int31Operand_of_le h2, ok_bind_eq, f31_ofNat_val h2, raiseIf_of_not (Nat.not_lt.mpr hfew), ok_bind_eq]) ?_
    rw [getP_setP_same]
    have hlength := length_impulsePoints (s.getX rs1) (Fin.ofNat 31 (s.xv rs2))
    rw [f31_ofNat_val h2] at hlength
    rw [← hlength] at hfew ⊢
    have hself := self_notMem_impulsePoints (s.getX rs1) (Fin.ofNat 31 (s.xv rs2))
    refine ⟨?_, fun i hi hmask hne => ?_, impulse_hasDegree hfew hself, fun r hr => getP_setP_of_ne s _ hr, rfl⟩
    · exact specEval_eq_mod (n := 1) (by rw [← toField_ofNat, eval_impulse_self hfew hself, Nat.cast_one])
    · have hmem : Fin.ofNat 31 i ∈ impulsePoints (s.getX rs1) (Fin.ofNat 31 (s.xv rs2)) := by
        rw [mem_impulsePoints, ne_eq, Fin.ext_iff, f31_ofNat_val hi, f31_ofNat_val h2]
        exact ⟨hmask, hne⟩
      exact specEval_eq_mod (n := 0) (by rw [← toField_ofNat, eval_impulse_of_mem hfew hmem, Nat.cast_zero])

end Sys2Proof.Machine
end

section
/-! PROOFS. The Hamming encoder and the block commands (42_hamming.md R160 to R169). A push XORs the new symbol into two members
of each check it takes part in, itself and the parity symbol, so every check stays satisfied (O34); the rest reads the commands'
results off the laws of HB. -/

namespace Sys2Proof.Machine

/-! ## Checks, lengths and symbols -/

section Checks

variable {i : Instr} {s : State}

/-- A command that reads a byte before all else refuses a value above 255. -/
theorem takesFault_byte {v : Word} {f : Byte → Except Raised State} (hf : s.fstat = false)
    (hi : exec i s = command i s (byteOperand v >>= f)) (hv : 255 < v.toNat) : TakesFault i s 2 v.toNat :=
  takesFault_badOperand hf hi (by rw [byteOperand_bad hv, error_bind_eq])

/-- A command that takes a fault does not end with F = 0. -/
theorem not_takesFault_of_fstat {t : State} {code info : Nat} (h : exec i s = .next t) (ht : t.fstat = false) :
    ¬ TakesFault i s code info := by
  intro hfault
  cases h.symm.trans hfault
  cases ht

end Checks

/-- A length that HCAP bounds is kept when it is written to HLEN. -/
theorem toNat_ofNat_half {n : Nat} {c : Half} (h : n ≤ c.toNat) : (BitVec.ofNat 16 n).toNat = n := by
  rw [BitVec.toNat_ofNat, Nat.mod_eq_of_lt (h.trans_lt c.isLt)]

theorem setsHb_of {s : State} {m : Memory 8} {n : Nat} {e : Nat → Byte} (hn : n ≤ s.cfg.hcap.toNat)
    (he : ∀ k, m.read k = e k) : SetsHb n e s { s with hb := m, hlen := BitVec.ofNat 16 n } :=
  ⟨toNat_ofNat_half hn, he, rfl⟩

/-! ## HCLR, HAPP, HGET, HDBITS, HST -/

/-- Settles O32: the checks in their order; an append is one write at HLEN. -/
theorem hammingBufferAccess : Obligations.HammingBufferAccess := by
  intro rd rs1 s hf
  refine ⟨⟨hasWord_of_fields rfl rfl rfl rfl rfl, answers_of hf rfl rfl rfl⟩,
    ⟨hasWord_of_fields rfl rfl rfl rfl rfl, takesFault_byte hf rfl, fun h1 hover => ?_, fun h1 hfits => ?_⟩,
    ⟨hasWord_of_fields rfl rfl rfl rfl rfl, fun hout => ?_, fun hin => ?_⟩⟩
  · refine takesFault_of (e := ⟨.hammingOverflow, s.hammingLen + 1⟩) hf rfl ?_
    rw [byteOperand_ok h1, ok_bind_eq, raiseIf_of hover, error_bind_eq]
  · refine answers_of hf rfl
      (by rw [byteOperand_ok h1, ok_bind_eq, raiseIf_of_not (Nat.not_lt.mpr hfits), ok_bind_eq, pure_eq_ok])
      (setsHb_of (n := s.hammingLen + 1) hfits fun k => ?_)
    rw [read_write, BitVec.ofNat_toNat]
  · exact takesFault_of (e := ⟨.indexRange, s.xv rs1⟩) hf rfl (by rw [indexOperand_bad hout, error_bind_eq])
  · rw [BitVec.ofNat_toNat]
    exact answers_of hf rfl (by rw [indexOperand_ok hin, ok_bind_eq, pure_eq_ok]) (setsX_setX _ _ _)

/-- The powers of two not above a length are as many as its bits (R160). -/
theorem card_powers_eq_bitlen {n : Nat} (h : n ≤ 65535) :
    ((Finset.range 16).filter (fun m => 2 ^ m ≤ n)).card = bitlen n := by
  have hsize : bitlen n ≤ 16 := by
    rw [bitlen_eq_size, Nat.size_le]
    exact Nat.lt_succ_of_le h
  have hfilter : (Finset.range 16).filter (fun m => 2 ^ m ≤ n) = Finset.range (bitlen n) := by
    ext m
    rw [Finset.mem_filter, Finset.mem_range, Finset.mem_range, ← lt_bitlen]
    exact ⟨And.right, fun hm => ⟨hm.trans_le hsize, hm⟩⟩
  rw [hfilter, Finset.card_range]

/-- Settles O36: `bitlen` counts the powers of two. -/
theorem hdbitsCountsDataSymbols : Obligations.HdbitsCountsDataSymbols := by
  intro rd rs1 s hf
  refine ⟨hasWord_of_fields rfl rfl rfl rfl rfl, fun h => ?_, fun h => ?_⟩
  · exact takesFault_badOperand hf rfl (by rw [boundedOperand_bad h, error_bind_eq])
  · rw [card_powers_eq_bitlen h]
    exact answers_setsX hf rfl (by rw [boundedOperand_ok h, ok_bind_eq, pure_eq_ok, databits])

theorem firstNonLetter_eq_some {s : State} {k : Nat} (hk : k < s.hammingLen) (hbad : 31 < (s.hb.read k).toNat)
    (hlow : ∀ j, j < k → (s.hb.read j).toNat ≤ 31) : firstNonLetter s = some k := by
  rw [firstNonLetter, List.find?_range_eq_some]
  simpa [hk, hbad] using hlow

theorem firstNonLetter_eq_none {s : State} (h : ∀ k, k < s.hammingLen → (s.hb.read k).toNat ≤ 31) :
    firstNonLetter s = none := by
  rw [firstNonLetter, List.find?_range_eq_none]
  simpa using h

theorem hst_completes {rs1 : XReg} {s : State} (hf : s.fstat = false) (h0 : s.letters ≠ 0)
    (hfits : s.xv rs1 + s.hammingLen ≤ s.letters) (h : ∀ k, k < s.hammingLen → (s.hb.read k).toNat ≤ 31) :
    exec (.hst rs1) s = .next { s with la := s.la.fill (s.xv rs1) s.hammingLen (fun k => (s.hb.read k).setWidth 5) } := by
  change execHst rs1 s = _
  simp only [execHst, sizedOperand_ok h0, ok_bind_eq, raiseIf_of_not (Nat.not_lt.mpr hfits), firstNonLetter_eq_none h,
    pure_eq_ok, command_ok hf]

/-- Settles O37: the checks in their order, the search for a non-letter last; then one fill of LA. -/
theorem hstStoresTheBlock : Obligations.HstStoresTheBlock := by
  intro rs1 s hf
  refine ⟨hasWord_of_fields rfl rfl rfl rfl rfl, fun h0 => ?_, fun h0 hover => ?_, fun h0 hfits k hk hbad hlow => ?_,
    fun h0 hfits hletters => ?_⟩
  · exact takesFault_of (e := ⟨.notSized, 0⟩) hf rfl (by rw [sizedOperand_unsized h0, error_bind_eq])
  · refine takesFault_of (e := ⟨.indexRange, s.xv rs1 + s.hammingLen⟩) hf rfl ?_
    simp only [sizedOperand_ok h0, ok_bind_eq, raiseIf_of hover, error_bind_eq]
  · refine takesFault_badOperand hf rfl ?_
    simp only [sizedOperand_ok h0, ok_bind_eq, raiseIf_of_not (Nat.not_lt.mpr hfits),
      firstNonLetter_eq_some hk hbad hlow]
  · refine ⟨_, hst_completes hf h0 hfits hletters, fun a => ?_, rfl⟩
    rw [read_fill]
    simp only [BitVec.ofNat_toNat]

/-! ## HPUSH, element by element -/

/-- The state after pushing `d`, HCAP not exceeded (R164). -/
def State.pushed (s : State) (d : Byte) : State :=
  { s with hb := pushSymbol s.hb s.hammingLen d, hlen := BitVec.ofNat 16 (pushPosition s.hammingLen) }

section Hpush

variable {rs1 : XReg} {s : State}

theorem hpush_overflow (hf : s.fstat = false) (h1 : s.xv rs1 ≤ 255) (hover : s.cfg.hcap.toNat < pushPosition s.hammingLen) :
    TakesFault (.hpush rs1) s 6 (pushPosition s.hammingLen) :=
  takesFault_of (e := ⟨.hammingOverflow, pushPosition s.hammingLen⟩) hf rfl
    (by rw [byteOperand_ok h1, ok_bind_eq, raiseIf_of hover, error_bind_eq])

theorem hpush_completes (hf : s.fstat = false) (h1 : s.xv rs1 ≤ 255) (hfits : pushPosition s.hammingLen ≤ s.cfg.hcap.toNat) :
    exec (.hpush rs1) s = .next (s.pushed ((s.getX rs1).setWidth 8)) := by
  change execHpush rs1 s = _
  rw [execHpush, byteOperand_ok h1, ok_bind_eq, raiseIf_of_not (Nat.not_lt.mpr hfits), ok_bind_eq, pure_eq_ok,
    command_ok hf, State.pushed]

/-- A push that does not fault is within HCAP. -/
theorem hpush_next {t : State} (hf : s.fstat = false) (h : exec (.hpush rs1) s = .next t) (ht : t.fstat = false) :
    pushPosition s.hammingLen ≤ s.cfg.hcap.toNat ∧ t = s.pushed ((s.getX rs1).setWidth 8) := by
  have h1 : s.xv rs1 ≤ 255 := Nat.not_lt.mp fun hv => not_takesFault_of_fstat h ht (takesFault_byte hf rfl hv)
  have hfits := Nat.not_lt.mp fun hover => not_takesFault_of_fstat h ht (hpush_overflow hf h1 hover)
  cases h.symm.trans (hpush_completes hf h1 hfits)
  exact ⟨hfits, rfl⟩

theorem pushed_hammingLen {d : Byte} (hfits : pushPosition s.hammingLen ≤ s.cfg.hcap.toNat) :
    (s.pushed d).hammingLen = pushPosition s.hammingLen :=
  toNat_ofNat_half hfits

end Hpush

/-- The parity positions that position `p` updates are the powers of two of its bits. -/
theorem isPow2_and_iff {p a : Nat} : isPow2 a = true ∧ p &&& a ≠ 0 ↔ ∃ k, p.testBit k = true ∧ a = 2 ^ k := by
  rw [isPow2_iff]
  constructor
  · rintro ⟨⟨k, rfl⟩, h⟩
    refine ⟨k, ?_, rfl⟩
    by_contra hk
    simp [Nat.and_two_pow, hk] at h
  · rintro ⟨k, hk, rfl⟩
    refine ⟨⟨k, rfl⟩, ?_⟩
    simp [Nat.and_two_pow, hk]

section PushSymbol

variable (hb : Memory 8) (n : Nat) (d : Byte)

theorem read_pushSymbol_data : (pushSymbol hb n d).read (pushPosition n - 1) = d := by
  have hpos : pushPosition n - 1 + 1 = pushPosition n := Nat.sub_add_cancel (Nat.one_le_of_lt (pushPosition_spec n).1)
  rw [read_pushSymbol, if_pos hpos]

theorem read_pushSymbol_parity {k : Nat} (hk : (pushPosition n).testBit k = true) :
    (pushSymbol hb n d).read (2 ^ k - 1) = (if 2 ^ k - 1 < n then hb.read (2 ^ k - 1) else 0) ^^^ d := by
  have hpos : 2 ^ k - 1 + 1 = 2 ^ k := Nat.sub_add_cancel Nat.one_le_two_pow
  have hne : 2 ^ k ≠ pushPosition n := fun h =>
    (isPow2_eq_false_iff _).mp (pushPosition_spec n).2.1 ⟨k, h.symm⟩
  rw [read_pushSymbol, hpos, if_neg hne, if_pos (isPow2_and_iff.mpr ⟨k, hk, rfl⟩)]
  simp only [← Nat.not_lt, ite_not]

theorem read_pushSymbol_other {a : Nat} (hdata : a + 1 ≠ pushPosition n)
    (hparity : ∀ k, (pushPosition n).testBit k = true → a + 1 ≠ 2 ^ k) :
    (pushSymbol hb n d).read a = if n ≤ a ∧ a < pushPosition n then 0 else hb.read a := by
  rw [read_pushSymbol, if_neg hdata, if_neg]
  intro h
  obtain ⟨k, hk, ha⟩ := isPow2_and_iff.mp h
  exact hparity k hk ha

end PushSymbol

/-- Settles O33: the position is `pushPosition`, and the elements are those of `pushSymbol`. -/
theorem hpushBuildsTheCode : Obligations.HpushBuildsTheCode := by
  intro rs1 s hf
  refine ⟨hasWord_of_fields rfl rfl rfl rfl rfl, takesFault_byte hf rfl, fun h1 p hlow hp hbetween => ?_⟩
  obtain rfl : pushPosition s.hammingLen = p :=
    pushPosition_unique hlow ((isPow2_eq_false_iff p).mpr hp) fun q hq hqp => (isPow2_iff q).mpr (hbetween q hq hqp)
  refine ⟨hpush_overflow hf h1, fun hfits => ⟨_, hpush_completes hf h1 hfits, pushed_hammingLen hfits, ?_⟩⟩
  rw [BitVec.ofNat_toNat]
  exact ⟨read_pushSymbol_data _ _ _, fun k hk => read_pushSymbol_parity _ _ _ hk,
    fun a hdata hparity => read_pushSymbol_other _ _ _ hdata hparity, rfl⟩

/-- Every element of the longer block depends, bit by bit, on the elements and the symbol pushed (R163). -/
theorem getLsbD_pushSymbol_congr {hb hb' : Memory 8} {n j : Nat} {d d' : Byte} (hd : d.getLsbD j = d'.getLsbD j)
    (hread : ∀ a, a < n → (hb.read a).getLsbD j = (hb'.read a).getLsbD j) {a : Nat} (ha : a < pushPosition n) :
    ((pushSymbol hb n d).read a).getLsbD j = ((pushSymbol hb' n d').read a).getLsbD j := by
  rw [read_pushSymbol, read_pushSymbol]
  by_cases hdata : a + 1 = pushPosition n
  · rw [if_pos hdata, if_pos hdata, hd]
  · have hold : (if n ≤ a then 0 else hb.read a : Byte).getLsbD j =
        (if n ≤ a then 0 else hb'.read a : Byte).getLsbD j := by
      split
      · rfl
      · exact hread a (by omega)
    simp only [if_neg hdata, ha, and_true]
    split
    · rw [BitVec.getLsbD_xor, BitVec.getLsbD_xor, hold, hd]
    · exact hold

/-- Settles O35: both pushes overflow, or both write the same positions. -/
theorem hpushKeepsPlanesApart : Obligations.HpushKeepsPlanesApart := by
  intro rs1 j s u s' u' hfs hfu hlen hcap hs1 hu1 hd hread hs hu
  have hn : u.hammingLen = s.hammingLen := congrArg BitVec.toNat hlen.symm
  rcases Nat.lt_or_ge s.cfg.hcap.toNat (pushPosition s.hammingLen) with hover | hfits
  · cases hs.symm.trans (hpush_overflow hfs hs1 hover)
    cases hu.symm.trans (hpush_overflow hfu hu1 (by rwa [hn, ← hcap]))
    exact ⟨hlen, hread⟩
  · cases hs.symm.trans (hpush_completes hfs hs1 hfits)
    cases hu.symm.trans (hpush_completes hfu hu1 (by rwa [hn, ← hcap]))
    rw [pushed_hammingLen hfits]
    simp only [State.pushed, hn, true_and]
    refine fun k hk => getLsbD_pushSymbol_congr ?_ hread hk
    rw [BitVec.getLsbD_setWidth, BitVec.getLsbD_setWidth, hd]

/-! ## Parity checks -/

/-- The XOR of `f` over the positions `1 .. n` that take part in check `2^k` (R165). -/
def checkXor (f : Nat → Byte) (k n : Nat) : Byte :=
  ((List.range' 1 n).filter (fun j => j.testBit k)).foldl (fun acc j => acc ^^^ f j) 0#8

@[simp] theorem checkXor_zero (f : Nat → Byte) (k : Nat) : checkXor f k 0 = 0#8 := rfl

theorem checkXor_succ (f : Nat → Byte) (k n : Nat) :
    checkXor f k (n + 1) = checkXor f k n ^^^ if (n + 1).testBit k then f (n + 1) else 0#8 := by
  have hlast : 1 + 1 * n = n + 1 := by omega
  rw [checkXor, List.range'_concat, List.filter_append, List.foldl_append, hlast, ← checkXor]
  cases h : (n + 1).testBit k <;> simp [h]

theorem checkXor_congr {f g : Nat → Byte} {k n : Nat} (h : ∀ j, 1 ≤ j → j ≤ n → j.testBit k = true → f j = g j) :
    checkXor f k n = checkXor g k n := by
  induction n with
  | zero => rfl
  | succ n ih =>
    rw [checkXor_succ, checkXor_succ, ih fun j h1 hj => h j h1 (by omega)]
    split
    · next hk => rw [h (n + 1) (by omega) le_rfl hk]
    · rfl

theorem checkXor_xor (f g : Nat → Byte) (k n : Nat) :
    checkXor (fun j => f j ^^^ g j) k n = checkXor f k n ^^^ checkXor g k n := by
  induction n with
  | zero => simp
  | succ n ih =>
    rw [checkXor_succ, checkXor_succ, checkXor_succ, ih]
    split
    · ac_rfl
    · simp only [BitVec.xor_zero]

/-- A symbol at one position counts in the checks that position takes part in. -/
theorem checkXor_single {a : Nat} (ha : 1 ≤ a) (d : Byte) (k n : Nat) :
    checkXor (fun j => if j = a then d else 0#8) k n = if a ≤ n ∧ a.testBit k = true then d else 0#8 := by
  induction n with
  | zero => rw [checkXor_zero, if_neg (by omega)]
  | succ n ih =>
    rw [checkXor_succ, ih]
    by_cases h : n + 1 = a
    · subst h
      simp
    · have hle : a ≤ n + 1 ↔ a ≤ n := by omega
      simp [h, hle]

/-- Placeholders of value 0 add nothing to a check. -/
theorem checkXor_padded (f : Nat → Byte) (k n m : Nat) :
    checkXor (fun j => if j ≤ n then f j else 0#8) k (n + m) = checkXor f k n := by
  induction m with
  | zero => exact checkXor_congr fun j _ hj _ => if_pos hj
  | succ m ih =>
    rw [← Nat.add_assoc, checkXor_succ, ih, if_neg (by omega : ¬ n + m + 1 ≤ n), ite_self, BitVec.xor_zero]

/-- A check above the block has no members. -/
theorem checkXor_of_lt {f : Nat → Byte} {k n : Nat} (h : n < 2 ^ k) : checkXor f k n = 0#8 := by
  induction n with
  | zero => rfl
  | succ n ih =>
    rw [checkXor_succ, ih (by omega), Nat.testBit_lt_two_pow h, if_neg Bool.false_ne_true, BitVec.xor_zero]

/-- The only parity position that takes part in check `2^k` is `2^k` itself. -/
theorem isPow2_and_iff_of_testBit {p j k : Nat} (hk : j.testBit k = true) :
    isPow2 j = true ∧ p &&& j ≠ 0 ↔ j = 2 ^ k ∧ p.testBit k = true := by
  rw [isPow2_and_iff]
  constructor
  · rintro ⟨m, hm, rfl⟩
    obtain rfl : m = k := by simpa [Nat.testBit_two_pow] using hk
    exact ⟨rfl, hm⟩
  · rintro ⟨hj, hp⟩
    exact ⟨k, hp, hj⟩

/-- Among the members of check `2^k`, a push of `d` XORs `d` into the new symbol's element and, when that symbol is a member too,
into the parity symbol. -/
theorem read_pushSymbol_of_testBit (hb : Memory 8) (n : Nat) (d : Byte) {j k : Nat} (h1 : 1 ≤ j) (hj : j ≤ pushPosition n)
    (hk : j.testBit k = true) :
    (pushSymbol hb n d).read (j - 1) = (if j ≤ n then hb.read (j - 1) else 0#8) ^^^
      ((if j = pushPosition n then d else 0#8) ^^^
        (if j = 2 ^ k then (if (pushPosition n).testBit k then d else 0#8) else 0#8)) := by
  obtain ⟨hlow, hp, -⟩ := pushPosition_spec n
  have hold : (if n ≤ j - 1 then 0 else hb.read (j - 1)) = if j ≤ n then hb.read (j - 1) else 0#8 := by
    by_cases hn : j ≤ n
    · rw [if_pos hn, if_neg (by omega)]
    · rw [if_neg hn, if_pos (by omega)]
      rfl
  have hlt : j - 1 < pushPosition n := by omega
  rw [read_pushSymbol, Nat.sub_add_cancel h1]
  simp only [isPow2_and_iff_of_testBit hk, hlt, and_true, hold]
  by_cases hdata : j = pushPosition n
  · have hne : j ≠ 2 ^ k := fun h => (isPow2_eq_false_iff _).mp hp ⟨k, hdata.symm.trans h⟩
    have hnew : ¬ j ≤ n := by omega
    simp only [if_pos hdata, if_neg hne, if_neg hnew, BitVec.zero_xor, BitVec.xor_zero]
  · simp only [if_neg hdata, BitVec.zero_xor, ← ite_and]
    split
    · rfl
    · rw [BitVec.xor_zero]

/-- The check before the push, plus the symbol at its position and at the parity position: the two cancel. -/
theorem checkXor_pushSymbol (hb : Memory 8) (n : Nat) (d : Byte) {k : Nat} (hk : 2 ^ k ≤ pushPosition n) :
    checkXor (fun j => (pushSymbol hb n d).read (j - 1)) k (pushPosition n) = checkXor (fun j => hb.read (j - 1)) k n := by
  have hpos : 1 ≤ pushPosition n := Nat.one_le_of_lt (pushPosition_spec n).1
  have hpad : pushPosition n = n + (padCount n + 1) := rfl
  rw [checkXor_congr fun j h1 hj hbit => read_pushSymbol_of_testBit hb n d h1 hj hbit, checkXor_xor, checkXor_xor,
    checkXor_single hpos, checkXor_single Nat.one_le_two_pow]
  simp only [le_refl, hk, Nat.testBit_two_pow_self, and_self, true_and, if_true, BitVec.xor_self, BitVec.xor_zero]
  rw [hpad, checkXor_padded (fun j => hb.read (j - 1))]

/-- Settles O34: a check of the longer block comes out as that of the block before, which holds or has no members. -/
theorem hpushKeepsParityChecks : Obligations.HpushKeepsParityChecks := by
  intro rs1 s t hf h ht hs
  obtain ⟨hfits, rfl⟩ := hpush_next hf h ht
  intro k hk
  rw [pushed_hammingLen hfits] at hk ⊢
  refine (checkXor_pushSymbol s.hb s.hammingLen _ hk).trans ?_
  rcases Nat.lt_or_ge s.hammingLen (2 ^ k) with hnew | hold
  · exact checkXor_of_lt hnew
  · exact hs k hold

end Sys2Proof.Machine
end

section
/-! PROOFS. HPROP, the soft-decision decoder (42_hamming.md R170 to R173). First the round in exact rationals (O38): what the
command writes is the quantised, normalised belief of every position, and a largest belief other than 0 becomes +127 or -127
(O41). For a block of certain bits the syndromes are the signs of the bits of one position, the position in error or 0; the
belief in an error is then 1 at that position and 0 elsewhere, so one round corrects it (O39, O40). -/

namespace Sys2Proof.Machine

/-! ## What HPROP writes -/

/-- The largest syndrome magnitude of the block (R170, `M`). -/
def State.syndromeMax (s : State) : Rat := maxMagnitude (syndromes (prior s.hb) s.hammingLen)

/-- The largest belief magnitude of the block (R170, `B`). -/
def State.beliefMax (s : State) : Rat := maxMagnitude (beliefs (prior s.hb) s.hammingLen)

/-- The normalised belief of position `j` (R170, `r[j]`). -/
def State.newBelief (s : State) (j : Nat) : Rat := normalise s.beliefMax (s.specBelief s.syndromeMax j)

/-- The state after one round on a legal block of soft bits (R170). -/
def State.propagated (s : State) : State :=
  { s with
    hb := s.hb.fill 0 s.hammingLen fun k =>
      BitVec.ofInt 8 (quantise ((normalisedBeliefs (prior s.hb) s.hammingLen).getD k 0)) }

section Round

variable {s : State}

theorem propagated_read_of_le {a : Nat} (ha : s.hammingLen ≤ a) : s.propagated.hb.read a = s.hb.read a := by
  rw [State.propagated, read_fill, if_neg (by omega)]

theorem propagated_softBit {j : Nat} (h1 : 1 ≤ j) (hj : j ≤ s.hammingLen) :
    s.propagated.softBit j = quantise (s.newBelief j) := by
  have hlt : j - 1 < s.hammingLen := by omega
  rw [State.softBit, State.propagated, read_fill, if_pos (by omega), toInt_ofInt_quantise, Nat.sub_zero,
    getD_normalisedBeliefs s hlt, Nat.sub_add_cancel h1]
  rfl

theorem illegalBlock_iff : s.hammingLen < 3 ∨ isPow2 s.hammingLen = true ↔ ¬ s.LegalBlock := by
  rw [isPow2_iff, State.LegalBlock, IsPow2, not_and_or, not_le, not_not]

theorem firstNonSoftBit_eq_some {k : Nat} (hk : k < s.hammingLen) (hbad : s.hb.read k = 0x80)
    (hlow : ∀ j, j < k → s.hb.read j ≠ 0x80) : firstNonSoftBit s = some k := by
  rw [firstNonSoftBit, List.find?_range_eq_some]
  simpa [hk, hbad] using hlow

theorem firstNonSoftBit_eq_none (h : ∀ k, k < s.hammingLen → s.hb.read k ≠ 0x80) : firstNonSoftBit s = none := by
  rw [firstNonSoftBit, List.find?_range_eq_none]
  simpa using h

theorem hprop_illegal (hf : s.fstat = false) (hl : ¬ s.LegalBlock) : TakesFault .hprop s 7 s.hammingLen :=
  takesFault_of (e := ⟨.badBlockLength, s.hammingLen⟩) hf rfl
    (by simp only [raiseIf_of (illegalBlock_iff.mpr hl), error_bind_eq])

theorem hprop_nonSoftBit {k : Nat} (hf : s.fstat = false) (hl : s.LegalBlock) (h : firstNonSoftBit s = some k) :
    TakesFault .hprop s 2 k :=
  takesFault_badOperand hf rfl (by simp only [raiseIf_of_not (not_not.mpr hl ∘ illegalBlock_iff.mp), ok_bind_eq, h])

theorem hprop_completes (hf : s.fstat = false) (hl : s.LegalBlock) (hsoft : ∀ k, k < s.hammingLen → s.hb.read k ≠ 0x80) :
    exec .hprop s = .next s.propagated := by
  have hlegal := not_not.mpr hl ∘ illegalBlock_iff.mp
  change execHprop s = _
  simp only [execHprop, raiseIf_of_not hlegal, ok_bind_eq, firstNonSoftBit_eq_none hsoft, pure_eq_ok, command_ok hf,
    State.propagated]

/-! ## The largest magnitudes -/

theorem isGreatest_maxMagnitude {l : List Nat} (f : Nat → Rat) (hl : l ≠ []) :
    IsGreatest (Set.image (fun a => |f a|) {a | a ∈ l}) (maxMagnitude (l.map f)) := by
  constructor
  · obtain ⟨r, hr, hmax⟩ := exists_maxMagnitude (mt List.map_eq_nil_iff.mp hl : l.map f ≠ [])
    obtain ⟨a, ha, rfl⟩ := List.mem_map.mp hr
    exact ⟨a, ha, hmax⟩
  · rintro _ ⟨a, ha, rfl⟩
    exact le_maxMagnitude (List.mem_map_of_mem ha)

theorem isGreatest_syndromeMax (hl : s.LegalBlock) :
    IsGreatest (Set.image (fun k => |s.specSyndrome k|) (Set.Iio (Nat.size s.hammingLen))) s.syndromeMax := by
  have hmem : Set.Iio (Nat.size s.hammingLen) = {k | k ∈ List.range (bitlen s.hammingLen)} := by
    ext k
    simp [bitlen_eq_size]
  have hmap : syndromes (prior s.hb) s.hammingLen = (List.range (bitlen s.hammingLen)).map s.specSyndrome :=
    List.map_congr_left fun k _ => syndrome_eq s k
  have hpos : 0 < bitlen s.hammingLen := lt_bitlen.mpr (le_trans (by decide) hl.1)
  rw [hmem, State.syndromeMax, hmap]
  exact isGreatest_maxMagnitude _ (by simpa using hpos.ne')

theorem isGreatest_beliefMax (hl : s.LegalBlock) :
    IsGreatest (Set.image (fun j => |s.specBelief s.syndromeMax j|) (Set.Icc 1 s.hammingLen)) s.beliefMax := by
  have hmem : Set.Icc 1 s.hammingLen = {j | j ∈ positions s.hammingLen} := by
    ext j
    simp only [Set.mem_Icc, Set.mem_ofPred_eq, positions, List.mem_range'_1]
    omega
  have hmap : beliefs (prior s.hb) s.hammingLen = (positions s.hammingLen).map (s.specBelief s.syndromeMax) :=
    List.map_congr_left fun j _ => belief_eq s j
  have hpos : s.hammingLen ≠ 0 := by
    have := hl.1
    omega
  rw [hmem, State.beliefMax, hmap]
  exact isGreatest_maxMagnitude _ (by simpa [positions] using hpos)

theorem abs_newBelief_le (hl : s.LegalBlock) {j : Nat} (h1 : 1 ≤ j) (hj : j ≤ s.hammingLen) : |s.newBelief j| ≤ 1 :=
  abs_normalise_le ((isGreatest_beliefMax hl).2 ⟨j, ⟨h1, hj⟩, rfl⟩)

end Round

/-- Settles O38: the checks in their order; M and B are the largest magnitudes, and every quantised magnitude is at most 1. -/
theorem hpropIsOneExactRound : Obligations.HpropIsOneExactRound := by
  intro s hf
  refine ⟨hasWord_of_fields rfl rfl rfl rfl rfl, hprop_illegal hf, fun hl k hk hbad hlow => ?_, fun hl hsoft => ?_⟩
  · exact hprop_nonSoftBit hf hl (firstNonSoftBit_eq_some hk hbad hlow)
  · refine ⟨_, hprop_completes hf hl hsoft, rfl, fun a => propagated_read_of_le, s.syndromeMax, s.beliefMax,
      isGreatest_syndromeMax hl, isGreatest_beliefMax hl, fun j h1 hj => ?_⟩
    rw [propagated_softBit h1 hj]
    exact quantise_spec (abs_newBelief_le hl h1 hj)

/-! ## Erasures and the peak (R173 c, d, e) -/

theorem newBelief_of_erasure {s : State} {j : Nat} (h : s.softBit j = 0) : s.newBelief j = 0 := by
  simp [State.newBelief, State.specBelief, normalise, h]

/-- A rational of magnitude 1 is quantised to full magnitude (R171). -/
theorem quantise_of_abs_eq_one {r : Rat} (h : |r| = 1) : quantise r = 127 ∨ quantise r = -127 := by
  rcases eq_or_eq_neg_of_abs_eq h with rfl | rfl
  · exact .inl quantise_one
  · exact .inr (by rw [quantise_neg, quantise_one])

/-- Settles O41: the position of the largest belief is normalised to magnitude 1, unless the largest belief is 0. -/
theorem hpropErasuresAndPeak : Obligations.HpropErasuresAndPeak := by
  intro s hf hl hsoft
  refine ⟨_, hprop_completes hf hl hsoft, fun j h1 hj h0 => ?_, ?_⟩
  · rw [propagated_softBit h1 hj, newBelief_of_erasure h0, quantise_zero]
  · obtain ⟨⟨j, ⟨h1, hj⟩, hmax⟩, -⟩ := isGreatest_beliefMax hl
    by_cases hB : 0 < s.beliefMax
    · have hmax : |s.specBelief s.syndromeMax j| = s.beliefMax := hmax
      refine .inr ⟨j, h1, hj, ?_⟩
      rw [propagated_softBit h1 hj]
      refine quantise_of_abs_eq_one ?_
      rw [State.newBelief, normalise, if_pos hB, abs_div, abs_of_pos hB, hmax, div_self hB.ne']
    · refine .inl fun i h1 hi => ?_
      rw [propagated_softBit h1 hi, State.newBelief, normalise, if_neg hB, quantise_zero]

/-! ## Blocks of certain bits (R173 a, b) -/

/-- A block of certain bits whose syndromes are those of a single error at `pos`, or of no error when `pos` is 0. -/
structure State.ErrorAt (s : State) (pos : Nat) : Prop where
  certain : s.CertainBits
  pos_le : pos ≤ s.hammingLen
  syndrome : ∀ k, k < Nat.size s.hammingLen → s.specSyndrome k = checkSign pos k

/-- A product of certain priors is the sign that the number of -127 gives. -/
theorem prod_certain {v : Nat → Int} {l : List Nat} (h : ∀ j ∈ l, v j = 127 ∨ v j = -127) :
    (l.map fun j => (v j : Rat) / 127).prod = (-1) ^ (l.filter fun j => decide (v j = -127)).length := by
  induction l with
  | nil => rfl
  | cons j l ih =>
    rw [List.map_cons, List.prod_cons, ih fun i hi => h i (List.mem_cons_of_mem j hi)]
    rcases h j List.mem_cons_self with hj | hj
    · simp [hj]
    · simp [hj, pow_succ]

/-- A block that satisfies every check has every syndrome 1. -/
theorem errorAt_zero {s : State} (hc : s.CertainBits) (hs : s.CertainChecksHold) : s.ErrorAt 0 where
  certain := hc
  pos_le := Nat.zero_le _
  syndrome k hk := by
    have hcertain : ∀ j ∈ (List.range' 1 s.hammingLen).filter (fun j => j.testBit k),
        s.softBit j = 127 ∨ s.softBit j = -127 := by
      intro j hj
      have := List.mem_range'_1.mp (List.mem_of_mem_filter hj)
      exact hc j (by omega) (by omega)
    have heven := Nat.even_iff.mpr (hs k (Nat.lt_size.mp hk))
    calc s.specSyndrome k
        = (((List.range' 1 s.hammingLen).filter (fun j => j.testBit k)).map fun j => (s.softBit j : Rat) / 127).prod :=
          (prod_filter_range' _ _ _).symm
      _ = 1 := by
          rw [prod_certain hcertain, List.filter_filter]
          simp only [Bool.and_comm (decide _)]
          exact heven.neg_one_pow
      _ = checkSign 0 k := by simp [checkSign]

/-- The soft bits of the block with the one at position `pos` negated. -/
def State.flippedBit (s : State) (pos j : Nat) : Int := if j = pos then -s.softBit j else s.softBit j

theorem flippedBit_same (s : State) (pos : Nat) : s.flippedBit pos pos = -s.softBit pos := if_pos rfl

theorem flippedBit_of_ne (s : State) {pos j : Nat} (h : j ≠ pos) : s.flippedBit pos j = s.softBit j := if_neg h

theorem flippedBit_certain {s : State} (hc : s.CertainBits) (pos : Nat) {j : Nat} (h1 : 1 ≤ j) (hj : j ≤ s.hammingLen) :
    s.flippedBit pos j = 127 ∨ s.flippedBit pos j = -127 := by
  have := hc j h1 hj
  unfold State.flippedBit
  split <;> omega

theorem flippedBit_cast (s : State) (pos j : Nat) :
    (s.flippedBit pos j : Rat) = (if j = pos then -1 else 1) * s.softBit j := by
  unfold State.flippedBit
  split <;> simp

/-- Negating one position negates the syndromes of the checks it takes part in. -/
theorem specSyndrome_of_flip {s u : State} {pos : Nat} (hlen : u.hammingLen = s.hammingLen) (h1 : 1 ≤ pos)
    (hpos : pos ≤ s.hammingLen)
    (hflip : ∀ j, 1 ≤ j → u.softBit j = s.flippedBit pos j) (k : Nat) :
    u.specSyndrome k = checkSign pos k * s.specSyndrome k := by
  have hfactor : ∀ j ∈ (Finset.Icc 1 s.hammingLen).filter (fun j => j.testBit k = true),
      (u.softBit j : Rat) / 127 = (if j = pos then -1 else 1) * ((s.softBit j : Rat) / 127) := by
    intro j hj
    rw [hflip j (Finset.mem_Icc.mp (Finset.mem_filter.mp hj).1).1, flippedBit_cast, mul_div_assoc]
  rw [State.specSyndrome, hlen, Finset.prod_congr rfl hfactor, Finset.prod_mul_distrib, Finset.prod_ite_eq',
    ← State.specSyndrome, checkSign]
  simp [h1, hpos]

/-- A satisfied block with one position negated has the syndromes of an error there. -/
theorem errorAt_of_flip {s u : State} {pos : Nat} (hs : s.ErrorAt 0) (hlen : u.hammingLen = s.hammingLen) (h1 : 1 ≤ pos)
    (hpos : pos ≤ s.hammingLen)
    (hflip : ∀ j, 1 ≤ j → u.softBit j = s.flippedBit pos j) : u.ErrorAt pos where
  certain j hj1 hj := by
    rw [hflip j hj1]
    exact flippedBit_certain hs.certain pos hj1 (hlen ▸ hj)
  pos_le := hlen ▸ hpos
  syndrome k hk := by
    rw [specSyndrome_of_flip hlen h1 hpos hflip, hs.syndrome k (hlen ▸ hk)]
    simp [checkSign]

/-- Positions of the block differ in a bit below the block's size. -/
theorem testBit_agree_iff {n i j : Nat} (hi : i ≤ n) (hj : j ≤ n) :
    (∀ k ∈ Finset.range (Nat.size n), i.testBit k = j.testBit k) ↔ i = j := by
  refine ⟨fun h => Nat.eq_of_testBit_eq fun k => ?_, fun h k _ => h ▸ rfl⟩
  rcases Nat.lt_or_ge k (Nat.size n) with hk | hk
  · exact h k (Finset.mem_range.mpr hk)
  · have hn : n < 2 ^ k := Nat.size_le.mp hk
    rw [Nat.testBit_lt_two_pow (hi.trans_lt hn), Nat.testBit_lt_two_pow (hj.trans_lt hn)]

theorem abs_checkSign (j k : Nat) : |checkSign j k| = 1 := by
  unfold checkSign
  split <;> simp

/-- The factor of R170 for a check is 1 when the position agrees with the position in error in that check, and 0 otherwise. -/
theorem checkFactor_eq (pos j k : Nat) :
    (1 + checkSign j k * checkSign pos k) / 2 = if j.testBit k = pos.testBit k then 1 else 0 := by
  unfold checkSign
  cases j.testBit k <;> cases pos.testBit k <;> norm_num

section Certain

variable {s : State} {pos : Nat}

theorem syndromeMax_of_errorAt (hl : s.LegalBlock) (h : s.ErrorAt pos) : s.syndromeMax = 1 := by
  obtain ⟨⟨k, hk, hmax⟩, -⟩ := isGreatest_syndromeMax hl
  rw [← hmax]
  exact (congrArg abs (h.syndrome k hk)).trans (abs_checkSign pos k)

/-- The error belief picks out the position in error. -/
theorem specError_of_errorAt (h : s.ErrorAt pos) {j : Nat} (hj : j ≤ s.hammingLen) :
    s.specError 1 j = if j = pos then 1 else 0 := by
  have hfactor : ∀ k ∈ Finset.range (Nat.size s.hammingLen),
      (1 + (if j.testBit k then -1 else 1) * (if (0 : Rat) < 1 then s.specSyndrome k / 1 else 0)) / 2 =
        if j.testBit k = pos.testBit k then 1 else 0 := by
    intro k hk
    rw [if_pos one_pos, div_one, h.syndrome k (Finset.mem_range.mp hk)]
    exact checkFactor_eq pos j k
  rw [State.specError, Finset.prod_congr rfl hfactor, Finset.prod_boole]
  simp only [testBit_agree_iff hj h.pos_le]

/-- The belief of a position is its prior, negated at the position in error. -/
theorem specBelief_of_errorAt (h : s.ErrorAt pos) {j : Nat} (hj : j ≤ s.hammingLen) :
    s.specBelief 1 j = (s.flippedBit pos j : Rat) / 127 := by
  rw [State.specBelief, specError_of_errorAt h hj, flippedBit_cast]
  split <;> ring

/-- A certain bit, as the quantiser reads and writes it. -/
theorem quantise_certain {v : Int} (h : v = 127 ∨ v = -127) : quantise ((v : Rat) / 127) = v := by
  obtain rfl | rfl := h
  · norm_num [quantise_one]
  · norm_num [quantise_neg, quantise_one]

theorem abs_certain {v : Int} (h : v = 127 ∨ v = -127) : |(v : Rat) / 127| = 1 := by
  obtain rfl | rfl := h <;> norm_num

theorem beliefMax_of_errorAt (hl : s.LegalBlock) (h : s.ErrorAt pos) : s.beliefMax = 1 := by
  obtain ⟨⟨j, ⟨h1, hj⟩, hmax⟩, -⟩ := isGreatest_beliefMax hl
  rw [← hmax]
  simp only [syndromeMax_of_errorAt hl h, specBelief_of_errorAt h hj]
  exact abs_certain (flippedBit_certain h.certain pos h1 hj)

/-- One round negates the position in error and keeps every other (R173 a, b). -/
theorem propagated_softBit_of_errorAt (hl : s.LegalBlock) (h : s.ErrorAt pos) {j : Nat} (h1 : 1 ≤ j) (hj : j ≤ s.hammingLen) :
    s.propagated.softBit j = s.flippedBit pos j := by
  rw [propagated_softBit h1 hj, State.newBelief, normalise, beliefMax_of_errorAt hl h, syndromeMax_of_errorAt hl h,
    if_pos one_pos, div_one, specBelief_of_errorAt h hj]
  exact quantise_certain (flippedBit_certain h.certain pos h1 hj)

theorem read_ne_of_certain (hc : s.CertainBits) {k : Nat} (hk : k < s.hammingLen) : s.hb.read k ≠ 0x80 := by
  intro h80
  have hval : s.softBit (k + 1) = -128 := congrArg BitVec.toInt h80
  have := hc (k + 1) (by omega) hk
  omega

/-- A round on a block with an error at `pos` gives the block that differs from it in the sign of that bit only. -/
theorem answers_of_errorAt {e : Nat → Byte} (hf : s.fstat = false) (hl : s.LegalBlock) (h : s.ErrorAt pos)
    (hin : ∀ j, 1 ≤ j → j ≤ s.hammingLen → (e (j - 1)).toInt = s.flippedBit pos j)
    (hout : ∀ a, s.hammingLen ≤ a → e a = s.hb.read a) :
    Answers .hprop s (fun t => t = { s with hb := t.hb } ∧ ∀ a, t.hb.read a = e a) := by
  refine ⟨_, hprop_completes hf hl fun k => read_ne_of_certain h.certain, rfl, fun a => ?_⟩
  rcases Nat.lt_or_ge a s.hammingLen with ha | ha
  · refine BitVec.eq_of_toInt_eq ?_
    exact (propagated_softBit_of_errorAt hl h (Nat.le_add_left 1 a) ha).trans (hin (a + 1) (Nat.le_add_left 1 a) ha).symm
  · rw [propagated_read_of_le ha, hout a ha]

end Certain

/-- Settles O39: a satisfied block is one with no position in error. -/
theorem hpropKeepsCodewords : Obligations.HpropKeepsCodewords := by
  intro s hf hl hc hs
  refine answers_of_errorAt hf hl (errorAt_zero hc hs) (fun j h1 _ => ?_) fun _ _ => rfl
  rw [flippedBit_of_ne s (by omega), State.softBit]

/-- Settles O40: the negated position is the position in error, and negating it again restores the block. -/
theorem hpropCorrectsOneFlip : Obligations.HpropCorrectsOneFlip := by
  intro s u pos hl hc hs h1 hpos hf hlen hneg hkeep
  have hlen : u.hammingLen = s.hammingLen := congrArg BitVec.toNat hlen
  have hflip : ∀ j, 1 ≤ j → u.softBit j = s.flippedBit pos j := by
    intro j hj
    obtain rfl | hne := eq_or_ne j pos
    · rw [hneg, flippedBit_same]
    · rw [flippedBit_of_ne s hne]
      exact congrArg BitVec.toInt (hkeep (j - 1) (by omega))
  have hl' : u.LegalBlock := by rwa [State.LegalBlock, hlen]
  refine answers_of_errorAt hf hl' (errorAt_of_flip (errorAt_zero hc hs) hlen h1 hpos hflip) (fun j hj _ => ?_)
    fun a ha => (hkeep a (by omega)).symm
  obtain rfl | hne := eq_or_ne j pos
  · rw [flippedBit_same, hneg, neg_neg, State.softBit]
  · rw [flippedBit_of_ne u hne, hflip j hj, flippedBit_of_ne s hne, State.softBit]

end Sys2Proof.Machine
end

section
/-! PROOFS. The letter memories and the criss-cross interleaver (43_crisscross.md R190 to R200). The commands share their checks,
said once here. For a factor coprime to N a plane's address map is injective, so exactly one letter of LA lands on each address and
XUNCROSS finds there the bit that XCROSS put (O47). -/

namespace Sys2Proof.Machine

/-! ## The size and the index -/

section Letters

variable {i : Instr} {s : State} {v : Word}

/-- A command that needs the size before all else refuses an engine that has none (R192). -/
theorem takesFault_unsized {f : Nat → Except Raised State} (hf : s.fstat = false)
    (hi : exec i s = command i s (sizedOperand s >>= f)) (h0 : s.letters = 0) : TakesFault i s 8 0 :=
  takesFault_of (e := ⟨.notSized, 0⟩) hf hi (by rw [sizedOperand_unsized h0, error_bind_eq])

/-- A command that needs the size and then an index makes their checks in that order (R192, R308). -/
theorem checksIndex_of {f : Nat → Nat → Except Raised State} (hf : s.fstat = false)
    (hi : exec i s = command i s (sizedOperand s >>= fun n => indexOperand n v >>= f n)) :
    (s.letters = 0 → TakesFault i s 8 0) ∧ (s.letters ≠ 0 → s.letters ≤ v.toNat → TakesFault i s 5 v.toNat) := by
  refine ⟨takesFault_unsized hf hi, fun h0 hv => takesFault_of (e := ⟨.indexRange, v.toNat⟩) hf hi ?_⟩
  rw [sizedOperand_ok h0, ok_bind_eq, indexOperand_bad hv, error_bind_eq]

theorem indexOperands_of_lt (f : Nat → Nat → Except Raised State) (hv : v.toNat < s.letters) :
    (sizedOperand s >>= fun n => indexOperand n v >>= f n) = f s.letters v.toNat := by
  rw [sizedOperand_ok (Nat.ne_zero_of_lt hv), ok_bind_eq, indexOperand_ok hv, ok_bind_eq]

/-! ## One letter -/

/-- What LDA and LDB share: the checks, and the letter of their memory `m` (R193, R195). -/
theorem letterRead_spec {rd : XReg} {m : Memory 5} (hf : s.fstat = false)
    (hi : exec i s = command i s
      (sizedOperand s >>= fun n => indexOperand n v >>= fun k => pure (s.setX rd ((m.read k).setWidth 32)))) :
    (s.letters = 0 → TakesFault i s 8 0) ∧ (s.letters ≠ 0 → s.letters ≤ v.toNat → TakesFault i s 5 v.toNat) ∧
      (v.toNat < s.letters → Answers i s (SetsX rd (BitVec.ofNat 32 (m.read v.toNat).toNat) s)) := by
  obtain ⟨hsized, hindex⟩ := checksIndex_of hf hi
  refine ⟨hsized, hindex, fun hv => ?_⟩
  rw [BitVec.ofNat_toNat]
  exact answers_of hf hi (by rw [indexOperands_of_lt _ hv, pure_eq_ok]) (setsX_setX _ _ _)

/-- What STA and STB share: the checks, and the one element of their memory `m` that `put` gives back to the state (R194, R196). -/
theorem letterWrite_spec {w : Word} {m : Memory 5} {put : Memory 5 → State} {post : (Nat → Letter) → State → Prop}
    (hput : ∀ m' e, (∀ a, m'.read a = e a) → post e (put m')) (hf : s.fstat = false)
    (hi : exec i s = command i s
      (sizedOperand s >>= fun n => indexOperand n v >>= fun k => letterOperand w >>= fun l => pure (put (m.write k l)))) :
    (s.letters = 0 → TakesFault i s 8 0) ∧ (s.letters ≠ 0 → s.letters ≤ v.toNat → TakesFault i s 5 v.toNat) ∧
      (v.toNat < s.letters → 31 < w.toNat → TakesFault i s 2 w.toNat) ∧
      (v.toNat < s.letters → w.toNat ≤ 31 →
        Answers i s (post fun a => if a = v.toNat then BitVec.ofNat 5 w.toNat else m.read a)) := by
  obtain ⟨hsized, hindex⟩ := checksIndex_of hf hi
  refine ⟨hsized, hindex, fun hv hw => ?_, fun hv hw => ?_⟩
  · exact takesFault_badOperand hf hi (by rw [indexOperands_of_lt _ hv, letterOperand_bad hw, error_bind_eq])
  · refine answers_of hf hi (by rw [indexOperands_of_lt _ hv, letterOperand_ok hw, ok_bind_eq, pure_eq_ok])
      (hput _ _ fun a => ?_)
    rw [read_write, BitVec.ofNat_toNat]

end Letters

/-- Settles O42: `letterRead_spec` for LA and for LB. -/
theorem lettersAreRead : Obligations.LettersAreRead := by
  intro rd rs1 s hf
  exact ⟨⟨hasWord_of_fields rfl rfl rfl rfl rfl, letterRead_spec hf rfl⟩,
    ⟨hasWord_of_fields rfl rfl rfl rfl rfl, letterRead_spec hf rfl⟩⟩

/-- Settles O43: `letterWrite_spec` for LA and for LB. -/
theorem lettersAreWritten : Obligations.LettersAreWritten := by
  intro rs1 rs2 s hf
  exact ⟨⟨hasWord_of_fields rfl rfl rfl rfl rfl,
      letterWrite_spec (post := (SetsLa · s)) (put := fun m => { s with la := m }) (fun _ _ he => ⟨he, rfl⟩) hf rfl⟩,
    ⟨hasWord_of_fields rfl rfl rfl rfl rfl,
      letterWrite_spec (post := (SetsLb · s)) (put := fun m => { s with lb := m }) (fun _ _ he => ⟨he, rfl⟩) hf rfl⟩⟩

/-! ## The address law (R190) -/

theorem planePrime_eq_fivePrimes (j : Fin 5) : planePrime j = fivePrimes j := by
  revert j
  decide

theorem crossAddr_eq_specAddr (s : State) (i : Nat) (j : Fin 5) : crossAddr s i j = s.specAddr i j := by
  rw [crossAddr, ccf5, planePrime_eq_fivePrimes, State.specAddr]

/-- Settles O44: the checks in their order, the plane last; then the address. -/
theorem ccaddrIsTheAddressLaw : Obligations.CcaddrIsTheAddressLaw := by
  intro rd rs1 rs2 s hf
  obtain ⟨hsized, hindex⟩ := checksIndex_of (i := .ccaddr rd rs1 rs2) (v := s.getX rs1) hf rfl
  refine ⟨wordR_eq_assembled _ _ _ _, hsized, hindex, fun h1 h2 => ?_, fun h1 j hj => ?_⟩
  · exact takesFault_badOperand hf rfl (by rw [indexOperands_of_lt _ h1, boundedOperand_bad h2, error_bind_eq])
  · have h2 : s.xv rs2 ≤ 4 := hj.trans_le (Nat.le_of_lt_succ j.isLt)
    refine answers_setsX hf rfl ?_
    rw [indexOperands_of_lt _ h1, boundedOperand_ok h2, ok_bind_eq, pure_eq_ok, ← crossAddr_eq_specAddr, ← hj]

/-! ## The interleave and its inverse -/

/-- The state after XCROSS on a sized engine (R197). -/
def State.crossed (s : State) : State := { s with lb := interleaved s }

/-- The state after XUNCROSS on a sized engine (R198). -/
def State.uncrossed (s : State) : State := { s with la := s.la.fill 0 s.letters (gathered s) }

section Interleave

variable {s : State}

theorem xcross_completes (hf : s.fstat = false) (h0 : s.letters ≠ 0) :
    exec .xcross s = .next s.crossed := by
  change execXcross s = _
  rw [execXcross, sizedOperand_ok h0, ok_bind_eq, pure_eq_ok, command_ok hf, State.crossed]

theorem xuncross_completes (hf : s.fstat = false) (h0 : s.letters ≠ 0) :
    exec .xuncross s = .next s.uncrossed := by
  change execXuncross s = _
  rw [execXuncross, sizedOperand_ok h0, ok_bind_eq, pure_eq_ok, command_ok hf, State.uncrossed]

theorem crossed_lb_read_of_le (h0 : s.letters ≠ 0) {a : Nat} (ha : s.letters ≤ a) :
    s.crossed.lb.read a = s.lb.read a := by
  refine BitVec.eq_of_getLsbD_eq fun b hb => ?_
  rw [State.crossed, Bool.eq_iff_iff, getLsbD_interleaved s h0 a hb, if_neg (Nat.not_lt.mpr ha)]

theorem getLsbD_crossed_lb_of_lt {a : Nat} (ha : a < s.letters) (j : Fin 5) :
    (s.crossed.lb.read a).getLsbD j = true ↔
      ∃ i, i < s.letters ∧ s.specAddr i j = a ∧ (s.la.read i).getLsbD j = true := by
  rw [State.crossed, getLsbD_interleaved s (Nat.ne_zero_of_lt ha) a j.isLt, if_pos ha]
  simp only [crossAddr_eq_specAddr]

theorem uncrossed_la_read_of_lt {i : Nat} (hi : i < s.letters) : s.uncrossed.la.read i = gathered s i := by
  rw [State.uncrossed, read_fill, if_pos (by omega), Nat.sub_zero]

theorem uncrossed_la_read_of_le {i : Nat} (hi : s.letters ≤ i) : s.uncrossed.la.read i = s.la.read i := by
  rw [State.uncrossed, read_fill, if_neg (by omega)]

theorem getLsbD_gathered_specAddr (s : State) (i : Nat) (j : Fin 5) :
    (gathered s i).getLsbD j = (s.lb.read (s.specAddr i j)).getLsbD j := by
  rw [getLsbD_gathered s i j.isLt, crossAddr_eq_specAddr]

end Interleave

/-- Settles O45: each bit of LB below N by the letters of LA that land on it. -/
theorem xcrossScattersThePlanes : Obligations.XcrossScattersThePlanes := by
  intro s hf
  refine ⟨hasWord_of_fields rfl rfl rfl rfl rfl, takesFault_unsized hf rfl, fun h0 => ?_⟩
  exact ⟨_, xcross_completes hf h0, fun _ => getLsbD_crossed_lb_of_lt, fun _ => crossed_lb_read_of_le h0, rfl⟩

/-- Settles O46: each letter of LA below N by the five bits gathered for it. -/
theorem xuncrossGathersThePlanes : Obligations.XuncrossGathersThePlanes := by
  intro s hf
  refine ⟨hasWord_of_fields rfl rfl rfl rfl rfl, takesFault_unsized hf rfl, fun h0 => ?_⟩
  refine ⟨_, xuncross_completes hf h0, fun i hi j => ?_, fun _ => uncrossed_la_read_of_le, rfl⟩
  rw [uncrossed_la_read_of_lt hi, getLsbD_gathered_specAddr]

/-! ## The round trip (R200) -/

section RoundTrip

variable {s : State} {j : Fin 5}

theorem specAddr_mapsTo (h0 : s.letters ≠ 0) :
    Set.MapsTo (fun i => s.specAddr i j) (Set.Iio s.letters) (Set.Iio s.letters) :=
  fun _ _ => Nat.mod_lt _ (Nat.pos_of_ne_zero h0)

/-- A factor coprime to N cancels mod N. -/
theorem specAddr_injOn
    (hc : Nat.Coprime (s.ccbase.toNat * s.ccmult.toNat ^ (j : Nat) % s.letters) s.letters) :
    Set.InjOn (fun i => s.specAddr i j) (Set.Iio s.letters) := by
  intro i hi k hk h
  have hmul := Nat.ModEq.add_right_cancel' (fivePrimes j) h
  exact (Nat.ModEq.cancel_right_of_coprime hc.symm hmul).eq_of_lt_of_lt hi hk

theorem specAddr_bijOn (h0 : s.letters ≠ 0)
    (hc : Nat.Coprime (s.ccbase.toNat * s.ccmult.toNat ^ (j : Nat) % s.letters) s.letters) :
    Set.BijOn (fun i => s.specAddr i j) (Set.Iio s.letters) (Set.Iio s.letters) :=
  ((Set.finite_Iio _).injOn_iff_bijOn_of_mapsTo (specAddr_mapsTo h0)).mp (specAddr_injOn hc)

/-- Where a plane's address map is injective, nothing collides: the address of `i` holds the bit of letter `i`. -/
theorem getLsbD_crossed_lb_specAddr (hinj : Set.InjOn (fun i => s.specAddr i j) (Set.Iio s.letters)) {i : Nat}
    (hi : i < s.letters) : (s.crossed.lb.read (s.specAddr i j)).getLsbD j = (s.la.read i).getLsbD j := by
  rw [Bool.eq_iff_iff, getLsbD_crossed_lb_of_lt (specAddr_mapsTo (Nat.ne_zero_of_lt hi) hi)]
  constructor
  · rintro ⟨k, hk, haddr, hbit⟩
    rwa [← hinj hk hi haddr]
  · exact fun hbit => ⟨i, hi, rfl, hbit⟩

/-- What XUNCROSS gathers after XCROSS is the letter XCROSS scattered. -/
theorem gathered_crossed
    (hinj : ∀ j, Set.InjOn (fun i => s.specAddr i j) (Set.Iio s.letters)) {i : Nat} (hi : i < s.letters) :
    gathered s.crossed i = s.la.read i := by
  refine BitVec.eq_of_getLsbD_eq fun b hb => ?_
  exact (getLsbD_gathered_specAddr s.crossed i ⟨b, hb⟩).trans
    (getLsbD_crossed_lb_specAddr (hinj ⟨b, hb⟩) hi)

theorem crossed_uncrossed_la_read (hinj : ∀ j, Set.InjOn (fun i => s.specAddr i j) (Set.Iio s.letters)) (a : Nat) :
    s.crossed.uncrossed.la.read a = s.la.read a := by
  rcases Nat.lt_or_ge a s.letters with ha | ha
  · exact (uncrossed_la_read_of_lt (s := s.crossed) ha).trans (gathered_crossed hinj ha)
  · exact uncrossed_la_read_of_le (s := s.crossed) ha

end RoundTrip

/-- Settles O47: each letter below N is gathered as it was scattered, and the rest of LA is written by neither command. -/
theorem crissCrossRoundTrip : Obligations.CrissCrossRoundTrip := by
  intro s hf h0 hc
  exact ⟨fun j => specAddr_bijOn h0 (hc j), s.crossed, xcross_completes hf h0,
    s.crossed.uncrossed, xuncross_completes (s := s.crossed) hf h0,
    crossed_uncrossed_la_read fun j => specAddr_injOn (hc j), rfl⟩

end Sys2Proof.Machine
end

section
/-! PROOFS. Whitening and odd-number arithmetic (44_whitening.md R220 to R232). Under a PERM of involutions permuting twice changes
nothing, and neither does XOR with the same key twice, so whitening and unwhitening undo each other (O49); the commands (O48, O50,
O51) read their results off the functions on one letter. For O52, `oddmul` is associative with 0 as its unit, and ODDINV lists
inverses. -/

namespace Sys2Proof.Machine

/-! ## One letter -/

section Letter

variable {c : Config}

theorem selectedPerm_involutive (hp : c.PermOk) (idx : Nat) (b : Fin 5) :
    (selectedPerm c idx).get ((selectedPerm c idx).get b) = b :=
  hp _ b

theorem whiten_isWhitened (hp : c.PermOk) (l : Letter) (idx : Nat) : IsWhitened c idx l (whiten c l idx) := by
  intro b
  rw [whiten, BitVec.getLsbD_xor, getLsbD_permuteBits _ (selectedPerm_involutive hp idx), getLsbD_whitenKey, permutedBit,
    selectedPerm]

theorem unwhiten_isUnwhitened (hp : c.PermOk) (w : Letter) (idx : Nat) : IsUnwhitened c idx w (unwhiten c w idx) := by
  intro b
  rw [unwhiten, getLsbD_permuteBits _ (selectedPerm_involutive hp idx), BitVec.getLsbD_xor, getLsbD_whitenKey, permutedBit,
    selectedPerm]

theorem unwhiten_whiten (hp : c.PermOk) (l : Letter) (idx : Nat) : unwhiten c (whiten c l idx) idx = l := by
  rw [unwhiten, whiten, BitVec.xor_assoc, BitVec.xor_self, BitVec.xor_zero,
    permuteBits_permuteBits _ (selectedPerm_involutive hp idx)]

theorem whiten_unwhiten (hp : c.PermOk) (w : Letter) (idx : Nat) : whiten c (unwhiten c w idx) idx = w := by
  rw [whiten, unwhiten, permuteBits_permuteBits _ (selectedPerm_involutive hp idx), BitVec.xor_assoc, BitVec.xor_self,
    BitVec.xor_zero]

end Letter

/-- Settles O49: each order of the two by its lemma. -/
theorem whitenRoundTrip : Obligations.WhitenRoundTrip :=
  fun _ hp l idx => ⟨unwhiten_whiten hp l idx, whiten_unwhiten hp l idx⟩

/-! ## WHITEN and UNWHITEN -/

/-- What WHITEN and UNWHITEN share: the check of the letter, and the function `g` of the letter that the command writes (R224,
R225). -/
theorem letterUnary_spec {i : Instr} {s : State} {rd : XReg} {v : Word} {g : Letter → Letter} {post : Letter → Letter → Prop}
    (hg : ∀ l, post l (g l)) (hf : s.fstat = false)
    (hi : exec i s = command i s (letterOperand v >>= fun l => pure (s.setXNat rd (g l).toNat))) :
    (31 < v.toNat → TakesFault i s 2 v.toNat) ∧
      (v.toNat ≤ 31 → Answers i s (SetsXTo rd
        (fun u => u.toNat ≤ 31 ∧ post (BitVec.ofNat 5 v.toNat) (BitVec.ofNat 5 u.toNat)) s)) := by
  refine ⟨takesFault_letter hf hi, fun hv => ?_⟩
  refine answers_setsXTo hf hi (by rw [letterOperand_ok hv, ok_bind_eq, pure_eq_ok]) ?_
  rw [toNat_ofNat_word (letter_toNat_lt _), BitVec.ofNat_toNat, BitVec.ofNat_toNat, BitVec.setWidth_eq]
  exact ⟨Nat.le_of_lt_succ (g _).isLt, hg _⟩

/-- Settles O48: `letterUnary_spec` for the function of each command. -/
theorem whitenPermutesThenKeys : Obligations.WhitenPermutesThenKeys := by
  intro rd rs1 rs2 s hf hp
  exact ⟨⟨wordR_eq_assembled _ _ _ _, letterUnary_spec (whiten_isWhitened hp · _) hf rfl⟩,
    ⟨wordR_eq_assembled _ _ _ _, letterUnary_spec (unwhiten_isUnwhitened hp · _) hf rfl⟩⟩

/-! ## WHITENB and UNWHITENB -/

/-- The state with every letter of LB below N replaced by `g` of the letter and its index; WHITENB and UNWHITENB make this state
for the functions on one letter (R226, R227). -/
def State.mapLb (s : State) (g : Letter → Nat → Letter) : State :=
  { s with lb := s.lb.fill 0 s.letters (fun k => g (s.lb.read k) k) }

section MapLb

variable {i : Instr} {s : State} {g : Letter → Nat → Letter}

theorem mapLb_read_of_lt {k : Nat} (hk : k < s.letters) : (s.mapLb g).lb.read k = g (s.lb.read k) k := by
  rw [State.mapLb, read_fill, if_pos (by omega), Nat.sub_zero]

theorem mapLb_read_of_le {k : Nat} (hk : s.letters ≤ k) : (s.mapLb g).lb.read k = s.lb.read k := by
  rw [State.mapLb, read_fill, if_neg (by omega)]

/-- A function that undoes `g` at every index restores LB. -/
theorem mapLb_mapLb_read {h : Letter → Nat → Letter} (hg : ∀ l k, h (g l k) k = l) (a : Nat) :
    ((s.mapLb g).mapLb h).lb.read a = s.lb.read a := by
  rcases Nat.lt_or_ge a s.letters with ha | ha
  · rw [mapLb_read_of_lt (s := s.mapLb g) ha, mapLb_read_of_lt ha, hg]
  · rw [mapLb_read_of_le (s := s.mapLb g) ha, mapLb_read_of_le ha]

/-- A command that needs the size and then acts on LB letter by letter makes that state. -/
theorem mapLb_completes (hf : s.fstat = false) (h0 : s.letters ≠ 0)
    (hi : exec i s = command i s
      (sizedOperand s >>= fun n => pure { s with lb := s.lb.fill 0 n (fun k => g (s.lb.read k) k) })) :
    exec i s = .next (s.mapLb g) := by
  rw [hi, sizedOperand_ok h0, ok_bind_eq, pure_eq_ok, command_ok hf, State.mapLb]

theorem whitenb_completes (hf : s.fstat = false) (h0 : s.letters ≠ 0) : exec .whitenb s = .next (s.mapLb (whiten s.cfg)) :=
  mapLb_completes hf h0 rfl

theorem unwhitenb_completes (hf : s.fstat = false) (h0 : s.letters ≠ 0) :
    exec .unwhitenb s = .next (s.mapLb (unwhiten s.cfg)) :=
  mapLb_completes hf h0 rfl

/-- Every letter of LB below N meets what `g` makes of it; the others, and all other state, stay. -/
theorem answers_mapLb {post : Nat → Letter → Letter → Prop} (hg : ∀ l k, post k l (g l k)) (hi : exec i s = .next (s.mapLb g)) :
    Answers i s (fun t => (∀ k, k < s.letters → post k (s.lb.read k) (t.lb.read k)) ∧
      (∀ a, s.letters ≤ a → t.lb.read a = s.lb.read a) ∧ t = { s with lb := t.lb }) := by
  refine ⟨_, hi, fun k hk => ?_, fun _ => mapLb_read_of_le, rfl⟩
  rw [mapLb_read_of_lt hk]
  exact hg _ k

end MapLb

/-- Settles O50: `answers_mapLb` for the function of each command. -/
theorem whitenbActsLetterByLetter : Obligations.WhitenbActsLetterByLetter := by
  intro s hf hp
  exact ⟨⟨hasWord_of_fields rfl rfl rfl rfl rfl, takesFault_unsized hf rfl,
      fun h0 => answers_mapLb (whiten_isWhitened hp) (whitenb_completes hf h0)⟩,
    ⟨hasWord_of_fields rfl rfl rfl rfl rfl, takesFault_unsized hf rfl,
      fun h0 => answers_mapLb (unwhiten_isUnwhitened hp) (unwhitenb_completes hf h0)⟩⟩

/-- Settles O51: UNWHITENB finds the same N, F and PERM, and undoes WHITENB at every index. -/
theorem unwhitenbRestoresLb : Obligations.UnwhitenbRestoresLb := by
  intro s hf hp h0
  exact ⟨s.mapLb (whiten s.cfg), whitenb_completes hf h0, _, unwhitenb_completes (s := s.mapLb (whiten s.cfg)) hf h0,
    mapLb_mapLb_read (unwhiten_whiten hp), rfl⟩

/-! ## Odd-number arithmetic (R228, R229) -/

/-- The letter of the product of the odd numbers that two letters stand for. -/
theorem oddmul_toNat (a b : Letter) : (oddmul a b).toNat = (2 * a.toNat + 1) * (2 * b.toNat + 1) / 2 % 32 := by
  have hodd : (2 * a.toNat + 1) * (2 * b.toNat + 1) = 2 * (2 * a.toNat * b.toNat + a.toNat + b.toNat) + 1 := by ring
  have hhalf : (2 * a.toNat + 1) * (2 * b.toNat + 1) / 2 = 2 * a.toNat * b.toNat + a.toNat + b.toNat := by omega
  rw [oddmul, BitVec.toNat_ofNat, hhalf]

theorem oddmul_eq (a b : Letter) : oddmul a b = 2 * a * b + a + b := by
  simp only [oddmul, BitVec.ofNat_add, BitVec.ofNat_mul, BitVec.ofNat_toNat, BitVec.setWidth_eq, BitVec.ofNat_eq_ofNat]

theorem oddmul_assoc (a b c : Letter) : oddmul (oddmul a b) c = oddmul a (oddmul b c) := by
  simp only [oddmul_eq]
  ring

theorem oddmul_zero (a : Letter) : oddmul a 0 = a := by
  rw [oddmul_eq]
  ring

/-- ODDINV lists the inverse of every letter; 0, which stands for 1, is the unit (R229). -/
theorem oddmul_oddInvTable (b : Letter) : oddmul (oddInvTable.getD b.toNat 0) b = 0 := by
  revert b
  decide

theorem oddmul_odddiv (c b : Letter) : oddmul (odddiv c b) b = c := by
  rw [odddiv, oddmul_assoc, oddmul_oddInvTable, oddmul_zero]

/-- Two letter operands that pass their checks give their letters. -/
theorem letterOperands_of_le {v w : Word} (f : Letter → Letter → Except Raised State) (hv : v.toNat ≤ 31) (hw : w.toNat ≤ 31) :
    (letterOperand v >>= fun a => letterOperand w >>= f a) = f (v.setWidth 5) (w.setWidth 5) := by
  rw [letterOperand_ok hv, ok_bind_eq, letterOperand_ok hw, ok_bind_eq]

/-- Settles O52: ODDMUL by `oddmul_toNat`, and ODDDIV by `oddmul_odddiv`. -/
theorem oddArithmetic : Obligations.OddArithmetic := by
  intro rd rs1 rs2 s hf
  refine ⟨⟨wordR_eq_assembled _ _ _ _, checksLetters_of hf rfl, fun h1 h2 => ?_⟩,
    ⟨wordR_eq_assembled _ _ _ _, checksLetters_of hf rfl, fun h1 h2 => ?_⟩⟩
  · refine answers_setsX hf rfl ?_
    rw [letterOperands_of_le _ h1 h2, pure_eq_ok, oddmul_toNat, letter_toNat h1, letter_toNat h2]
  · refine answers_setsXTo hf rfl (by rw [letterOperands_of_le _ h1 h2, pure_eq_ok]) ?_
    rw [toNat_ofNat_word (letter_toNat_lt _)]
    refine ⟨Nat.le_of_lt_succ (odddiv _ _).isLt, ?_⟩
    rw [State.xv, ← letter_toNat h2, ← oddmul_toNat, oddmul_odddiv, letter_toNat h1]

end Sys2Proof.Machine
end

section
/-! PROOFS. The system commands (45_system.md R251 to R255). What CSRR and CSRW do is said once, in terms of what the tables
`csrRead` and `csrWritable` answer for the number; each row of R26 is then one reading of a table. -/

namespace Sys2Proof.Machine

/-! ## Immediates -/

/-- The high half beside the low half of a register, as a number (R252). -/
theorem append_low_half (imm16 : Half) (v : Word) :
    imm16 ++ v.extractLsb' 0 16 = BitVec.ofNat 32 (imm16.toNat * 2 ^ 16 + v.toNat % 2 ^ 16) := by
  have hlow : (v.extractLsb' 0 16).toNat = v.toNat % 2 ^ 16 := BitVec.extractLsb'_toNat ..
  have hjoin : (imm16 ++ v.extractLsb' 0 16).toNat = imm16.toNat * 2 ^ 16 + v.toNat % 2 ^ 16 := by
    rw [BitVec.toNat_append, ← Nat.shiftLeft_add_eq_or_of_lt (BitVec.isLt _), Nat.shiftLeft_eq, hlow]
  rw [← hjoin, BitVec.ofNat_toNat, BitVec.setWidth_eq]

/-- Settles O53: LIH by `append_low_half`. -/
theorem immediatesAreLoaded : Obligations.ImmediatesAreLoaded := by
  intro rd imm16 s hf
  refine ⟨⟨wordI_eq_assembled _ _ _, ?_⟩, ⟨wordI_eq_assembled _ _ _, ?_⟩⟩
  · rw [BitVec.ofNat_toNat]
    exact answers_of hf rfl rfl (setsX_setX _ _ _)
  · rw [← append_low_half]
    exact answers_of hf rfl rfl (setsX_setX _ _ _)

/-! ## Commands that run in the faulted state too -/

/-- RD or CSRR whose body makes a state answers it, whatever F is (R306). -/
theorem answers_of_commandAlways {i : Instr} {s t : State} {body : Except Raised State} {post : State → Prop}
    (h : exec i s = commandAlways i s body) (hb : body = .ok t) (hp : post t) : Answers i s post :=
  ⟨t, by rw [h, hb, commandAlways, settle], hp⟩

/-- RD or CSRR whose body fails a check takes that fault while F is 0 (R306). -/
theorem takesFault_of_commandAlways {i : Instr} {s : State} {body : Except Raised State} {e : Raised} (hf : s.fstat = false)
    (h : exec i s = commandAlways i s body) (hb : body = .error e) : TakesFault i s e.cause.code e.info := by
  rw [TakesFault, h, hb, commandAlways, settle, takeFault_eq hf]

/-- Settles O54: RD has no check, and emitting writes OUT alone. -/
theorem rdAppendsToOut : Obligations.RdAppendsToOut :=
  fun _ _ => ⟨hasWord_of_fields rfl rfl rfl rfl rfl, answers_of_commandAlways rfl rfl rfl⟩

/-! ## Reading a CSR -/

section Csr

variable {s : State} {csr : CsrNum}

/-- CSRR of an implemented CSR sets `rd` to its value, whatever F is (R254, R306). -/
theorem csrr_answers {v : Word} (rd : XReg) (h : csrRead s csr = some v) : Answers (.csrr rd csr) s (SetsX rd v s) :=
  answers_of_commandAlways (t := s.setX rd v) rfl (by rw [h]) (setsX_setX s rd v)

/-- The same for a CSR stored in 16 bits, whose upper half reads 0 (R27, R28, R29). -/
theorem csrr_answers_half {v : Half} (rd : XReg) (h : csrRead s csr = some (v.setWidth 32)) :
    Answers (.csrr rd csr) s (SetsX rd (BitVec.ofNat 32 v.toNat) s) := by
  rw [BitVec.ofNat_toNat]
  exact csrr_answers rd h

/-- CSRR of any other number is an illegal command with the number (R254). -/
theorem csrr_takesFault (rd : XReg) (hf : s.fstat = false) (h : csrRead s csr = none) :
    TakesFault (.csrr rd csr) s 1 csr.toNat :=
  takesFault_of_commandAlways (e := ⟨.illegalCommand, csr.toNat⟩) hf rfl (by rw [h])

/-! ## Writing a CSR -/

/-- CSRW of a number that is not writable is an illegal command with the number, whatever the value (R255). -/
theorem csrw_takesFault_number (rs1 : XReg) (hf : s.fstat = false) (h : csrWritable s csr = none) :
    TakesFault (.csrw csr rs1) s 1 csr.toNat :=
  takesFault_of (e := ⟨.illegalCommand, csr.toNat⟩) hf rfl (by rw [h])

variable {rs1 : XReg} {top : Nat} {write : Half → State}

/-- CSRW refuses a value above the largest one of the CSR, which keeps its value (R255). -/
theorem csrw_takesFault_value (hf : s.fstat = false) (h : csrWritable s csr = some (top, write)) (hv : top < s.xv rs1) :
    TakesFault (.csrw csr rs1) s 2 (s.xv rs1) :=
  takesFault_badOperand hf rfl (by simp only [h, boundedOperand_bad hv, error_bind_eq])

/-- CSRW of a legal value writes it to the CSR (R255). -/
theorem csrw_answers {post : State → Prop} (hf : s.fstat = false) (h : csrWritable s csr = some (top, write))
    (hv : s.xv rs1 ≤ top) (hp : post (write (BitVec.ofNat 16 (s.xv rs1)))) : Answers (.csrw csr rs1) s post :=
  answers_of hf rfl (by simp only [h, boundedOperand_ok hv, ok_bind_eq, pure_eq_ok]) hp

end Csr

/-! ## The words and the CSRs of R26 -/

theorem encode_csrr (rd : XReg) (csr : CsrNum) :
    encode (.csrr rd csr) = BitVec.ofNat 32 (0x73 ||| rd.toNat <<< 8 ||| csr.toNat <<< 16) := by
  have hword : encode (.csrr rd csr) = wordC 0x73 rd 0#4 csr := rfl
  rw [hword, wordC_eq_assembled, BitVec.toNat_zero, Nat.zero_shiftLeft, Nat.or_zero]
  rfl

theorem encode_csrw (csr : CsrNum) (rs1 : XReg) :
    encode (.csrw csr rs1) = BitVec.ofNat 32 (0x74 ||| rs1.toNat <<< 12 ||| csr.toNat <<< 16) := by
  have hword : encode (.csrw csr rs1) = wordC 0x74 0#4 rs1 csr := rfl
  rw [hword, wordC_eq_assembled, BitVec.toNat_zero, Nat.zero_shiftLeft, Nat.or_zero]
  rfl

/-- Settles O55: one reading of `csrRead` for each row of R26, and `csrRead_none` for every other number. -/
theorem csrrReadsTheRegisterList : Obligations.CsrrReadsTheRegisterList := by
  intro rd s
  obtain ⟨hengid, hcapn, hcaph⟩ := csrRead_constants s
  have hnlet : csrRead s 0x000 = some (s.nlet.setWidth 32) := rfl
  have hccmult : csrRead s 0x001 = some (s.ccmult.setWidth 32) := rfl
  have hccbase : csrRead s 0x002 = some (s.ccbase.setWidth 32) := rfl
  have hhlen : csrRead s 0x010 = some (s.hlen.setWidth 32) := rfl
  have hfstat : csrRead s 0x020 = some (if s.fstat then 1 else 0) := rfl
  have hfcause : csrRead s 0x021 = some s.fcause := rfl
  have hfcmd : csrRead s 0x022 = some s.fcmd := rfl
  have hfinfo : csrRead s 0x023 = some s.finfo := rfl
  exact ⟨encode_csrr rd, csrr_answers_half rd hnlet, csrr_answers_half rd hccmult, csrr_answers_half rd hccbase,
    csrr_answers_half rd hhlen, csrr_answers rd hfstat, csrr_answers rd hfcause, csrr_answers rd hfcmd, csrr_answers rd hfinfo,
    csrr_answers rd hengid, csrr_answers_half rd hcapn, csrr_answers_half rd hcaph,
    fun csr hcsr hf => csrr_takesFault rd hf (csrRead_none hcsr)⟩

/-- Settles O56: the number by `csrWritable_none`, then for each writable CSR its bound and the one field a write changes. The
bounds lie below 2^16, so the value is kept whole. -/
theorem csrwWritesTheThree : Obligations.CsrwWritesTheThree := by
  intro rs1 s hf
  have hnlet : csrWritable s 0x000 = some (s.cfg.nmax.toNat, fun v => { s with nlet := v }) := rfl
  have hccmult : csrWritable s 0x001 = some (65535, fun v => { s with ccmult := v }) := rfl
  have hccbase : csrWritable s 0x002 = some (65535, fun v => { s with ccbase := v }) := rfl
  refine ⟨fun csr => encode_csrw csr rs1, fun csr hcsr => csrw_takesFault_number rs1 hf (csrWritable_none hcsr),
    csrw_takesFault_value hf hnlet, fun hv => ⟨csrw_takesFault_value hf hccmult hv, csrw_takesFault_value hf hccbase hv⟩,
    fun hv => csrw_answers hf hnlet hv ⟨rfl, toNat_ofNat_half hv⟩, fun hv => ?_⟩
  have hkept : (BitVec.ofNat 16 (s.xv rs1)).toNat = s.xv rs1 := toNat_ofNat_half (c := BitVec.allOnes 16) hv
  exact ⟨csrw_answers hf hccmult hv ⟨rfl, hkept⟩, csrw_answers hf hccbase hv ⟨rfl, hkept⟩⟩

end Sys2Proof.Machine
end

section
/-! PROOFS. The number of data letters of a symbol size: its equation without subtraction, and how it grows (O57). -/

namespace Sys2Proof.Machine

/-- The rule of R271 without its subtraction: the host writes n when n and the metadata letters, 6 or from the threshold on 7,
make up the letter total. -/
theorem ndataLetters_eq_some_iff {size n : Nat} :
    ndataLetters size = some n ↔
      2 ≤ size ∧ n + (if 2883 < 3 * (size * (size + 1)) + 1 then 7 else 6) = 3 * (size * (size + 1)) + 1 := by
  unfold ndataLetters
  rw [Nat.mul_assoc]
  by_cases hsize : size < 2
  · simp only [if_pos hsize, reduceCtorEq, Nat.not_le.mpr hsize, false_and]
  · have htotal : 2 * 3 ≤ size * (size + 1) := Nat.mul_le_mul (by omega) (by omega)
    simp only [if_neg hsize, Option.some.injEq]
    split <;> omega

/-- A larger size has more letters: `size * (size + 1)` grows by 2 * (size + 1) from one size to the next. -/
theorem letterTotal_grows {a b : Nat} (hab : a < b) : a * (a + 1) + 2 * (a + 1) ≤ b * (b + 1) :=
  calc a * (a + 1) + 2 * (a + 1) = (a + 1) * (a + 2) := by ring
    _ ≤ b * (b + 1) := Nat.mul_le_mul hab (Nat.succ_le_succ hab)

/-- Every size from 2 on has a number of data letters (R271). -/
theorem exists_ndataLetters {size : Nat} (hsize : 2 ≤ size) : ∃ n, ndataLetters size = some n :=
  ⟨_, if_neg (Nat.not_lt.mpr hsize)⟩

/-- The letter total is 1 mod 3, so the number of data letters is 1 mod 3 with 6 metadata letters and 0 mod 3 with 7 (R272). -/
theorem ndataLetters_mod_three {size n : Nat} (h : ndataLetters size = some n) : n % 3 = 0 ∨ n % 3 = 1 := by
  obtain ⟨-, htotal⟩ := ndataLetters_eq_some_iff.mp h
  split at htotal
  · left; omega
  · right; omega

/-- The number of data letters is strictly increasing: the letter total grows by more than the one metadata letter that the
larger size may add (R272). -/
theorem ndataLetters_lt {a b n m : Nat} (hab : a < b) (ha : ndataLetters a = some n) (hb : ndataLetters b = some m) : n < m := by
  obtain ⟨-, hn⟩ := ndataLetters_eq_some_iff.mp ha
  obtain ⟨-, hm⟩ := ndataLetters_eq_some_iff.mp hb
  have hgrows := letterTotal_grows hab
  split at hn <;> split at hm <;> omega

/-- Settles O57, from the equation of R271: the residue, the growth, and the sizes on the two sides of the threshold. -/
theorem dataLettersGrowWithTheSize : Obligations.DataLettersGrowWithTheSize := by
  refine ⟨fun size hsize => ?_, fun _ _ _ _ => ndataLetters_lt, rfl, rfl, rfl, rfl⟩
  obtain ⟨n, hn⟩ := exists_ndataLetters hsize
  exact ⟨n, hn, ndataLetters_mod_three hn⟩

end Sys2Proof.Machine
end

section
/-! PROOFS. Faults and the faulted state (60_exceptions.md). That no command refuses (O11) is read off their shape. What a command
can do from F = 0 is said once, with the cause of each of its checks (O13, O14); what it can do while F is 1 is said once
(O15, O16), and a run keeps F because every step does (O17). -/

namespace Sys2Proof.Machine

/-! ## Every command and every step answers a state -/

/-- Every meaning is a `command` or a `commandAlways`, and both answer a next state. -/
theorem exec_answers (i : Instr) (s : State) : ∃ t, exec i s = .next t := by
  cases i <;> exact ⟨_, rfl⟩

theorem step_answers (s : State) : ∃ t, step s = .next t := by
  unfold step
  split
  · exact ⟨s, rfl⟩
  · next t _ => exact ⟨t, rfl⟩
  · next w t _ =>
    split
    · next i _ => exact exec_answers i t
    · exact ⟨illegalWord w t, rfl⟩

/-- Settles O11: no arm of `exec` refuses, and a step is idle, a reset, one command or an illegal word. -/
theorem engineNeverStops : Obligations.EngineNeverStops := ⟨step_answers, exec_answers⟩

/-! ## The cause each check raises -/

/-- The check raises no cause but `k`. -/
def RaisesOnly {α : Type} (k : Cause) (c : Except Raised α) : Prop := ∀ e, c = .error e → e.cause = k

theorem raisesOnly_ok {α : Type} (k : Cause) (a : α) : RaisesOnly k (.ok a) := nofun

theorem raisesOnly_error {α : Type} (k : Cause) (n : Nat) : RaisesOnly (α := α) k (.error ⟨k, n⟩) := by
  rintro _ ⟨⟩
  rfl

theorem raisesOnly_ite {α : Type} {p : Prop} [Decidable p] (k : Cause) (n : Nat) (a : α) :
    RaisesOnly k (if p then .error ⟨k, n⟩ else .ok a) := by
  split
  · exact raisesOnly_error k n
  · exact raisesOnly_ok k a

theorem raiseIf_raises (p : Prop) [Decidable p] (k : Cause) (n : Nat) : RaisesOnly k (raiseIf p k n) := raisesOnly_ite _ _ _

theorem letterOperand_raises (v : Word) : RaisesOnly .badOperand (letterOperand v) := raisesOnly_ite _ _ _

theorem byteOperand_raises (v : Word) : RaisesOnly .badOperand (byteOperand v) := raisesOnly_ite _ _ _

theorem boundedOperand_raises (top : Nat) (v : Word) : RaisesOnly .badOperand (boundedOperand top v) := raisesOnly_ite _ _ _

theorem int31Operand_raises (v : Word) : RaisesOnly .badOperand (int31Operand v) := by
  unfold int31Operand
  split
  · exact raisesOnly_ok _ _
  · exact raisesOnly_error _ _

theorem sizedOperand_raises (s : State) : RaisesOnly .notSized (sizedOperand s) := raisesOnly_ite _ _ _

theorem indexOperand_raises (n : Nat) (v : Word) : RaisesOnly .indexRange (indexOperand n v) := raisesOnly_ite _ _ _

/-! ## The faults of a body -/

/-- The body of a command raises only causes with a listed code, and a state it makes, its checks passed, has F = 0. -/
structure FaultsWithin (codes : List Nat) (body : Except Raised State) : Prop where
  makes_good : Makes State.Good body
  raises_listed : ∀ e, body = .error e → e.cause.code ∈ codes

section Bodies

variable {codes : List Nat}

theorem faultsWithin_ok {u : State} (h : u.fstat = false) : FaultsWithin codes (.ok u) := ⟨makes_ok h, nofun⟩

theorem faultsWithin_error {k : Cause} {n : Nat} (h : k.code ∈ codes := by simp [Cause.code, faultCodesOf]) :
    FaultsWithin codes (.error ⟨k, n⟩) :=
  ⟨makes_error _, by rintro _ ⟨⟩; exact h⟩

/-- A check before the rest of a body: its cause and those of the rest are listed. -/
theorem faultsWithin_bind {α : Type} {k : Cause} {c : Except Raised α} {f : α → Except Raised State} (hc : RaisesOnly k c)
    (hf : ∀ a, FaultsWithin codes (f a)) (hk : k.code ∈ codes := by simp [Cause.code, faultCodesOf]) :
    FaultsWithin codes (c >>= f) := by
  refine ⟨makes_bind fun a _ => (hf a).makes_good, fun e he => ?_⟩
  obtain hce | ⟨a, -, hfe⟩ := bind_eq_error he
  · rw [hc e hce]
    exact hk
  · exact (hf a).raises_listed e hfe

end Bodies

/-! ## What a command can do from F = 0 -/

/-- The command completed with F still 0, or took a fault whose code the table gives it (R301, R305). -/
def CompletesOrFaults (i : Instr) (s t : State) : Prop :=
  t.fstat = false ∨ ∃ e, e.cause.code ∈ faultCodesOf i ∧ t = takeFault (encode i) e s

section Commands

variable {i : Instr} {s t : State} {b : Except Raised State}

theorem command_completesOrFaults (hs : s.fstat = false) (ht : command i s b = .next t)
    (hb : FaultsWithin (faultCodesOf i) b) : CompletesOrFaults i s t := by
  obtain ⟨hs', -⟩ | ⟨-, hu⟩ | ⟨-, e, he, rfl⟩ := command_next ht
  · simp [hs] at hs'
  · exact .inl (hb.makes_good t hu)
  · exact .inr ⟨e, hb.raises_listed e he, rfl⟩

theorem commandAlways_completesOrFaults (ht : commandAlways i s b = .next t) (hb : FaultsWithin (faultCodesOf i) b) :
    CompletesOrFaults i s t := by
  obtain hu | ⟨e, he, rfl⟩ := commandAlways_next ht
  · exact .inl (hb.makes_good t hu)
  · exact .inr ⟨e, hb.raises_listed e he, rfl⟩

/-- Everything a command can do from F = 0, as regards faults. The cases are sorted by the checks, which stand in the order in
which the command makes them. -/
theorem exec_completesOrFaults (hs : s.fstat = false) (ht : exec i s = .next t) : CompletesOrFaults i s t := by
  have hdone {codes : List Nat} {u : State} (hu : u.fstat = s.fstat) : FaultsWithin codes (.ok u) :=
    faultsWithin_ok (hu.trans hs)
  cases i with
  | pzero | padd | hclr | li | lih => exact command_completesOrFaults hs ht (hdone rfl)
  | gfinv | whiten | unwhiten =>
    exact command_completesOrFaults hs ht (faultsWithin_bind (letterOperand_raises _) fun _ => hdone rfl)
  | gfmul | oddmul | odddiv =>
    exact command_completesOrFaults hs ht (faultsWithin_bind (letterOperand_raises _) fun _ =>
      faultsWithin_bind (letterOperand_raises _) fun _ => hdone rfl)
  | gfexp | hdbits | pgetc =>
    exact command_completesOrFaults hs ht (faultsWithin_bind (boundedOperand_raises _ _) fun _ => hdone rfl)
  | gflog =>
    exact command_completesOrFaults hs ht (faultsWithin_bind (raiseIf_raises _ _ _) fun _ =>
      faultsWithin_bind (letterOperand_raises _) fun _ => hdone rfl)
  | peval | pscale | picpt =>
    exact command_completesOrFaults hs ht (faultsWithin_bind (int31Operand_raises _) fun _ => hdone rfl)
  | f31add | f31sub | f31mul =>
    exact command_completesOrFaults hs ht (faultsWithin_bind (int31Operand_raises _) fun _ =>
      faultsWithin_bind (int31Operand_raises _) fun _ => hdone rfl)
  | f31div =>
    exact command_completesOrFaults hs ht (faultsWithin_bind (int31Operand_raises _) fun _ =>
      faultsWithin_bind (int31Operand_raises _) fun _ => faultsWithin_bind (raiseIf_raises _ _ _) fun _ => hdone rfl)
  | psetc =>
    exact command_completesOrFaults hs ht (faultsWithin_bind (boundedOperand_raises _ _) fun _ =>
      faultsWithin_bind (int31Operand_raises _) fun _ => hdone rfl)
  | pshift => exact command_completesOrFaults hs ht (faultsWithin_bind (raiseIf_raises _ _ _) fun _ => hdone rfl)
  | pmul =>
    refine command_completesOrFaults hs ht ?_
    split
    · exact faultsWithin_error
    · exact hdone rfl
  | pimp =>
    exact command_completesOrFaults hs ht (faultsWithin_bind (raiseIf_raises _ _ _) fun _ =>
      faultsWithin_bind (int31Operand_raises _) fun _ => faultsWithin_bind (raiseIf_raises _ _ _) fun _ => hdone rfl)
  | hpush | happ =>
    exact command_completesOrFaults hs ht (faultsWithin_bind (byteOperand_raises _) fun _ =>
      faultsWithin_bind (raiseIf_raises _ _ _) fun _ => hdone rfl)
  | hget => exact command_completesOrFaults hs ht (faultsWithin_bind (indexOperand_raises _ _) fun _ => hdone rfl)
  | hprop =>
    refine command_completesOrFaults hs ht (faultsWithin_bind (raiseIf_raises _ _ _) fun _ => ?_)
    split
    · exact faultsWithin_error
    · exact hdone rfl
  | hst =>
    refine command_completesOrFaults hs ht (faultsWithin_bind (sizedOperand_raises _) fun _ =>
      faultsWithin_bind (raiseIf_raises _ _ _) fun _ => ?_)
    split
    · exact faultsWithin_error
    · exact hdone rfl
  | xcross | xuncross | whitenb | unwhitenb =>
    exact command_completesOrFaults hs ht (faultsWithin_bind (sizedOperand_raises _) fun _ => hdone rfl)
  | lda | ldb =>
    exact command_completesOrFaults hs ht (faultsWithin_bind (sizedOperand_raises _) fun _ =>
      faultsWithin_bind (indexOperand_raises _ _) fun _ => hdone rfl)
  | sta | stb =>
    exact command_completesOrFaults hs ht (faultsWithin_bind (sizedOperand_raises _) fun _ =>
      faultsWithin_bind (indexOperand_raises _ _) fun _ => faultsWithin_bind (letterOperand_raises _) fun _ => hdone rfl)
  | ccaddr =>
    exact command_completesOrFaults hs ht (faultsWithin_bind (sizedOperand_raises _) fun _ =>
      faultsWithin_bind (indexOperand_raises _ _) fun _ => faultsWithin_bind (boundedOperand_raises _ _) fun _ => hdone rfl)
  | rd => exact commandAlways_completesOrFaults ht (hdone rfl)
  | csrr =>
    refine commandAlways_completesOrFaults ht ?_
    split
    · exact hdone rfl
    · exact faultsWithin_error
  | csrw =>
    refine command_completesOrFaults hs ht ?_
    split
    · exact faultsWithin_error
    · next hw =>
      refine faultsWithin_bind (boundedOperand_raises _ _) fun _ => hdone ?_
      obtain ⟨-, -, rfl⟩ | ⟨-, -, rfl⟩ | ⟨-, -, rfl⟩ := csrWritable_some hw <;> rfl

/-- A command that ends with F = 1 from F = 0 took one of its faults. -/
theorem exec_faults (hs : s.fstat = false) (ht : exec i s = .next t) (hf : t.fstat = true) :
    ∃ e, e.cause.code ∈ faultCodesOf i ∧ t = takeFault (encode i) e s :=
  (exec_completesOrFaults hs ht).resolve_left (by simp [hf])

end Commands

theorem cause_code_toNat (k : Cause) : (BitVec.ofNat 32 k.code).toNat = k.code := by
  cases k <;> rfl

/-- Settles O13: the command took a fault, and fault entry from F = 0 writes the four fault CSRs. -/
theorem faultsArePrecise : Obligations.FaultsArePrecise := by
  intro i s t hs ht hf
  obtain ⟨e, -, rfl⟩ := exec_faults hs ht hf
  obtain ⟨h1, h8⟩ := cause_code_range e.cause
  rw [cause_code_toNat] at h1 h8
  exact ⟨e.cause.code, e.info, h1, h8, takeFault_eq hs _ _⟩

/-- Settles O14: the command took one of the faults the table gives it, and FCAUSE records its code. -/
theorem faultCodesAreThoseOfTheTable : Obligations.FaultCodesAreThoseOfTheTable := by
  intro i s t hs ht hf
  obtain ⟨e, hcode, rfl⟩ := exec_faults hs ht hf
  rw [takeFault_eq hs]
  rwa [← cause_code_toNat] at hcode

/-! ## The faulted state -/

/-- RD or CSRR whose body fails a check has no effect while F is 1 (R307). -/
theorem commandAlways_error_faulted {i : Instr} {s : State} {e : Raised} (hs : s.fstat = true) :
    commandAlways i s (.error e) = .next s := by
  rw [commandAlways, settle, takeFault_faulted hs]

theorem csrr_faulted {s : State} {csr : CsrNum} (rd : XReg) (hs : s.fstat = true) (h : csrRead s csr = none) :
    exec (.csrr rd csr) s = .next s := by
  simp only [exec, execCsrr, h]
  exact commandAlways_error_faulted hs

/-- While F is 1 a command that is neither RD nor CSRR of an implemented CSR has no effect (R306, R307). -/
theorem exec_faulted {i : Instr} {s : State} (hs : s.fstat = true) (hrd : ∀ rs1, i ≠ .rd rs1)
    (hcsrr : ∀ rd csr, i = .csrr rd csr → csrRead s csr = none) : exec i s = .next s := by
  cases i with
  | rd rs1 => exact absurd rfl (hrd rs1)
  | csrr rd csr => exact csrr_faulted rd hs (hcsrr rd csr rfl)
  | _ => exact command_faulted hs _ _

/-- While F is 1 a word that is no command has no effect (R306). -/
theorem illegalWord_faulted {s : State} (hs : s.fstat = true) (w : Word) : illegalWord w s = s := takeFault_faulted hs w _

/-- Settles O15: RD and CSRR of an implemented CSR run; every other command, and every word that is none, has no effect. -/
theorem faultedEngineDiscardsCommands : Obligations.FaultedEngineDiscardsCommands := by
  intro s w rest hs hin
  refine ⟨fun rs1 hd => step_command hin hd, fun rd csr v hd hv => ?_, fun hrd hcsrr => ?_⟩
  · rw [step_command hin hd]
    exact csrr_answers rd hv
  · cases hd : decode w with
    | ok i =>
      rw [step_command hin hd]
      refine exec_faulted hs (fun rs1 hi => hrd rs1 (hi ▸ hd)) fun rd csr hi => ?_
      exact Option.eq_none_iff_forall_ne_some.mpr fun v => hcsrr rd csr v (hi ▸ hd)
    | error e => rw [step_illegal hin hd, illegalWord_faulted (s := { s with input := rest }) hs]

/-! ## The record of the first fault -/

/-- F and the record of the first fault are the same in both states (R31). -/
def SameRecord (s t : State) : Prop := t.fstat = s.fstat ∧ t.fcause = s.fcause ∧ t.fcmd = s.fcmd ∧ t.finfo = s.finfo

theorem sameRecord_refl (s : State) : SameRecord s s := ⟨rfl, rfl, rfl, rfl⟩

/-- No piece of state that a completing command writes is part of the record. -/
theorem sameRecord_of_frame {d : Target} {s t : State} (h : d.Frame s t) : SameRecord s t := by
  cases d with
  | x | p | hb | hlen | la | lb | out => obtain ⟨_, rfl⟩ := h; exact sameRecord_refl s
  | block => obtain ⟨_, _, rfl⟩ := h; exact sameRecord_refl s
  | csrs => obtain ⟨_, _, _, rfl⟩ := h; exact sameRecord_refl s

theorem exec_sameRecord {i : Instr} {s t : State} (hs : s.fstat = true) (ht : exec i s = .next t) : SameRecord s t := by
  obtain rfl | hframe | ⟨e, rfl⟩ := exec_touches ht
  · exact sameRecord_refl t
  · exact sameRecord_of_frame hframe
  · rw [takeFault_faulted hs]
    exact sameRecord_refl s

/-- While F is 1 every step but a reset keeps the record (R307). -/
theorem step_sameRecord {s t : State} (hs : s.fstat = true) (hreset : ∀ rest, s.input ≠ .reset :: rest)
    (ht : step s = .next t) : SameRecord s t := by
  obtain ⟨-, rfl⟩ | ⟨rest, hin, -⟩ | ⟨w, rest, -, ⟨i, -, hx⟩ | ⟨-, -, rfl⟩⟩ := step_next ht
  · exact sameRecord_refl t
  · exact absurd hin (hreset rest)
  · exact exec_sameRecord (s := { s with input := rest }) hs hx
  · rw [illegalWord_faulted (s := { s with input := rest }) hs]
    exact sameRecord_refl s

/-- Settles O16: the CSRR fails its check in the faulted state; a step is nothing, a command or an illegal word. -/
theorem firstFaultWins : Obligations.FirstFaultWins :=
  ⟨fun rd _ _ => csrr_faulted rd, fun _ _ hs hreset ht =>
    have ⟨hfstat, hrecord⟩ := step_sameRecord hs hreset ht
    ⟨hfstat.trans hs, hrecord⟩⟩

/-! ## Runs -/

/-- Every step of a run answers the run's next state. -/
theorem step_after (s : State) (n : Nat) : step (s.after n) = .next (s.after (n + 1)) := by
  obtain ⟨t, ht⟩ := step_answers (s.after n)
  rw [ht, State.after, ht]

/-- A step without a reset that ends with F = 0 began with F = 0. -/
theorem good_of_good_succ {s : State} {n : Nat} (hreset : ∀ rest, (s.after n).input ≠ .reset :: rest)
    (h : (s.after (n + 1)).Good) : (s.after n).Good := by
  refine Bool.eq_false_iff.mpr fun hf => ?_
  obtain ⟨hkept, -⟩ := step_sameRecord hf hreset (step_after s n)
  exact Bool.false_ne_true (h.symm.trans (hkept.trans hf))

/-- Settles O17: by induction from the last step back. -/
theorem goodEndMeansNoFault : Obligations.GoodEndMeansNoFault :=
  fun _ _ hreset hgood _ hm => Nat.decreasingInduction' (fun k hk _ => good_of_good_succ (hreset k hk)) hm hgood

end Sys2Proof.Machine
end

section
/-! PROOFS. Reset and idle (70_reset_and_hazards.md). A step with an empty input and a step at a reset event each have one equation.
That nothing else clears F (O8) is R307 read backwards: every step but a reset keeps the record. -/

namespace Sys2Proof.Machine

/-- With nothing presented the engine keeps all state (R314). -/
theorem step_idle {s : State} (h : s.input = []) : step s = .next s := by
  simp only [step, nextEvent_idle h]

theorem step_reset {s : State} {rest : List HostInput} (h : s.input = .reset :: rest) :
    step s = .next (resetEvent rest s) := by
  simp only [step, nextEvent_reset h]

/-- The reset values of R39 say nothing of the waiting input, so what stays waiting behind the reset event is free (R340, log 3). -/
theorem resetEvent_atReset (rest : List HostInput) (s : State) : (resetEvent rest s).AtReset := resetOf_atReset s.cfg

/-- Reset is the one exit from the faulted state (R309). -/
theorem reset_of_step_clears_fstat {s t : State} (ht : step s = .next t) (hs : s.fstat = true) (hclear : t.fstat = false) :
    ∃ rest, s.input = .reset :: rest := by
  by_contra hno
  have hreset : ∀ rest, s.input ≠ .reset :: rest := not_exists.mp hno
  obtain ⟨hkept, -⟩ := step_sameRecord hs hreset ht
  exact Bool.false_ne_true (hclear.symm.trans (hkept.trans hs))

/-- Settles O8: one equation for a reset event, one for an idle step, and the record kept by every step that is no reset. -/
theorem resetAloneRestoresTheEngine : Obligations.ResetAloneRestoresTheEngine :=
  ⟨fun s rest hin => ⟨resetEvent rest s, step_reset hin, resetEvent_atReset rest s, rfl, rfl⟩,
    fun _ => step_idle, fun _ _ => reset_of_step_clears_fstat⟩

end Sys2Proof.Machine
end
